-- ==== Sys2Proof/Word.lean ====
section
/-! DEFINITION. The word types of the block: the 32-bit unit of the REG and GRID ports, the 8-bit unit of the PBUF
port (rule R50), and the single bit of a bit sequence (00_scope.md, notation). -/

namespace Sys2Proof

/-- A 32-bit word: the unit of the REG and GRID ports (R50, R55). -/
abbrev Word := BitVec 32

/-- An 8-bit unsigned byte: the unit of the PBUF port, a channel value, a text character (R50, R35, R53). -/
abbrev Byte := BitVec 8

/-- One bit of a bit sequence: `true` stands for 1 and `false` for 0. -/
abbrev Bit := Bool

/-- A bit sequence: its first element is the bit produced or consumed first. -/
abbrev Bits := List Bit

end Sys2Proof
end

