-- ==== Sys2Proof/Syntax.lean ====
section
/-! DEFINITION. The commands of the block: the rows of spec/opcode_table.json (30_encoding.md R70 to R72). A command is
one CTRL write and has no operand field (R70): its operands are registers and memories (R74). The twelve rows of the
table that carry the mnemonic ILLEGAL are one command (R103: "otherwise: ILLEGAL"), so they are the twelve values of
one constructor's field, the OP that was written. -/

namespace Sys2Proof

/-- The block's commands (R71, R72). -/
inductive Instr where
  /-- EMBED_A, OP 0x1: Variant A embed (R152). -/
  | embedA
  /-- EXTRACT_A, OP 0x2: Variant A extract (R156). -/
  | extractA
  /-- EMBED_B, OP 0x3: Variant B embed (R181). -/
  | embedB
  /-- EXTRACT_B, OP 0x4: Variant B extract (R190). -/
  | extractB
  /-- ILLEGAL, for the reserved OP values 0x0 and 0x5 to 0xF (R72, R104): one value of `op` per row of the table. -/
  | illegal (op : BitVec 4)
  deriving DecidableEq, Repr

end Sys2Proof
end

