-- ==== Sys2Proof/WellFormed.lean ====
section
/-! DEFINITION. Which command terms some CTRL write denotes (R71, R72). -/

namespace Sys2Proof

/-- The OP values of R72: 0x0 and 0x5 to 0xF. -/
abbrev ReservedOp (op : BitVec 4) : Prop := op = 0 ∨ 5 ≤ op

/-- A command is well formed when it is a row of the opcode table: ILLEGAL stands only for a reserved OP. -/
def Instr.wellFormed : Instr → Bool
  | .embedA => true
  | .extractA => true
  | .embedB => true
  | .extractB => true
  | .illegal op => decide (ReservedOp op)

end Sys2Proof
end

