-- ==== Sys2Proof/Decode.lean ====
section
/-! DEFINITION. Decoding and encoding of a command word (30_encoding.md R70 to R72, R79). The decoder selects the command
from the OP field alone, bits [3:0]; bits [31:4] select nothing. -/

namespace Sys2Proof

/-- The OP field of a word written to CTRL, bits [3:0] (R70). -/
def opField (w : Word) : BitVec 4 := w.extractLsb' 0 4

/-- The opcode map (R71), with every other OP value ILLEGAL (R72, R103). -/
def decodeOp (op : BitVec 4) : Instr :=
  if op = 1 then .embedA
  else if op = 2 then .extractA
  else if op = 3 then .embedB
  else if op = 4 then .extractB
  else .illegal op

/-- The command a 32-bit CTRL write denotes: every word denotes exactly one (R70, R103). -/
def decodeWord (w : Word) : Instr := decodeOp (opField w)

/-- Why a string of bits is no command word. -/
inductive DecodeError where
  /-- More than 32 bits were given: every command is one 32-bit CTRL write (R79). -/
  | longerThanOneWord
  /-- The number does not fit in the bits it is said to have. -/
  | bitsBeyondLength
  deriving DecidableEq, Repr

/-- Decoding of any number `w` said to be `nbits` bits long, missing high bits of the command word being 0: total, and
what is no 32-bit write is rejected by name (R79). -/
def decodeBits (nbits w : Nat) : Except DecodeError Instr :=
  if 32 < nbits then .error .longerThanOneWord
  else if 2 ^ nbits ≤ w then .error .bitsBeyondLength
  else .ok (decodeWord (BitVec.ofNat 32 w))

/-- The instruction the decoder reads from a row's word, numbered as spec/opcode_table.json numbers it. The block has
one word per command and no byte order in it (R55, R79), so the number is the word. -/
def decodeTableWord (nbits w : Nat) : Option Instr :=
  match decodeBits nbits w with
  | .ok i => some i
  | .error _ => none

/-- The OP value of a command (R71, R72). -/
def encodeOp : Instr → BitVec 4
  | .embedA => 1
  | .extractA => 2
  | .embedB => 3
  | .extractB => 4
  | .illegal op => op

/-- The word software writes to CTRL for a command, with 0 in the reserved bits [31:4] (R70). -/
def encode (i : Instr) : Word := (encodeOp i).setWidth 32

end Sys2Proof
end

