-- ==== Sys2Proof/Config.lean ====
section
/-! DEFINITION. What is fixed for a block (00_scope.md rule R5): the spec's constants, the OPEN parameters with their
constraint, and the free values (the contents of memory after a reset, R250, R254). -/

namespace Sys2Proof

namespace Config

/-- HEADER_BITS (R5): the width of the Variant A length header. -/
abbrev headerBitCount : Nat := 24
/-- TRAILER_PIXELS (R5). -/
abbrev trailerPixels : Nat := 6
/-- MAX_PAYLOAD_BITS (R5): 2^24 - 1. -/
abbrev maxPayloadBits : Nat := 16777215
/-- MAX_PAYLOAD_BYTES (R5): floor (MAX_PAYLOAD_BITS / 8). -/
abbrev maxPayloadBytes : Nat := 2097151
/-- A_BITS_PER_PIXEL (R5). -/
abbrev aBitsPerPixel : Nat := 4
/-- B_SLOTS_PER_PIXEL (R5). -/
abbrev bSlotsPerPixel : Nat := 3
/-- B_SLOTS_PER_CHAR (R5). -/
abbrev bSlotsPerChar : Nat := 8
/-- B_ZERO_FILL (R5): the zero-filler slots that form the terminator. -/
abbrev bZeroFill : Nat := 8

/-- MaxOut of R5: the longest output an extraction from a GRID of `n` words can have. -/
def maxOut (n : Nat) : Nat :=
  max (min maxPayloadBytes ((n - 6) / 2)) (3 * n / 8)

end Config

/-- The OPEN size parameters of R5, GRID_WORDS and PBUF_BYTES. A state carries them, so that every claim about every
state is a claim for every size. -/
structure Params where
  gridWords : Nat
  pbufBytes : Nat
  deriving DecidableEq, Repr

/-- The constraint R5 puts on the OPEN sizes. -/
abbrev Params.Legal (p : Params) : Prop :=
  1 ≤ p.gridWords ∧ Config.maxOut p.gridWords ≤ p.pbufBytes

namespace Config

/-- How many words GRID has beyond the least R5 allows: each implementation decides (OPEN, 92_eei_decisions.md D7). -/
opaque extraGridWords : Nat

/-- How many bytes PBUF has beyond the least R5 allows for its GRID: each implementation decides (OPEN, D8). -/
opaque extraPbufBytes : Nat

/-- The sizes of the block at hand: any sizes that meet R5, and nothing more is known of them. -/
def sizes : Params where
  gridWords := extraGridWords + 1
  pbufBytes := maxOut (extraGridWords + 1) + extraPbufBytes

/-- FREE VALUE: the word that GRID index `i` holds after the `n`-th reset until it is written (R250, R254;
93_implementation_defined.md S2, S3). -/
opaque gridDraw (n i : Nat) : Word

/-- FREE VALUE: the byte that PBUF index `i` holds after the `n`-th reset until it is written (R250, R254; S2, S3). -/
opaque pbufDraw (n i : Nat) : Byte

end Config

end Sys2Proof
end

