-- ==== Sys2Proof/Machine/State.lean ====
section
/-! DEFINITION. The architectural state (10_state.md), the outside world's part of it (R20, R50), the reasons a step can
stop, and the state after reset (R250). -/

namespace Sys2Proof.Machine

/-- A memory port's cells (R33, R34): the cells written since the last reset, as (index, value) pairs with strictly
rising indices. An index with no entry holds its drawn reset value (R254), which `State.gridCell` and `State.pbufCell`
supply: in the list itself it has no value at all, so no entry can repeat it. -/
abbrev Memory (α : Type) := List (Nat × α)

/-- STATUS (R24). Bit 3 and bits [31:8] are reserved and read 0, so they are no part of what is stored. -/
structure Status where
  /-- [0] BUSY -/
  busy : Bool
  /-- [1] DONE -/
  done : Bool
  /-- [2] TERM -/
  term : Bool
  /-- [7:4] CODE -/
  code : BitVec 4
  deriving DecidableEq, Repr

/-- The two states of the Variant B embed state machine (R180). -/
inductive EmbedMode where
  | hiding
  | fillingZeros
  deriving DecidableEq, Repr

/-- The engine's internal state (R36). Values the rules shift, mask or halve are bit vectors of R36's width; counters and
cursors are numbers, and `Engine.fits` (Safety.lean) says that they stay within R36's widths. No host port reaches any
of it. -/
structure Engine where
  /-- OP latched at acceptance, 4 bits -/
  op : BitVec 4
  /-- the traversal cursor, 16 bits each -/
  x : Nat
  y : Nat
  /-- header bits written or read so far, 5 bits (0..24) -/
  hc : Nat
  /-- payload bits written or read so far, 25 bits (0..16,777,216) -/
  pcA : Nat
  /-- the bit-count, 24 bits -/
  len : Nat
  /-- "the 24-bit length sequence" -/
  header : Bits
  /-- "the payload bit sequence" -/
  payload : Bits
  /-- `state`: the Variant B state machine, 1 bit -/
  mode : EmbedMode
  /-- `s`: the flat slot index, 35 bits -/
  slot : Nat
  /-- zero-filler slots written so far, 4 bits (0..8) -/
  zeros : Nat
  /-- the next text character to load, 32 bits -/
  ci : Nat
  /-- the remaining bits of the current character -/
  cv : Byte
  /-- the working copy of the current pixel's colour channels -/
  r : Byte
  g : Byte
  b : Byte
  /-- the character accumulator -/
  acc : Byte
  /-- output characters so far, 32 bits -/
  ol : Nat
  deriving DecidableEq, Repr

/-- The host's transactions on the three ports (R50). REG's index is 3 bits wide (R56); the indices of GRID and PBUF are
any numbers, in range or not. -/
inductive Transaction where
  | regRead (i : BitVec 3)
  | regWrite (i : BitVec 3) (v : Word)
  | gridRead (i : Nat)
  | gridWrite (i : Nat) (v : Word)
  | pbufRead (i : Nat)
  | pbufWrite (i : Nat) (v : Byte)
  deriving DecidableEq, Repr

/-- What the outside world does to the block, one thing at a time (R20, R59, R81, R250). -/
inductive Input where
  /-- the host issues one transaction -/
  | issue (t : Transaction)
  /-- the host's `poll`: read STATUS until BUSY is 0 (R81) -/
  | poll
  /-- the platform asserts reset (R250, R251) -/
  | reset
  deriving DecidableEq, Repr

/-- A value a read transaction returned to the host: 32 bits from REG or GRID, 8 bits from PBUF (R50). -/
inductive Reply where
  | word (v : Word)
  | byte (v : Byte)
  deriving DecidableEq, Repr

/-- The two agents of R20. -/
inductive Agent where
  | host
  | engine
  deriving DecidableEq, Repr

/-- The state: the registers (R22), the memories (R33, R34), the engine (R36), and what stands outside the block but
decides what happens next (the sizes of R5, the host's transactions, the order in which the two agents move). -/
structure State where
  /-- CTRL.OP (R23); bits [31:4] of CTRL are not stored -/
  ctrl : BitVec 4
  /-- STATUS (R24) -/
  status : Status
  /-- WIDTH[15:0] (R25) -/
  width : BitVec 16
  /-- HEIGHT[15:0] (R26) -/
  height : BitVec 16
  /-- IN_LEN (R27) -/
  inLen : BitVec 32
  /-- OUT_LEN (R28) -/
  outLen : BitVec 32
  /-- HDR[23:0] (R29) -/
  hdr : BitVec 24
  /-- GRID, the words written since the last reset (R33) -/
  grid : Memory Word
  /-- PBUF, the bytes written since the last reset (R34) -/
  pbuf : Memory Byte
  /-- the engine's internal state (R36) -/
  engine : Engine
  /-- the sizes of GRID and PBUF (R5): no step changes them -/
  params : Params
  /-- MODEL's own: how many resets there have been; it numbers the draws of R250 -/
  resets : Nat
  /-- MODEL's own: what the outside world will do, next first -/
  inputs : List Input
  /-- MODEL's own: what the host's reads have returned, newest first -/
  replies : List Reply
  /-- MODEL's own: who moves while a command runs, next first; when it is used up the engine moves (R259, R260) -/
  schedule : List Agent
  deriving DecidableEq, Repr

/-- Why a run stops with a fault. -/
inductive Fault where
  /-- A GRID transaction while STATUS.BUSY = 1 (R62, R255; 93_implementation_defined.md S1: "fault, recorded at the host
  transaction"). Raised by `transact` alone. SAFE: the spec leaves the effect unspecified. -/
  | gridAccessWhileBusy
  /-- A PBUF transaction while STATUS.BUSY = 1 (R62, R255; S1). Raised by `transact` alone. SAFE, as above. -/
  | pbufAccessWhileBusy
  deriving DecidableEq, Repr

/-- Why an instruction has no meaning. Every instruction of this block has one, so nothing raises this. -/
inductive Refusal where
  /-- The instruction of that mnemonic is not modelled: raised by no arm. SAFE. -/
  | notModelled (mnemonic : String)
  deriving DecidableEq, Repr

/-- What a step does next, and in which state: R20's two agents move one at a time. -/
inductive Move where
  /-- the engine runs the command it holds -/
  | engine (s : State)
  /-- the outside world does `i` -/
  | input (i : Input) (s : State)
  /-- no command runs and nothing comes in: the block waits (R252) -/
  | idle
  deriving DecidableEq, Repr

/-- How a visit of the engine ends: the traversal goes on, or the command's termination rule has fired (R38). -/
inductive Flow where
  | go (s : State)
  | stop (s : State)
  deriving DecidableEq, Repr

/-- The engine after reset: idle, its variables unspecified and unobservable (R250); the model names 0 for each. -/
def Engine.reset : Engine where
  op := 0
  x := 0
  y := 0
  hc := 0
  pcA := 0
  len := 0
  header := []
  payload := []
  mode := .hiding
  slot := 0
  zeros := 0
  ci := 0
  cv := 0
  r := 0
  g := 0
  b := 0
  acc := 0
  ol := 0

/-- STATUS after reset: 0 (R250). -/
def Status.reset : Status where
  busy := false
  done := false
  term := false
  code := 0

/-- The machine right after its first reset (R250): every register 0, the engine idle, no cell of GRID or PBUF written,
and nothing yet asked of it. -/
def State.reset : State where
  ctrl := 0
  status := Status.reset
  width := 0
  height := 0
  inLen := 0
  outLen := 0
  hdr := 0
  grid := []
  pbuf := []
  engine := Engine.reset
  params := Config.sizes
  resets := 0
  inputs := []
  replies := []
  schedule := []

end Sys2Proof.Machine
end

