-- ==== Sys2Proof/Machine/Flags.lean ====
section
/-! DEFINITION. The status outputs: completion codes (R73, R221), the STATUS word (R24), what acceptance and completion
write (R39, R100, R105). -/

namespace Sys2Proof.Machine

/-- The named completion codes (R73). Of these CHANNEL_SATURATION is raised by no rule (R164). -/
inductive Code where
  | ok
  | capacityExceeded
  | invalidLength
  | truncatedStream
  | missingTerminator
  | illegalCommand
  | configError
  | channelSaturation
  deriving DecidableEq, Repr

/-- STATUS.CODE of a code (R73). -/
def codeValue : Code → BitVec 4
  | .ok => 0x0
  | .capacityExceeded => 0x1
  | .invalidLength => 0x2
  | .truncatedStream => 0x3
  | .missingTerminator => 0x4
  | .illegalCommand => 0x5
  | .configError => 0x6
  | .channelSaturation => 0x7

/-- The codes R222 calls fatal: the command's output is not produced. DESIGN CHOICE (log entry 15), safe:
CHANNEL_SATURATION, which neither R222 nor R73 calls fatal or not, counts as fatal here; no command raises it. -/
def codeFatal : Code → Bool
  | .ok => false
  | .capacityExceeded => true
  | .invalidLength => true
  | .truncatedStream => true
  | .missingTerminator => false
  | .illegalCommand => true
  | .configError => true
  | .channelSaturation => true

/-- The STATUS word: CODE << 4 | TERM << 2 | DONE << 1 | BUSY, reserved bits 0 (R24, R73). -/
def statusWord (t : Status) : Word :=
  (0#24 ++ t.code) ++ (0#1 ++ (BitVec.ofBool t.term ++ (BitVec.ofBool t.done ++ BitVec.ofBool t.busy)))

/-- STATUS at acceptance: BUSY = 1, DONE = 0, TERM = 0, CODE = 0, at once (R100). -/
def acceptedStatus : Status where
  busy := true
  done := false
  term := false
  code := 0

/-- STATUS at completion: BUSY = 0, DONE = 1, the command's TERM and code, at once (R105). -/
def completedStatus (code : Code) (term : Bool) : Status where
  busy := false
  done := true
  term := term
  code := codeValue code

/-- COMPLETE (R105): the one atomic update that ends a command, with the values of TERM, OUT_LEN and HDR the command set
(0 where it set none). -/
def State.complete (s : State) (code : Code) (term : Bool) (outLen : BitVec 32) (hdr : BitVec 24) : State :=
  { s with status := completedStatus code term, outLen := outLen, hdr := hdr }

/-- `raise c` of a command that has set nothing: error completion (R220, R225), the block's counterpart of taking an
exception. Nothing is saved and control goes nowhere: TERM, OUT_LEN and HDR are 0. -/
def State.raise (s : State) (code : Code) : State :=
  s.complete code false 0 0

end Sys2Proof.Machine
end

