-- ==== Sys2Proof/Machine/Operands.lean ====
section
/-! DEFINITION. The operands of the commands (R74), the channels of a pixel word (R52), the datapath functions of
41_bit_packing.md (R120 to R131) and the traversal orders (R132 to R136). -/

namespace Sys2Proof.Machine

/-! ### Register operands (R74) -/

/-- W: WIDTH[15:0], unsigned. -/
def State.W (s : State) : Nat := s.width.toNat

/-- H: HEIGHT[15:0], unsigned. -/
def State.H (s : State) : Nat := s.height.toNat

/-- N = W*H, exact. -/
def State.N (s : State) : Nat := s.W * s.H

/-- IN_LEN, unsigned. -/
def State.count (s : State) : Nat := s.inLen.toNat

/-- ceil (a / 4) of R150, R152 and R156: the pixels that hold `a` bits. -/
def pixelsForBits (a : Nat) : Nat := (a + 3) / 4

/-! ### Channels (R52) -/

/-- The four channels of a pixel (R35). -/
inductive Channel where
  | A
  | R
  | G
  | B
  deriving DecidableEq, Repr

/-- `chan(P, c)`: A = P[31:24], R = P[23:16], G = P[15:8], B = P[7:0] (R52). -/
def chan (P : Word) : Channel → Byte
  | .A => P.extractLsb' 24 8
  | .R => P.extractLsb' 16 8
  | .G => P.extractLsb' 8 8
  | .B => P.extractLsb' 0 8

/-- `Pix(a, r, g, b)` = a<<24 | r<<16 | g<<8 | b (R181). -/
def pix (a r g b : Byte) : Word := a ++ (r ++ (g ++ b))

/-- `with(P, c, v)`: P with exactly the 8 bits of channel c replaced (R52). -/
def withChan (P : Word) (c : Channel) (v : Byte) : Word :=
  match c with
  | .A => pix v (chan P .R) (chan P .G) (chan P .B)
  | .R => pix (chan P .A) v (chan P .G) (chan P .B)
  | .G => pix (chan P .A) (chan P .R) v (chan P .B)
  | .B => pix (chan P .A) (chan P .R) (chan P .G) v

/-! ### Channel bit operations (R123 to R128) -/

/-- Par: the bit a channel carries, v mod 2 = v[0] (R77, R123). -/
def par (v : Byte) : Bit := v.getLsbD 0

/-- ParityWrite: the Variant A channel write (R124). -/
def parityWrite (v : Byte) (b : Bit) : Byte :=
  if par v then (if b then v else v - 1) else (if b then v + 1 else v)

/-- ParityWritePixel: four bits into one pixel, in the order A, R, G, B (R126). -/
def parityWritePixel (P : Word) (b0 b1 b2 b3 : Bit) : Word :=
  let P1 := withChan P .A (parityWrite (chan P .A) b0)
  let P2 := withChan P1 .R (parityWrite (chan P1 .R) b1)
  let P3 := withChan P2 .G (parityWrite (chan P2 .G) b2)
  withChan P3 .B (parityWrite (chan P3 .B) b3)

/-- ParPixel: the four bits of a pixel, in the order A, R, G, B (R127). -/
def parPixel (P : Word) : Bits :=
  [par (chan P .A), par (chan P .R), par (chan P .G), par (chan P .B)]

/-- LsbClear: the Variant B pre-clear, v AND 0xFE (R128). -/
def lsbClear (v : Byte) : Byte := v &&& 0xFE

/-! ### Bit-packer, bit-unpacker and framers (R120, R121, R129 to R131, R151, R155) -/

/-- The number a bit sequence spells, most significant bit first: v <- 2*v + bit for each bit in turn (R121, R155). -/
def bitsToNat (p : Bits) : Nat := p.foldl (fun v b => 2 * v + b.toNat) 0

/-- The eight bits of a byte, most significant first (R120). -/
def byteToBits (v : Byte) : Bits := (List.range 8).map fun i => v.getLsbD (7 - i)

/-- BytesToBits, the bit-packer: each byte expanded MSB first (R120). -/
def bytesToBits (d : List Byte) : Bits := d.flatMap byteToBits

/-- BitsToBytes, the bit-unpacker: groups of eight bits, MSB first, a shorter last group dropped (R121). -/
def bitsToBytes : Bits → List Byte
  | b0 :: b1 :: b2 :: b3 :: b4 :: b5 :: b6 :: b7 :: rest =>
    BitVec.ofNat 8 (bitsToNat [b0, b1, b2, b3, b4, b5, b6, b7]) :: bitsToBytes rest
  | _ => []

/-- HeaderBits: the 24-bit big-endian form of L, h[i] = L[23 - i] (R151). -/
def headerBits (L : Nat) : Bits := (List.range 24).map fun i => L.testBit (23 - i)

/-- HeaderDecode: the number 24 header bits spell (R155). -/
def headerDecode (h : Bits) : Nat := bitsToNat h

/-- Reverse8: `Reverse8(v)[i] = v[7 - i]` (R131). -/
def reverse8 (v : Byte) : Byte := v.reverse

/-- One accumulation step of CharPack: acc <- 2*acc + e (R130). -/
def accumulate (acc : Byte) (e : Bit) : Byte := 2 * acc + BitVec.setWidth 8 (BitVec.ofBool e)

/-- CharPack: eight bits in slot order to a character (R130). -/
def charPack (e : Bits) : Byte := reverse8 (e.foldl accumulate 0)

/-! ### Traversal orders and the reserved trailer (R132 to R136) -/

/-- ColumnMajor(W, H): x outer, y inner (R132). -/
def columnMajor (W H : Nat) : List (Nat × Nat) :=
  (List.range W).flatMap fun x => (List.range H).map fun y => (x, y)

/-- RowMajor(W, H): y outer, x inner (R133). -/
def rowMajor (W H : Nat) : List (Nat × Nat) :=
  (List.range H).flatMap fun y => (List.range W).map fun x => (x, y)

/-- Trailer(x, y): x > W - 7 and y > H - 2, compared as signed integers (R134). -/
abbrev trailer (W H x y : Nat) : Prop :=
  (x : Int) > (W : Int) - 7 ∧ (y : Int) > (H : Int) - 2

/-- The trailer pixel T_j = (W - 6 + j, H - 1), for W ≥ 6 and H ≥ 1 (R135). -/
def trailerPixel (W H j : Nat) : Nat × Nat := (W - 6 + j, H - 1)

/-- NT(q), the q-th non-trailer pixel in ColumnMajor order, for W ≥ 6 and H ≥ 1 (R136). -/
def nt (W H q : Nat) : Nat × Nat :=
  let F := (W - 6) * H
  if q < F then (q / H, q % H) else (W - 6 + (q - F) / (H - 1), (q - F) % (H - 1))

/-- The GRID index of pixel (x, y): y*W + x (R51). -/
def pixelIndex (W x y : Nat) : Nat := y * W + x

/-! ### The capacity predicate (R150) -/

/-- CapOK(bits, W, H) (R150). -/
abbrev capOK (bits W H : Nat) : Prop :=
  bits ≤ Config.maxPayloadBits ∧ (6 ≤ W ∧ 1 ≤ H) ∧ (pixelsForBits bits : Int) ≤ (W : Int) * H - 6

end Sys2Proof.Machine
end

