-- ==== Sys2Proof/Machine/Ops.lean ====
section
/-! DEFINITION. The operations the commands and the host's transactions share: the memories (R33, R34, R56), the register
port (R22 to R32), acceptance (R100), the configuration check (R106), the engine's cursor and traversal (R38), and
reset (R250). -/

namespace Sys2Proof.Machine

/-! ### Memories -/

/-- The value written at index `i` since the last reset, if one was. -/
def Memory.lookup {α : Type} : Memory α → Nat → Option α
  | [], _ => none
  | (a, v) :: m, i => if a = i then some v else Memory.lookup m i

/-- Writing index `i`: the entries stay in strictly rising order, one per written index. -/
def Memory.store {α : Type} : Memory α → Nat → α → Memory α
  | [], i, v => [(i, v)]
  | (a, w) :: m, i, v =>
    if i < a then (i, v) :: (a, w) :: m
    else if i = a then (i, v) :: m
    else (a, w) :: Memory.store m i v

/-- The canonical form of a memory of `size` cells: indices strictly rising and all in range. -/
abbrev Memory.wf {α : Type} (size : Nat) (m : Memory α) : Prop :=
  (m.map Prod.fst).Pairwise (· < ·) ∧ ∀ c ∈ m, c.1 < size

/-- What GRID cell `i` holds: the word written there since the last reset, or its draw (R254). -/
def State.gridCell (s : State) (i : Nat) : Word :=
  (Memory.lookup s.grid i).getD (Config.gridDraw s.resets i)

/-- What PBUF cell `i` holds: the byte written there since the last reset, or its draw (R254). -/
def State.pbufCell (s : State) (i : Nat) : Byte :=
  (Memory.lookup s.pbuf i).getD (Config.pbufDraw s.resets i)

/-- MemRead(GRID, i): an index at or above GRID_WORDS reads 0 (R56). -/
def State.gridRead (s : State) (i : Nat) : Word :=
  if i < s.params.gridWords then s.gridCell i else 0

/-- MemWrite(GRID, i, v): a write at or above GRID_WORDS is ignored (R56). -/
def State.gridWrite (s : State) (i : Nat) (v : Word) : State :=
  if i < s.params.gridWords then { s with grid := Memory.store s.grid i v } else s

/-- MemRead(PBUF, i): an index at or above PBUF_BYTES reads 0 (R56). -/
def State.pbufRead (s : State) (i : Nat) : Byte :=
  if i < s.params.pbufBytes then s.pbufCell i else 0

/-- MemWrite(PBUF, i, v): a write at or above PBUF_BYTES is ignored (R56). -/
def State.pbufWrite (s : State) (i : Nat) (v : Byte) : State :=
  if i < s.params.pbufBytes then { s with pbuf := Memory.store s.pbuf i v } else s

/-- GridRead(x, y) = MemRead(GRID, y*W + x) (R51). -/
def State.pixelRead (s : State) (x y : Nat) : Word := s.gridRead (pixelIndex s.W x y)

/-- GridWrite(x, y, P) = MemWrite(GRID, y*W + x, P) (R51). -/
def State.pixelWrite (s : State) (x y : Nat) (P : Word) : State := s.gridWrite (pixelIndex s.W x y) P

/-- PBUF[0..n): the bytes an embed reads, in order (R53). -/
def State.pbufBytes (s : State) (n : Nat) : List Byte := (List.range n).map s.pbufRead

/-- Writing the bytes `d` to PBUF from index `j` on, in order (R53). -/
def State.pbufWriteFrom (s : State) (j : Nat) : List Byte → State
  | [] => s
  | v :: d => State.pbufWriteFrom (s.pbufWrite j v) (j + 1) d

/-! ### The register port -/

/-- RegRead(i): the registers of R22, reserved fields 0 (R23 to R31). No read has a side effect (R32). -/
def State.regRead (s : State) (i : BitVec 3) : Word :=
  if i = 0 then s.ctrl.setWidth 32
  else if i = 1 then statusWord s.status
  else if i = 2 then s.width.setWidth 32
  else if i = 3 then s.height.setWidth 32
  else if i = 4 then s.inLen
  else if i = 5 then s.outLen
  else if i = 6 then s.hdr.setWidth 32
  else 0

/-- ACCEPT's update, all at once (R100): OP into CTRL and into the engine, STATUS to busy, OUT_LEN and HDR to 0. -/
def State.accept (s : State) (v : Word) : State :=
  { s with
    ctrl := opField v
    status := acceptedStatus
    outLen := 0
    hdr := 0
    engine := { s.engine with op := opField v } }

/-- RegWrite(i, v). While BUSY every register write is ignored (R101, R102); while idle CTRL accepts a command (R100),
WIDTH, HEIGHT and IN_LEN store their bits (R25 to R27), and the read-only indices ignore it (R30, R31). -/
def State.regWrite (s : State) (i : BitVec 3) (v : Word) : State :=
  if s.status.busy then s
  else if i = 0 then s.accept v
  else if i = 2 then { s with width := v.setWidth 16 }
  else if i = 3 then { s with height := v.setWidth 16 }
  else if i = 4 then { s with inLen := v }
  else s

/-! ### Checks and traversal -/

/-- ConfigCheck of the extracts: W*H > GRID_WORDS, exact (R106). -/
abbrev State.gridTooBig (s : State) : Prop := s.params.gridWords < s.N

/-- ConfigCheck of the embeds: W*H > GRID_WORDS, or IN_LEN > PBUF_BYTES (R106). -/
abbrev State.embedTooBig (s : State) : Prop := s.gridTooBig ∨ s.params.pbufBytes < s.count

/-- The traversal cursor comes to pixel (x, y) (R38). -/
def State.moveTo (s : State) (x y : Nat) : State := { s with engine := { s.engine with x := x, y := y } }

/-- Go on with `f` unless the termination rule has fired (R38). -/
def Flow.andThen (w : Flow) (f : State → Flow) : Flow :=
  match w with
  | .go s => f s
  | .stop s => .stop s

/-- Visit the pixels of a traversal in order, until it ends or the termination rule fires (R38, R107). -/
def visitAll (visit : Nat × Nat → State → Flow) : List (Nat × Nat) → State → Flow
  | [], s => .go s
  | p :: ps, s => (visit p s).andThen (visitAll visit ps)

/-! ### Reset -/

/-- The platform's reset (R250, R251): every register 0, the engine idle, a running command abandoned, and every cell of
GRID and PBUF at a new draw. The sizes, and what stands outside the block, stay. -/
def State.platformReset (s : State) : State :=
  { s with
    ctrl := 0
    status := Status.reset
    width := 0
    height := 0
    inLen := 0
    outLen := 0
    hdr := 0
    grid := []
    pbuf := []
    engine := Engine.reset
    resets := s.resets + 1 }

end Sys2Proof.Machine
end

