-- ==== Sys2Proof/Machine/Illegal.lean ====
section
/-! DEFINITION. The ILLEGAL command (40_command.md R104). -/

namespace Sys2Proof.Machine

/-- ILLEGAL, whichever reserved OP was written (R104): no configuration check, no memory access, code
ILLEGAL_COMMAND. CTRL keeps the OP, which acceptance stored. -/
def execIllegal (_op : BitVec 4) (s : State) : Host.Outcome State Fault Refusal :=
  .next (s.raise .illegalCommand)

end Sys2Proof.Machine
end

