-- ==== Sys2Proof/Machine/VariantA.lean ====
section
/-! DEFINITION. Variant A, the length-prefixed binary codec (42_variant_a.md): EMBED_A (R152) and EXTRACT_A (R156). -/

namespace Sys2Proof.Machine

/-! ### EMBED_A -/

/-- The four bits from index `n` of a bit sequence, into the channels A, R, G, B of pixel word `P`. -/
def writeFour (P : Word) (bits : Bits) (n : Nat) : Word :=
  parityWritePixel P (bits.getD n false) (bits.getD (n + 1) false) (bits.getD (n + 2) false) (bits.getD (n + 3) false)

/-- EMBED_A's variables at the start of its traversal (R152): L, the header and payload bits, both cursors at 0. -/
def State.startEmbedA (s : State) : State :=
  { s with
    engine :=
      { s.engine with
        len := 8 * s.count
        header := headerBits (8 * s.count)
        payload := bytesToBits (s.pbufBytes s.count)
        hc := 0
        pcA := 0 } }

/-- Four header bits into pixel (x, y), a trailer pixel (R75, R152). -/
def State.writeHeaderPixel (s : State) (x y : Nat) : State :=
  let t := s.pixelWrite x y (writeFour (s.pixelRead x y) s.engine.header s.engine.hc)
  { t with engine := { t.engine with hc := t.engine.hc + 4 } }

/-- Four payload bits into pixel (x, y), which is no trailer pixel (R76, R152). -/
def State.writePayloadPixel (s : State) (x y : Nat) : State :=
  let t := s.pixelWrite x y (writeFour (s.pixelRead x y) s.engine.payload s.engine.pcA)
  { t with engine := { t.engine with pcA := t.engine.pcA + 4 } }

/-- EMBED_A at one pixel: a trailer pixel takes header bits, any other takes payload bits while they last, and is not
accessed after that (R152, R154). -/
def embedAVisit (s : State) (p : Nat × Nat) : State :=
  let t := s.moveTo p.1 p.2
  if trailer s.W s.H p.1 p.2 then t.writeHeaderPixel p.1 p.2
  else if s.engine.pcA < s.engine.len then t.writePayloadPixel p.1 p.2
  else t

/-- EMBED_A's traversal, in column-major order (R132, R152). -/
def State.embedATraverse (s : State) : State :=
  (columnMajor s.W s.H).foldl embedAVisit s.startEmbedA

/-- EMBED_A (R152): the checks in R223's order, then the traversal; HDR = L on success. -/
def execEmbedA (s : State) : Host.Outcome State Fault Refusal :=
  if s.embedTooBig then .next (s.raise .configError)
  else if ¬ capOK (8 * s.count) s.W s.H then .next (s.raise .capacityExceeded)
  else .next (s.embedATraverse.complete .ok false 0 (BitVec.ofNat 24 (8 * s.count)))

/-! ### EXTRACT_A -/

/-- The 24 header bits, read from T0..T5 in the order A, R, G, B (R75, R156). -/
def State.readHeader (s : State) : Bits :=
  (List.range Config.trailerPixels).flatMap fun j =>
    parPixel (s.pixelRead (trailerPixel s.W s.H j).1 (trailerPixel s.W s.H j).2)

/-- EXTRACT_A's variables when the header has been read (R156): L decoded, the payload still empty. -/
def State.startExtractA (s : State) : State :=
  { s with
    engine :=
      { s.engine with
        x := s.W - 1
        y := s.H - 1
        header := s.readHeader
        hc := Config.headerBitCount
        len := headerDecode s.readHeader
        payload := []
        pcA := 0 } }

/-- EXTRACT_A's payload pass at one pixel: nothing once ceil(L/4) pixels are read, trailer pixels skipped, any other
pixel's four bits appended (R156, R157). -/
def extractAVisit (s : State) (p : Nat × Nat) : State :=
  if s.engine.pcA = 4 * pixelsForBits s.engine.len then s
  else if trailer s.W s.H p.1 p.2 then s.moveTo p.1 p.2
  else
    let t := s.moveTo p.1 p.2
    { t with
      engine :=
        { t.engine with
          payload := t.engine.payload ++ parPixel (s.pixelRead p.1 p.2)
          pcA := t.engine.pcA + 4 } }

/-- EXTRACT_A's payload pass, in column-major order (R132, R156). -/
def State.extractATraverse (s : State) : State :=
  (columnMajor s.W s.H).foldl extractAVisit s.startExtractA

/-- The output bytes: the first L bits read, reassembled (R158, R121). -/
def State.extractedBytes (s : State) : List Byte :=
  bitsToBytes (s.engine.payload.take s.engine.len)

/-- EXTRACT_A (R156): TRUNCATED_STREAM where the grid holds no header, INVALID_LENGTH (with HDR = L) where it cannot hold
the length decoded, and otherwise the payload into PBUF. -/
def execExtractA (s : State) : Host.Outcome State Fault Refusal :=
  if s.gridTooBig then .next (s.raise .configError)
  else if s.W < 6 ∨ s.H < 1 then .next (s.raise .truncatedStream)
  else if (s.N : Int) - 6 < pixelsForBits (headerDecode s.readHeader) then
    .next (s.startExtractA.complete .invalidLength false 0 (BitVec.ofNat 24 (headerDecode s.readHeader)))
  else
    let t := s.extractATraverse
    let d := t.extractedBytes
    .next ((t.pbufWriteFrom 0 d).complete .ok false (BitVec.ofNat 32 d.length) (BitVec.ofNat 24 t.engine.len))

end Sys2Proof.Machine
end

