-- ==== Sys2Proof/Machine/VariantB.lean ====
section
/-! DEFINITION. Variant B, the terminator-delimited text codec (43_variant_b.md): EMBED_B (R181) and EXTRACT_B (R190). -/

namespace Sys2Proof.Machine

/-! ### EMBED_B -/

/-- EMBED_B's variables at its start: Hiding, and every counter 0 (R180, R181). -/
def State.startEmbedB (s : State) : State :=
  { s with engine := { s.engine with mode := .hiding, ci := 0, cv := 0, slot := 0, zeros := 0 } }

/-- The word a commit writes: the working channels, with the A value the pixel had (R182, R185). -/
def State.workingPixel (s : State) (P : Word) : Word := pix (chan P .A) s.engine.r s.engine.g s.engine.b

/-- The pixel's working copies: R, G and B with their LSBs cleared (R182). -/
def State.loadWorking (s : State) (P : Word) : State :=
  { s with
    engine :=
      { s.engine with r := lsbClear (chan P .R), g := lsbClear (chan P .G), b := lsbClear (chan P .B) } }

/-- LoadChar: the next character of the text becomes the value to unpack (R129, R180). -/
def State.loadChar (s : State) : State :=
  { s with engine := { s.engine with cv := s.pbufRead s.engine.ci, ci := s.engine.ci + 1 } }

/-- The transition at a group start, before slot `k` of the pixel `p` whose word was `P` (R180, R183, R186): the stop
commits a pixel that has had a slot processed, and only such a pixel. -/
def embedBGroupStart (p : Nat × Nat) (P : Word) (k : Nat) (s : State) : Flow :=
  if s.engine.slot % Config.bSlotsPerChar = 0 then
    if s.engine.mode = .fillingZeros ∧ s.engine.zeros = Config.bZeroFill then
      .stop (if k ≠ 0 then s.pixelWrite p.1 p.2 (s.workingPixel P) else s)
    else if s.count ≤ s.engine.ci then .go { s with engine := { s.engine with mode := .fillingZeros } }
    else .go s.loadChar
  else .go s

/-- Working channel `k` (0 = R, 1 = G, 2 = B) plus a bit (R184). -/
def State.addToChannel (s : State) (k : Nat) (v : Byte) : State :=
  if k = 0 then { s with engine := { s.engine with r := s.engine.r + v } }
  else if k = 1 then { s with engine := { s.engine with g := s.engine.g + v } }
  else { s with engine := { s.engine with b := s.engine.b + v } }

/-- NextBit: the low bit of the value to unpack, which is then halved (R129). -/
def State.dropBit (s : State) : State := { s with engine := { s.engine with cv := s.engine.cv / 2 } }

/-- Slot `k` in Hiding takes the character's next bit; in FillingZeros it stays cleared (R184). -/
def State.writeSlot (s : State) (k : Nat) : State :=
  match s.engine.mode with
  | .hiding => (s.addToChannel k (s.engine.cv % 2)).dropBit
  | .fillingZeros => s

/-- After the B slot the pixel is committed (R185). -/
def State.commitFull (s : State) (p : Nat × Nat) (P : Word) (k : Nat) : State :=
  if k = 2 then s.pixelWrite p.1 p.2 (s.workingPixel P) else s

/-- The slot is done: s + 1, and zeros + 1 in FillingZeros (R181, R184). -/
def State.endSlot (s : State) : State :=
  { s with
    engine :=
      { s.engine with
        slot := s.engine.slot + 1
        zeros := match s.engine.mode with
          | .fillingZeros => s.engine.zeros + 1
          | .hiding => s.engine.zeros } }

/-- One slot of EMBED_B (R181). -/
def embedBSlot (p : Nat × Nat) (P : Word) (k : Nat) (s : State) : Flow :=
  (embedBGroupStart p P k s).andThen fun t => .go (((t.writeSlot k).commitFull p P k).endSlot)

/-- EMBED_B at one pixel: the working copies, then the slots R, G, B (R181). -/
def embedBVisit (p : Nat × Nat) (s : State) : Flow :=
  let P := s.pixelRead p.1 p.2
  (((embedBSlot p P 0 ((s.moveTo p.1 p.2).loadWorking P)).andThen (embedBSlot p P 1)).andThen (embedBSlot p P 2))

/-- EMBED_B's traversal, in row-major order (R133, R181). -/
def State.embedBTraverse (s : State) : Flow :=
  visitAll embedBVisit (rowMajor s.W s.H) s.startEmbedB

/-- The end of EMBED_B: TERM = 1 at the stop of R186, or when the grid ended exactly with the terminator (R187). -/
def finishEmbedB : Flow → State
  | .stop s => s.complete .ok true 0 0
  | .go s =>
    s.complete .ok (decide (s.engine.mode = .fillingZeros ∧ s.engine.zeros = Config.bZeroFill)) 0 0

/-- EMBED_B (R181). -/
def execEmbedB (s : State) : Host.Outcome State Fault Refusal :=
  if s.embedTooBig then .next (s.raise .configError)
  else .next (finishEmbedB s.embedBTraverse)

/-! ### EXTRACT_B -/

/-- EXTRACT_B's variables at its start (R190). -/
def State.startExtractB (s : State) : State :=
  { s with engine := { s.engine with slot := 0, acc := 0, ol := 0 } }

/-- The colour channel of slot `k` of a pixel: [R, G, B][k] (R78, R190). -/
def slotChannel (k : Nat) : Channel :=
  if k = 0 then .R else if k = 1 then .G else .B

/-- The slot's bit goes into the accumulator (R190). -/
def State.readSlot (s : State) (P : Word) (k : Nat) : State :=
  { s with
    engine :=
      { s.engine with
        acc := accumulate s.engine.acc (par (chan P (slotChannel k)))
        slot := s.engine.slot + 1 } }

/-- A formed character that is not 0 goes to PBUF[ol] (R190). -/
def State.putChar (s : State) (c : Byte) : State :=
  let t := s.pbufWrite s.engine.ol c
  { t with engine := { t.engine with ol := t.engine.ol + 1 } }

/-- The end of a group of 8: the character is formed, the accumulator restarts at 0, and a zero character stops the
command (R191, R192). -/
def State.endGroup (s : State) : Flow :=
  if s.engine.slot % Config.bSlotsPerChar = 0 then
    let t := { s with engine := { s.engine with acc := 0 } }
    if reverse8 s.engine.acc = 0 then .stop t else .go (t.putChar (reverse8 s.engine.acc))
  else .go s

/-- One slot of EXTRACT_B (R190). -/
def extractBSlot (P : Word) (k : Nat) (s : State) : Flow := (s.readSlot P k).endGroup

/-- EXTRACT_B at one pixel: the slots R, G, B (R190). -/
def extractBVisit (p : Nat × Nat) (s : State) : Flow :=
  let P := s.pixelRead p.1 p.2
  (((extractBSlot P 0 (s.moveTo p.1 p.2)).andThen (extractBSlot P 1)).andThen (extractBSlot P 2))

/-- EXTRACT_B's traversal, in row-major order (R133, R190). -/
def State.extractBTraverse (s : State) : Flow :=
  visitAll extractBVisit (rowMajor s.W s.H) s.startExtractB

/-- The end of EXTRACT_B: OK with TERM = 1 at a zero character (R192), else MISSING_TERMINATOR with the partial text
kept (R193). -/
def finishExtractB : Flow → State
  | .stop s => s.complete .ok true (BitVec.ofNat 32 s.engine.ol) 0
  | .go s => s.complete .missingTerminator false (BitVec.ofNat 32 s.engine.ol) 0

/-- EXTRACT_B (R190). -/
def execExtractB (s : State) : Host.Outcome State Fault Refusal :=
  if s.gridTooBig then .next (s.raise .configError)
  else .next (finishExtractB s.extractBTraverse)

end Sys2Proof.Machine
end

