-- ==== Sys2Proof/Machine/Dispatch.lean ====
section
/-! DEFINITION. Dispatch (40_command.md R103): the command selects its meaning. -/

namespace Sys2Proof.Machine

def exec (i : Instr) (s : State) : Host.Outcome State Fault Refusal :=
  match i with
  | .embedA => Sys2Proof.Machine.execEmbedA s
  | .extractA => Sys2Proof.Machine.execExtractA s
  | .embedB => Sys2Proof.Machine.execEmbedB s
  | .extractB => Sys2Proof.Machine.execExtractB s
  | .illegal op => Sys2Proof.Machine.execIllegal op s

end Sys2Proof.Machine
end

