-- ==== Sys2Proof/Machine/Ports.lean ====
section
/-! DEFINITION. What the outside world does to the block: the host's transactions on the three ports (R50), `poll` (R81)
and the platform's reset (R250); and whose turn it is (R20, R59, R259, R260). -/

namespace Sys2Proof.Machine

/-- A read's value goes back to the host. -/
def State.reply (s : State) (v : Reply) : State := { s with replies := v :: s.replies }

/-- One host transaction, atomic (R50, R57). Register transactions are allowed at all times; a GRID or PBUF transaction
while BUSY is the fault of R255 (R62). -/
def transact (t : Transaction) (s : State) : Host.Outcome State Fault Refusal :=
  match t with
  | .regRead i => .next (s.reply (.word (s.regRead i)))
  | .regWrite i v => .next (s.regWrite i v)
  | .gridRead i => if s.status.busy then .fault .gridAccessWhileBusy else .next (s.reply (.word (s.gridRead i)))
  | .gridWrite i v => if s.status.busy then .fault .gridAccessWhileBusy else .next (s.gridWrite i v)
  | .pbufRead i => if s.status.busy then .fault .pbufAccessWhileBusy else .next (s.reply (.byte (s.pbufRead i)))
  | .pbufWrite i v => if s.status.busy then .fault .pbufAccessWhileBusy else .next (s.pbufWrite i v)

/-- One iteration of `poll`: read STATUS, and poll again if bit 0 (BUSY) of the value read is 1 (R81). -/
def State.pollOnce (s : State) : State :=
  let t := s.reply (.word (s.regRead 1))
  if (s.regRead 1).getLsbD 0 then { t with inputs := .poll :: t.inputs } else t

/-- The outside world's move `i`. -/
def inputMove (i : Input) (s : State) : Host.Outcome State Fault Refusal :=
  match i with
  | .issue t => transact t s
  | .poll => .next s.pollOnce
  | .reset => .next s.platformReset

/-- Whose move is next. While no command runs, only the outside world moves, or the block waits (R252). While one runs,
the schedule says whose turn it is; a host turn with nothing to issue, or a schedule that is used up, is the
engine's: so the engine always moves at last (R260). -/
def nextMove (s : State) : Move :=
  if s.status.busy then
    match s.schedule, s.inputs with
    | .host :: turns, i :: is => .input i { s with schedule := turns, inputs := is }
    | _ :: turns, _ => .engine { s with schedule := turns }
    | [], _ => .engine s
  else
    match s.inputs with
    | [] => .idle
    | i :: is => .input i { s with inputs := is }

/-- The command the engine holds: the decoding of the OP latched at acceptance (R100, R103). -/
def State.heldCommand (s : State) : Instr := decodeWord (s.engine.op.setWidth 32)

/-- The block with the command word `v` just accepted and the engine to move next (R100). -/
def State.withCommand (s : State) (v : Word) : State := ({ s with schedule := [] }).accept v

end Sys2Proof.Machine
end

