-- ==== Sys2Proof/Machine/Step.lean ====
section
/-! DEFINITION. One step of the machine: one move of one of R20's two agents. A command's engine steps are one step,
since nothing can observe the block between them (R62, R105, R261). -/

namespace Sys2Proof.Machine

def step (s : State) : Host.Outcome State Fault Refusal :=
  match nextMove s with
  | .engine t => exec t.heldCommand t
  | .input i t => inputMove i t
  | .idle => .next s

/-- `s` with the command word `w` of `nbits` bits where the engine takes its next command from: accepted, and the engine
to move (R100). The block fetches no instruction from memory (R65). -/
def State.withFetchWord (s : State) (nbits w : Nat) : State := s.withCommand (BitVec.ofNat 32 (w % 2 ^ nbits))

end Sys2Proof.Machine
end

