-- ==== Sys2Proof/Machine/AddressMap.lean ====
section
/-! DEFINITION. Where a platform puts the three ports, if it maps them into one byte-addressed host space (20_memory.md
R67; 10_state.md R22). The bases are OPEN, so they are arguments here; the adapter itself is outside the block (R55). -/

namespace Sys2Proof.Machine

/-- REG_BASE, GRID_BASE and PBUF_BASE (R5, R67). -/
structure PortBases where
  regBase : Nat
  gridBase : Nat
  pbufBase : Nat
  deriving DecidableEq, Repr

/-- One unit of one port. -/
inductive PortUnit where
  | reg (i : BitVec 3)
  | grid (i : Nat)
  | pbuf (i : Nat)
  deriving DecidableEq, Repr

/-- REG_BASE + 4*i, GRID_BASE + 4*i and PBUF_BASE + i (R67). -/
def PortBases.addressOf (b : PortBases) : PortUnit → Nat
  | .reg i => b.regBase + 4 * i.toNat
  | .grid i => b.gridBase + 4 * i
  | .pbuf i => b.pbufBase + i

/-- The units that exist (R50). -/
abbrev unitExists (p : Params) : PortUnit → Bool
  | .reg _ => true
  | .grid i => decide (i < p.gridWords)
  | .pbuf i => decide (i < p.pbufBytes)

/-- Two ranges of `m` and `n` bytes at `a` and `b` do not meet. -/
abbrev apart (a m b n : Nat) : Prop := a + m ≤ b ∨ b + n ≤ a

/-- "The platform must map each port to a disjoint range" (R67). -/
abbrev PortBases.disjoint (b : PortBases) (p : Params) : Prop :=
  apart b.regBase 32 b.gridBase (4 * p.gridWords) ∧
  apart b.regBase 32 b.pbufBase p.pbufBytes ∧
  apart b.gridBase (4 * p.gridWords) b.pbufBase p.pbufBytes

/-- The unit a byte address is the address of, if any: what is no unit's address is left to the adapter. -/
def PortBases.unitAt (b : PortBases) (p : Params) (a : Nat) : Option PortUnit :=
  if b.regBase ≤ a ∧ a < b.regBase + 32 ∧ (a - b.regBase) % 4 = 0 then
    some (.reg (BitVec.ofNat 3 ((a - b.regBase) / 4)))
  else if b.gridBase ≤ a ∧ a < b.gridBase + 4 * p.gridWords ∧ (a - b.gridBase) % 4 = 0 then
    some (.grid ((a - b.gridBase) / 4))
  else if b.pbufBase ≤ a ∧ a < b.pbufBase + p.pbufBytes then some (.pbuf (a - b.pbufBase))
  else none

end Sys2Proof.Machine
end

