-- ==== Sys2Proof/Machine/Frames.lean ====
section
/-! DEFINITION. The data frames of 30_encoding.md (R75 to R78), read off a grid or a text without any traversal: what the
claims about the commands compare the commands' results with. -/

namespace Sys2Proof.Machine

/-- The payload bits a grid carries: those of NT(0)..NT(k - 1), in the order A, R, G, B (R76, R157). -/
def State.payloadBits (s : State) (k : Nat) : Bits :=
  (List.range k).flatMap fun q => parPixel (s.pixelRead (nt s.W s.H q).1 (nt s.W s.H q).2)

/-- The bit that slot `n` of a grid carries: slot n is channel R, G or B of pixel number n div 3 in row-major order, the
pixel at that GRID index (R78, R133). -/
def State.slotBit (s : State) (n : Nat) : Bit := par (chan (s.gridRead (n / 3)) (slotChannel (n % 3)))

/-- Character `g` of a grid: CharPack of the slots 8g..8g+7 (R78, R191). -/
def State.character (s : State) (g : Nat) : Byte := charPack ((List.range 8).map fun i => s.slotBit (8 * g + i))

/-- The characters of a grid: a last group of fewer than 8 slots forms none (R193, R194). -/
def State.characters (s : State) : List Byte := (List.range (3 * s.N / 8)).map s.character

/-- The text of a grid: its characters before the first zero character (R192, R193). -/
def State.text (s : State) : List Byte := s.characters.takeWhile fun c => decide (c ≠ 0)

/-- The bit slot `n` is to carry when PBUF[0..IN_LEN) is embedded: bit n mod 8 of character n div 8, and 0 past the text
(R78). -/
def State.textBit (s : State) (n : Nat) : Bit :=
  if n < 8 * s.count then (s.pbufRead (n / 8)).getLsbD (n % 8) else false

/-- Pixel number `p` committed by EMBED_B: A as it was, and each of R, G, B with its LSB replaced by its slot's bit
(R182, R184, R185, R186). -/
def State.textPixel (s : State) (p : Nat) : Word :=
  pix (chan (s.gridRead p) .A) (parityWrite (chan (s.gridRead p) .R) (s.textBit (3 * p)))
    (parityWrite (chan (s.gridRead p) .G) (s.textBit (3 * p + 1)))
    (parityWrite (chan (s.gridRead p) .B) (s.textBit (3 * p + 2)))

end Sys2Proof.Machine
end

