-- ==== Sys2Proof/Machine/Program.lean ====
section
/-! DEFINITION. The host program notation (30_encoding.md R80, R81): its lines, the pseudo-instructions' expansions, and
a program's inputs to the block. -/

namespace Sys2Proof.Machine

/-- The register names of the notation (R80). -/
inductive RegName where
  | ctrl
  | status
  | width
  | height
  | inLen
  | outLen
  | hdr
  deriving DecidableEq, Repr

/-- A register's index on the REG port (R22, R80). -/
def regIndex : RegName → BitVec 3
  | .ctrl => 0
  | .status => 1
  | .width => 2
  | .height => 3
  | .inLen => 4
  | .outLen => 5
  | .hdr => 6

/-- One line of a host program (R80, R81). `loadp i, "text"` is `loadp` with the 8-bit codes of the text's characters. -/
inductive Line where
  | wr (r : RegName) (v : Word)
  | rd (r : RegName)
  | wrg (i : Nat) (v : Word)
  | rdg (i : Nat)
  | wrp (i : Nat) (v : Byte)
  | rdp (i : Nat)
  | poll
  | fillg (v : Word)
  | loadp (i : Nat) (bytes : List Byte)
  | embedA
  | extractA
  | embedB
  | extractB
  deriving DecidableEq, Repr

/-- The bytes of `loadp`, one `wrp` each, from index `i` on (R81). -/
def loadpInputs (i : Nat) : List Byte → List Input
  | [] => []
  | v :: vs => .issue (.pbufWrite i v) :: loadpInputs (i + 1) vs

/-- A command's pseudo-instruction: write CTRL with OP alone, then `poll` (R81). -/
def commandInputs (i : Instr) : List Input := [.issue (.regWrite 0 (encode i)), .poll]

/-- A line's expansion, `w` and `h` being the values last written to WIDTH and HEIGHT (R80, R81). -/
def expandLine (w h : Nat) : Line → List Input
  | .wr r v => [.issue (.regWrite (regIndex r) v)]
  | .rd r => [.issue (.regRead (regIndex r))]
  | .wrg i v => [.issue (.gridWrite i v)]
  | .rdg i => [.issue (.gridRead i)]
  | .wrp i v => [.issue (.pbufWrite i v)]
  | .rdp i => [.issue (.pbufRead i)]
  | .poll => [.poll]
  | .fillg v => (List.range (w * h)).map fun i => .issue (.gridWrite i v)
  | .loadp i vs => loadpInputs i vs
  | .embedA => commandInputs .embedA
  | .extractA => commandInputs .extractA
  | .embedB => commandInputs .embedB
  | .extractB => commandInputs .extractB

/-- The value last written to WIDTH after a line: the 16 bits the register keeps (R25, R81). -/
def lastWidth (w : Nat) : Line → Nat
  | .wr .width v => (v.setWidth 16).toNat
  | _ => w

/-- The value last written to HEIGHT after a line (R26, R81). -/
def lastHeight (h : Nat) : Line → Nat
  | .wr .height v => (v.setWidth 16).toNat
  | _ => h

/-- A program is the sequence of its lines' transactions, in order (R80). -/
def expandProgram (w h : Nat) : List Line → List Input
  | [] => []
  | l :: ls => expandLine w h l ++ expandProgram (lastWidth w l) (lastHeight h l) ls

/-- The block with a host program about to be issued to it. -/
def State.withProgram (s : State) (p : List Line) : State :=
  { s with inputs := expandProgram s.W s.H p }

end Sys2Proof.Machine
end

