-- ==== Sys2Proof/Safety.lean ====
section
/-! DEFINITION. The terms claims are stated in: the invariant of the machine, what a command leaves alone, and what a
host owes the block (R62, R255 to R257). -/

namespace Sys2Proof.Machine

/-- The engine's counters are within the widths R36 gives them. -/
structure Engine.Fits (e : Engine) : Prop where
  x : e.x < 2 ^ 16
  y : e.y < 2 ^ 16
  hc : e.hc ≤ 24
  pcA : e.pcA ≤ 16777216
  len : e.len < 2 ^ 24
  header : e.header.length ≤ 24
  payload : e.payload.length ≤ 16777216
  slot : e.slot < 2 ^ 35
  zeros : e.zeros ≤ 8
  ci : e.ci < 2 ^ 32
  ol : e.ol < 2 ^ 32

/-- What every step keeps. -/
structure Inv (s : State) : Prop where
  /-- the sizes meet R5's constraint -/
  params : s.params.Legal
  /-- the memories are in canonical form, with no index out of range -/
  grid : Memory.wf s.params.gridWords s.grid
  pbuf : Memory.wf s.params.pbufBytes s.pbuf
  /-- the engine's counters never leave the widths of R36 -/
  engine : s.engine.Fits
  /-- while a command runs every status output reads as acceptance left it (R24, R100, R256) -/
  running : s.status.busy = true → s.status = acceptedStatus ∧ s.outLen = 0 ∧ s.hdr = 0 ∧ s.engine.op = s.ctrl
  /-- DONE = 0 while idle means that no command has completed since reset (R250) -/
  fresh : s.status.busy = false → s.status.done = false → s.status = Status.reset ∧ s.outLen = 0 ∧ s.hdr = 0
  /-- CODE is one that some rule raises (R73, R221) -/
  code : s.status.code ≤ 6
  /-- TERM = 1 goes with OK alone (R24, R187, R192) -/
  term : s.status.term = true → s.status.code = codeValue .ok
  /-- every extraction output fits (R6) -/
  outLen : s.outLen.toNat ≤ s.params.pbufBytes
  /-- a fatal code comes with no output (R222) -/
  fatal : s.status.code ≠ codeValue .ok → s.status.code ≠ codeValue .missingTerminator → s.outLen = 0

/-- What no command ever changes: the operand registers and CTRL (R23, R102), the sizes, and everything outside the
block. -/
structure SameOutside (s t : State) : Prop where
  ctrl : t.ctrl = s.ctrl
  width : t.width = s.width
  height : t.height = s.height
  inLen : t.inLen = s.inLen
  params : t.params = s.params
  resets : t.resets = s.resets
  inputs : t.inputs = s.inputs
  replies : t.replies = s.replies
  schedule : t.schedule = s.schedule

/-- Every word of GRID reads in `t` as in `s`. -/
def SameGrid (s t : State) : Prop := ∀ i, t.gridRead i = s.gridRead i

/-- Every byte of PBUF reads in `t` as in `s`. -/
def SamePbuf (s t : State) : Prop := ∀ i, t.pbufRead i = s.pbufRead i

/-- The state in which a command has completed with these status outputs (R105). -/
structure CompletedWith (t : State) (code : Code) (term : Bool) (outLen hdr : Nat) : Prop where
  status : t.status = completedStatus code term
  outLen : t.outLen.toNat = outLen
  hdr : t.hdr.toNat = hdr

/-- A transaction on the GRID or PBUF port. -/
def Transaction.touchesMemory : Transaction → Bool
  | .regRead _ => false
  | .regWrite _ _ => false
  | .gridRead _ => true
  | .gridWrite _ _ => true
  | .pbufRead _ => true
  | .pbufWrite _ _ => true

/-- A transaction that may start a command: a CTRL write. -/
def Transaction.mayStart : Transaction → Bool
  | .regWrite i _ => decide (i = 0)
  | .regRead _ => false
  | .gridRead _ => false
  | .gridWrite _ _ => false
  | .pbufRead _ => false
  | .pbufWrite _ _ => false

/-- The obligation of R255 to R257, read off a host's inputs alone: between a CTRL write and the `poll` (or reset) that
follows it, no GRID or PBUF transaction. `pending` says that a command may be running. -/
def disciplined (pending : Bool) : List Input → Bool
  | [] => true
  | .issue t :: is =>
    if t.touchesMemory then !pending && disciplined pending is else disciplined (pending || t.mayStart) is
  | .poll :: is => disciplined false is
  | .reset :: is => disciplined false is

/-- Inputs that leave a running command alone: register transactions and polls. -/
def quiet : Input → Bool
  | .issue t => !t.touchesMemory
  | .poll => true
  | .reset => false

/-- Inputs that leave a running command alone as far as the first `poll`, which waits for its completion (R81); what comes
after that `poll` is free. -/
def quietUntilPoll : List Input → Bool
  | [] => true
  | .issue t :: is => quiet (.issue t) && quietUntilPoll is
  | .poll :: _ => true
  | .reset :: _ => false

/-- The image the block works on is the same in both: the sizes, WIDTH, HEIGHT and every GRID word. What the host does
between two commands keeps it when the host writes none of GRID, WIDTH and HEIGHT (R161, R165, R195 to R197). -/
structure SameImage (s t : State) : Prop where
  params : t.params = s.params
  width : t.width = s.width
  height : t.height = s.height
  grid : SameGrid s t

/-- The inputs of a command are the same in both (R108), whatever else differs. -/
structure SameInputs (s t : State) : Prop extends SameImage s t where
  inLen : t.inLen = s.inLen
  pbuf : SamePbuf s t

/-- The results of a command are the same in both (R108). -/
structure SameResults (s t : State) : Prop where
  status : t.status = s.status
  outLen : t.outLen = s.outLen
  hdr : t.hdr = s.hdr
  grid : SameGrid s t
  pbuf : SamePbuf s t

/-- The commands that read PBUF and IN_LEN (R27, R58). -/
def isEmbed : Instr → Bool
  | .embedA => true
  | .extractA => false
  | .embedB => true
  | .extractB => false
  | .illegal _ => false

/-- `k` steps from `s` end in no fault and no refusal. -/
def SafeFor (k : Nat) (s : State) : Prop := ∃ t, Sys2Proof.core.run k s = .next t

end Sys2Proof.Machine
end

