-- ==== Sys2Proof/Certificates/Slice0/Obligations.lean ====
section
/-! DEFINITION. The statements for the provers, in the order of OBLIGATIONS.json. Each docstring names the rules of
spec/ it formalises. -/

open Sys2Proof Sys2Proof.Machine

/-! ### Encoding and dispatch -/

/-- R70, R71, R72: whatever stands in the reserved bits [31:4], the word whose OP field is a command's code denotes that
command, and the word software writes has 0 in those bits. -/
def Obligations.DecodingAnEncodedCommandGivesItBack : Prop :=
  ∀ (i : Instr) (reserved : BitVec 28), i.wellFormed = true →
    decodeWord (reserved ++ encodeOp i) = i ∧
    decodeTableWord 32 (reserved ++ encodeOp i).toNat = some i ∧
    decodeWord (encode i) = i ∧
    (encode i).extractLsb' 4 28 = 0

/-- R70, R103: every 32-bit write to CTRL denotes exactly one well-formed command, the one whose code is its OP field. -/
def Obligations.EveryWordDenotesOneCommand : Prop :=
  ∀ w : Word, (decodeWord w).wellFormed = true ∧
    ∀ i : Instr, i.wellFormed = true → (decodeWord w = i ↔ encodeOp i = opField w)

/-- R71, R72: the sixteen words of the opcode table, and one word with reserved bits set (V-C3). -/
def Obligations.OpcodeTableWordsDecode : Prop :=
  decodeWord 0x00000001 = .embedA ∧ decodeWord 0x00000002 = .extractA ∧
  decodeWord 0x00000003 = .embedB ∧ decodeWord 0x00000004 = .extractB ∧
  decodeWord 0x00000000 = .illegal 0x0 ∧ decodeWord 0x00000005 = .illegal 0x5 ∧
  decodeWord 0x00000006 = .illegal 0x6 ∧ decodeWord 0x00000007 = .illegal 0x7 ∧
  decodeWord 0x00000008 = .illegal 0x8 ∧ decodeWord 0x00000009 = .illegal 0x9 ∧
  decodeWord 0x0000000A = .illegal 0xA ∧ decodeWord 0x0000000B = .illegal 0xB ∧
  decodeWord 0x0000000C = .illegal 0xC ∧ decodeWord 0x0000000D = .illegal 0xD ∧
  decodeWord 0x0000000E = .illegal 0xE ∧ decodeWord 0x0000000F = .illegal 0xF ∧
  decodeWord 0xFFFFFFF1 = .embedA

/-! ### Steps, acceptance and the register port -/

/-- R20, R59, R103, R259, R260 and log entry 4: what one step is. While a command runs the schedule says whose turn it is; the
engine's turn (or a host turn with nothing to issue, or a schedule used up) runs the command decoded from the OP latched
at acceptance. While none runs, the outside world moves, or the block waits. -/
def Obligations.StepIsOneMove : Prop :=
  ∀ s : State,
    (s.status.busy = true → s.schedule = [] → step s = exec (decodeWord (s.engine.op.setWidth 32)) s) ∧
    (∀ turns, s.status.busy = true → s.schedule = .engine :: turns →
      step s = exec (decodeWord (s.engine.op.setWidth 32)) { s with schedule := turns }) ∧
    (∀ turns, s.status.busy = true → s.schedule = .host :: turns → s.inputs = [] →
      step s = exec (decodeWord (s.engine.op.setWidth 32)) { s with schedule := turns }) ∧
    (∀ turns i is, s.status.busy = true → s.schedule = .host :: turns → s.inputs = i :: is →
      step s = inputMove i { s with schedule := turns, inputs := is }) ∧
    (∀ i is, s.status.busy = false → s.inputs = i :: is → step s = inputMove i { s with inputs := is }) ∧
    (s.status.busy = false → s.inputs = [] → step s = .next s)

/-- R100, R103: the command a CTRL write denotes is the one the engine runs when it moves next. The model's choice: that
the engine moves next when the schedule is empty (log entry 4), that `withFetchWord` stands for a CTRL write and empties
the schedule (log entry 6), and that it keeps the low bits of the number it is given (log entry 12). -/
def Obligations.AcceptedCommandRunsNext : Prop :=
  (∀ (s : State) (v : Word) (is : List Input), s.status.busy = false → s.inputs = .issue (.regWrite 0 v) :: is →
    ∃ t, step s = .next t ∧ t.status.busy = true ∧ t.inputs = is ∧ t.schedule = s.schedule ∧
      step { t with schedule := [] } = exec (decodeWord v) { t with schedule := [] }) ∧
  ∀ (s : State) (nbits w : Nat),
    step (s.withFetchWord nbits w) = exec (decodeWord (BitVec.ofNat 32 (w % 2 ^ nbits))) (s.withFetchWord nbits w)

/-- R100: a CTRL write while idle is accepted, whatever is written: OP into CTRL and into the engine, STATUS to exactly
BUSY, OUT_LEN and HDR to 0, at once, and nothing else. While busy it is ignored. -/
def Obligations.CtrlWriteIsAccepted : Prop :=
  ∀ (s : State) (v : Word),
    (s.status.busy = false → ∃ t, transact (.regWrite 0 v) s = .next t ∧
      t.regRead 0 = v &&& 0x0000000F ∧ t.regRead 1 = 0x00000001 ∧ t.regRead 5 = 0 ∧ t.regRead 6 = 0 ∧
      t.regRead 2 = s.regRead 2 ∧ t.regRead 3 = s.regRead 3 ∧ t.regRead 4 = s.regRead 4 ∧
      t.engine = { s.engine with op := opField v } ∧ t.heldCommand = decodeWord v ∧
      SameGrid s t ∧ SamePbuf s t ∧
      t.params = s.params ∧ t.resets = s.resets ∧ t.inputs = s.inputs ∧ t.replies = s.replies ∧
      t.schedule = s.schedule) ∧
    (s.status.busy = true → transact (.regWrite 0 v) s = .next s)

/-- R101: a CTRL write while a command runs changes nothing. -/
def Obligations.CtrlWriteWhileBusyIsIgnored : Prop :=
  ∀ (s : State) (v : Word), s.status.busy = true → transact (.regWrite 0 v) s = .next s

/-- R102: operand writes while busy are ignored, so that W, H and IN_LEN are constant from acceptance to completion (a
platform reset ends the command without completing it, R251); and a read-only register ignores writes in every state. -/
def Obligations.OperandsAreConstantWhileBusy : Prop :=
  (∀ (s : State) (i : BitVec 3) (v : Word), s.status.busy = true → i = 2 ∨ i = 3 ∨ i = 4 →
    transact (.regWrite i v) s = .next s) ∧
  (∀ s t : State, s.status.busy = true → step s = .next t →
    (t.width = s.width ∧ t.height = s.height ∧ t.inLen = s.inLen) ∨
      ∃ turns is, s.schedule = .host :: turns ∧ s.inputs = .reset :: is) ∧
  ∀ (s : State) (i : BitVec 3) (v : Word), i = 1 ∨ i = 5 ∨ i = 6 → transact (.regWrite i v) s = .next s

/-- R30, R31: read-only registers and index 7 ignore every write, in any state; every reserved bit reads 0, and a write
of reserved bits stores nothing. -/
def Obligations.ReadOnlyAndReservedBits : Prop :=
  (∀ (s : State) (i : BitVec 3) (v : Word), i = 1 ∨ i = 5 ∨ i = 6 ∨ i = 7 → transact (.regWrite i v) s = .next s) ∧
  (∀ s : State, s.regRead 7 = 0 ∧ s.regRead 0 &&& 0xFFFFFFF0 = 0 ∧ s.regRead 1 &&& 0xFFFFFF08 = 0 ∧
    s.regRead 2 &&& 0xFFFF0000 = 0 ∧ s.regRead 3 &&& 0xFFFF0000 = 0 ∧ s.regRead 6 &&& 0xFF000000 = 0) ∧
  ∀ (s : State) (v : Word), s.regWrite 0 v = s.regWrite 0 (v &&& 0x0000000F) ∧
    s.regWrite 2 v = s.regWrite 2 (v &&& 0x0000FFFF) ∧ s.regWrite 3 v = s.regWrite 3 (v &&& 0x0000FFFF)

/-- R25, R26, R27: while idle, WIDTH and HEIGHT store the 16 low bits of a write and IN_LEN all 32, any value being
legal, and nothing else changes. -/
def Obligations.OperandWritesWhileIdle : Prop :=
  ∀ (s : State) (i : BitVec 3) (kept v : Word), s.status.busy = false →
    (i = 2 ∧ kept = 0x0000FFFF) ∨ (i = 3 ∧ kept = 0x0000FFFF) ∨ (i = 4 ∧ kept = 0xFFFFFFFF) →
    ∃ t, transact (.regWrite i v) s = .next t ∧ t.regRead i = v &&& kept ∧ (∀ j, j ≠ i → t.regRead j = s.regRead j) ∧
      SameGrid s t ∧ SamePbuf s t ∧ t.engine = s.engine ∧ t.params = s.params ∧ t.resets = s.resets ∧
      t.inputs = s.inputs ∧ t.replies = s.replies ∧ t.schedule = s.schedule

/-- R32: a register read changes nothing but what the host has been told; a register write other than an accepting CTRL
write changes no other register, no memory and no engine state. -/
def Obligations.RegisterSideEffects : Prop :=
  (∀ (s : State) (i : BitVec 3),
    transact (.regRead i) s = .next { s with replies := .word (s.regRead i) :: s.replies }) ∧
  ∀ (s t : State) (i : BitVec 3) (v : Word), transact (.regWrite i v) s = .next t →
    ¬ (i = 0 ∧ s.status.busy = false) →
    (∀ j, j ≠ i → t.regRead j = s.regRead j) ∧ SameGrid s t ∧ SamePbuf s t ∧ t.engine = s.engine

/-- R39: whatever step changes a status output is an acceptance, a completion or a reset, and writes the outputs that
event writes: TERM is set by EMBED_B and EXTRACT_B alone, HDR by EMBED_A when it succeeds and by EXTRACT_A once it has a
header, OUT_LEN by EXTRACT_A when it succeeds and by EXTRACT_B. -/
def Obligations.WhoWritesTheStatusOutputs : Prop :=
  ∀ s t : State, step s = .next t →
    ¬ (t.status = s.status ∧ t.outLen = s.outLen ∧ t.hdr = s.hdr) →
    (s.status.busy = false ∧ (∃ v is, s.inputs = .issue (.regWrite 0 v) :: is) ∧
      t.status = acceptedStatus ∧ t.outLen = 0 ∧ t.hdr = 0) ∨
    (s.status.busy = true ∧ t.status.busy = false ∧ t.status.done = true ∧
      (t.status.term = true → s.heldCommand = .embedB ∨ s.heldCommand = .extractB) ∧
      (t.hdr ≠ 0 → (s.heldCommand = .embedA ∧ t.status.code = codeValue .ok) ∨
        (s.heldCommand = .extractA ∧ (t.status.code = codeValue .ok ∨ t.status.code = codeValue .invalidLength))) ∧
      (t.outLen ≠ 0 → (s.heldCommand = .extractA ∧ t.status.code = codeValue .ok) ∨ s.heldCommand = .extractB)) ∨
    ((∃ is, s.inputs = .reset :: is) ∧ t.status = Status.reset ∧ t.outLen = 0 ∧ t.hdr = 0)

/-- R24, R73: what a STATUS read returns. -/
def Obligations.StatusWordLayout : Prop :=
  ∀ s : State, (s.regRead 1).toNat =
    16 * s.status.code.toNat + 4 * s.status.term.toNat + 2 * s.status.done.toNat + s.status.busy.toNat

/-! ### Reset -/

/-- R250: what reset leaves: every register 0, no command running, and every cell of GRID and PBUF at a value drawn for
that reset. -/
def Obligations.ResetState : Prop :=
  (∀ i, State.reset.regRead i = 0) ∧ State.reset.status.busy = false ∧
  (∀ j, j < State.reset.params.gridWords → State.reset.gridRead j = Config.gridDraw 0 j) ∧
  (∀ j, j < State.reset.params.pbufBytes → State.reset.pbufRead j = Config.pbufDraw 0 j) ∧
  ∀ s : State, ∃ t, inputMove .reset s = .next t ∧ (∀ i, t.regRead i = 0) ∧ t.status.busy = false ∧
    (∀ j, j < s.params.gridWords → t.gridRead j = Config.gridDraw (s.resets + 1) j) ∧
    (∀ j, j < s.params.pbufBytes → t.pbufRead j = Config.pbufDraw (s.resets + 1) j) ∧
    t.params = s.params

/-- R251: a reset while a command runs abandons it: the state is that of a reset, no completion is reported, and nothing
the command wrote to GRID or PBUF is left. The model's choice: that the reset lands on a host turn and keeps what is
outside the block, `inputs` and `replies` among it (log entries 11 and 4). -/
def Obligations.ResetAbandonsTheCommand : Prop :=
  ∀ (s : State) (turns : List Agent) (is : List Input), s.status.busy = true → s.schedule = .host :: turns →
    s.inputs = .reset :: is →
    ∃ t, step s = .next t ∧ (∀ i, t.regRead i = 0) ∧ t.status.busy = false ∧ t.inputs = is ∧ t.replies = s.replies ∧
      (∀ j, j < s.params.gridWords → t.gridRead j = Config.gridDraw (s.resets + 1) j) ∧
      (∀ j, j < s.params.pbufBytes → t.pbufRead j = Config.pbufDraw (s.resets + 1) j) ∧
      (is = [] → step t = .next t)

/-! ### The memory ports -/

/-- R33, R56, R57, R59: a GRID write while idle stores its word at its index alone, an index out of range is ignored and
reads 0, and a read returns what the memory holds. -/
def Obligations.GridPort : Prop :=
  ∀ (s : State) (i : Nat) (v : Word), s.status.busy = false →
    (∃ t, transact (.gridWrite i v) s = .next t ∧
      (∀ j, t.gridRead j = if j = i ∧ i < s.params.gridWords then v else s.gridRead j) ∧
      (∀ r, t.regRead r = s.regRead r) ∧ SamePbuf s t ∧ SameOutside s t ∧ t.engine = s.engine) ∧
    (s.params.gridWords ≤ i → transact (.gridWrite i v) s = .next s ∧ s.gridRead i = 0) ∧
    transact (.gridRead i) s = .next { s with replies := .word (s.gridRead i) :: s.replies }

/-- R34, R56, R57, R59: the same of PBUF. -/
def Obligations.PbufPort : Prop :=
  ∀ (s : State) (i : Nat) (v : Byte), s.status.busy = false →
    (∃ t, transact (.pbufWrite i v) s = .next t ∧
      (∀ j, t.pbufRead j = if j = i ∧ i < s.params.pbufBytes then v else s.pbufRead j) ∧
      (∀ r, t.regRead r = s.regRead r) ∧ SameGrid s t ∧ SameOutside s t ∧ t.engine = s.engine) ∧
    (s.params.pbufBytes ≤ i → transact (.pbufWrite i v) s = .next s ∧ s.pbufRead i = 0) ∧
    transact (.pbufRead i) s = .next { s with replies := .byte (s.pbufRead i) :: s.replies }

/-- R62, R255: a GRID or PBUF transaction while BUSY is a fault, and no other transaction is; register transactions are
allowed in every state. The model's choice: one fault for each port, whatever the index (log entry 13). -/
def Obligations.MemoryAccessWhileBusyFaults : Prop :=
  (∀ (s : State) (i : Nat), s.status.busy = true →
    transact (.gridRead i) s = .fault .gridAccessWhileBusy ∧
    (∀ v, transact (.gridWrite i v) s = .fault .gridAccessWhileBusy) ∧
    transact (.pbufRead i) s = .fault .pbufAccessWhileBusy ∧
    ∀ v, transact (.pbufWrite i v) s = .fault .pbufAccessWhileBusy) ∧
  ∀ (s : State) (t : Transaction), s.status.busy = false ∨ t.touchesMemory = false → ∃ u, transact t s = .next u

/-- R67: when a platform maps the three ports into one byte-addressed space, in disjoint ranges, every unit has its own
address and is found there. -/
def Obligations.AddressMapIsUnambiguous : Prop :=
  ∀ (b : PortBases) (p : Params) (u : PortUnit), b.disjoint p → unitExists p u = true →
    b.unitAt p (b.addressOf u) = some u

/-! ### The datapath -/

/-- R52: where the four channels lie in a pixel word, and that replacing one leaves the other three. -/
def Obligations.ChannelsOfAPixelWord : Prop :=
  ∀ (P : Word) (v : Byte),
    P.toNat = 16777216 * (chan P .A).toNat + 65536 * (chan P .R).toNat + 256 * (chan P .G).toNat + (chan P .B).toNat ∧
    ∀ c d : Channel, chan (withChan P c v) d = if d = c then v else chan P d

/-- R125: the parity write as a mask, its range of change and its parity. -/
def Obligations.ParityWriteClosedForm : Prop :=
  ∀ (v : Byte) (b : Bit),
    parityWrite v b = (v &&& 0xFE) ||| (if b then 1 else 0) ∧ par (parityWrite v b) = b ∧
    (parityWrite v b).toNat ≤ v.toNat + 1 ∧ v.toNat ≤ (parityWrite v b).toNat + 1

/-- R126, R127: four bits into a pixel as a mask, the four bits a pixel carries, and that what was written is read. -/
def Obligations.PixelBits : Prop :=
  (∀ (P : Word) (b0 b1 b2 b3 : Bit), parityWritePixel P b0 b1 b2 b3 =
    (P &&& 0xFEFEFEFE) ||| ((if b0 then 0x01000000 else 0) ||| (if b1 then 0x00010000 else 0) |||
      (if b2 then 0x00000100 else 0) ||| (if b3 then 0x00000001 else 0))) ∧
  (∀ P : Word, parPixel P = [P.getLsbD 24, P.getLsbD 16, P.getLsbD 8, P.getLsbD 0]) ∧
  ∀ (P : Word) (b0 b1 b2 b3 : Bit), parPixel (parityWritePixel P b0 b1 b2 b3) = [b0, b1, b2, b3] ∧
    (parPixel P = [b0, b1, b2, b3] → parityWritePixel P b0 b1 b2 b3 = P)

/-- R120, R121: the closed forms of the bit-packer and the bit-unpacker. -/
def Obligations.PackerClosedForms : Prop :=
  (∀ d : List Byte, (bytesToBits d).length = 8 * d.length ∧
    ∀ j i, j < d.length → i < 8 → (bytesToBits d).getD (8 * j + i) false = (d.getD j 0).getLsbD (7 - i)) ∧
  ∀ p : Bits, (bitsToBytes p).length = p.length / 8 ∧
    ∀ j, j < p.length / 8 → ((bitsToBytes p).getD j 0).toNat =
      ((List.range 8).map fun i => (p.getD (8 * j + i) false).toNat * 2 ^ (7 - i)).sum

/-- R122: the two laws of the bit-packer and the bit-unpacker. -/
def Obligations.PackerLaws : Prop :=
  (∀ d : List Byte, bitsToBytes (bytesToBits d) = d) ∧
  ∀ p : Bits, bytesToBits (bitsToBytes p) = p.take (8 * (p.length / 8))

/-- R151, R155: the length header's bits, the number they spell, and that decoding gives back what was encoded. -/
def Obligations.LengthHeader : Prop :=
  (∀ L : Nat, L ≤ 16777215 → (headerBits L).length = 24 ∧
    (∀ i, i < 24 → (headerBits L).getD i false = L.testBit (23 - i)) ∧ headerDecode (headerBits L) = L) ∧
  ∀ h : Bits, h.length = 24 →
    headerDecode h = ((List.range 24).map fun i => (h.getD i false).toNat * 2 ^ (23 - i)).sum ∧
    headerDecode h ≤ 16777215 ∧ headerBits (headerDecode h) = h

/-- R129: after LoadChar the eight NextBits are the character's bits, least significant first, and nothing is left. -/
def Obligations.CharacterUnpacking : Prop :=
  ∀ s : State,
    (∀ k, k < 8 → (State.dropBit^[k] s.loadChar).engine.cv % 2 =
      if (s.pbufRead s.engine.ci).getLsbD k then 1 else 0) ∧
    (State.dropBit^[8] s.loadChar).engine.cv = 0

/-- R130, R131, R137: CharPack's value and its reversed accumulator, and that it gives back exactly the character whose
bits it is given. -/
def Obligations.CharacterPacking : Prop :=
  (∀ (v : Byte) (i : Nat), i < 8 → (reverse8 v).getLsbD i = v.getLsbD (7 - i)) ∧
  ∀ e : Bits, e.length = 8 →
    (charPack e).toNat = ((List.range 8).map fun i => (e.getD i false).toNat * 2 ^ i).sum ∧
    (e.foldl accumulate 0).toNat = ((List.range 8).map fun i => (e.getD i false).toNat * 2 ^ (7 - i)).sum ∧
    ∀ c : Byte, charPack e = c ↔ ∀ i, i < 8 → e.getD i false = c.getLsbD i

/-- R132, R133: the two visiting orders, by visit number, and each pixel of the grid visited exactly once in both. -/
def Obligations.TraversalOrders : Prop :=
  ∀ W H : Nat,
    (columnMajor W H).length = W * H ∧ (rowMajor W H).length = W * H ∧
    (∀ x y, x < W → y < H → (columnMajor W H)[x * H + y]? = some (x, y)) ∧
    (∀ x y, x < W → y < H → (rowMajor W H)[y * W + x]? = some (x, y)) ∧
    (∀ n x y, (columnMajor W H)[n]? = some (x, y) → x < W ∧ y < H ∧ n = x * H + y) ∧
    ∀ n x y, (rowMajor W H)[n]? = some (x, y) → x < W ∧ y < H ∧ n = y * W + x ∧ pixelIndex W x y = n

/-- R135, R136, with R134's corner case: the trailer pixels of a traversal are T0 to T5 in that order, at their visit
numbers, and the others are NT(0) to NT(N - 7) in that order. -/
def Obligations.TrailerAndPayloadPixels : Prop :=
  ∀ W H : Nat, 6 ≤ W → 1 ≤ H →
    (∀ x y, x < W → y < H → (trailer W H x y ↔ W - 6 ≤ x ∧ y = H - 1)) ∧
    (columnMajor W H).filter (fun p => decide (trailer W H p.1 p.2)) = (List.range 6).map (trailerPixel W H) ∧
    (∀ j, j < 6 → (columnMajor W H)[(W - 6 + j) * H + (H - 1)]? = some (W - 6 + j, H - 1)) ∧
    (columnMajor W H).filter (fun p => !decide (trailer W H p.1 p.2)) = (List.range (W * H - 6)).map (nt W H) ∧
    (H = 1 → ∀ q, q < W - 6 → nt W H q = (q, 0))

/-! ### Checks and codes -/

/-- R104: ILLEGAL completes with ILLEGAL_COMMAND, in every state and whatever reserved OP was written, and changes nothing
but the status outputs. -/
def Obligations.IllegalCommandCompletes : Prop :=
  ∀ (op : BitVec 4) (s : State), ReservedOp op → ∃ t, exec (.illegal op) s = .next t ∧
    CompletedWith t .illegalCommand false 0 0 ∧ t.regRead 1 = 0x00000052 ∧ t.regRead 0 = s.regRead 0 ∧
    SameOutside s t ∧ SameGrid s t ∧ SamePbuf s t

/-- R106: the configuration check of the four commands. It fails exactly on an exact W*H above GRID_WORDS or, in the
embeds alone, on IN_LEN above PBUF_BYTES; the command then completes with CONFIG_ERROR and changes no memory. -/
def Obligations.ConfigurationCheck : Prop :=
  ∀ (i : Instr) (s : State), i = .embedA ∨ i = .extractA ∨ i = .embedB ∨ i = .extractB →
    ∃ t, exec i s = .next t ∧
      (s.params.gridWords < s.width.toNat * s.height.toNat ∨
          (i = .embedA ∨ i = .embedB) ∧ s.params.pbufBytes < s.inLen.toNat →
        CompletedWith t .configError false 0 0 ∧ SameOutside s t ∧ SameGrid s t ∧ SamePbuf s t) ∧
      (t.status.code = codeValue .configError →
        s.params.gridWords < s.width.toNat * s.height.toNat ∨
          (i = .embedA ∨ i = .embedB) ∧ s.params.pbufBytes < s.inLen.toNat)

/-- R223: every command, in every state, completes, with the code of the first check in R223's order that fails; and
acceptance always succeeds. -/
def Obligations.CheckOrder : Prop :=
  ∀ s : State,
    (∃ t, exec .embedA s = .next t ∧ t.status.busy = false ∧ t.status.done = true ∧
      t.status.code =
        if s.params.gridWords < s.N then 0x6
        else if s.params.pbufBytes < s.count then 0x6
        else if 16777215 < 8 * s.count then 0x1
        else if s.W < 6 ∨ s.H < 1 then 0x1
        else if (s.N : Int) - 6 < pixelsForBits (8 * s.count) then 0x1
        else 0x0) ∧
    (∃ t, exec .extractA s = .next t ∧ t.status.busy = false ∧ t.status.done = true ∧
      t.status.code =
        if s.params.gridWords < s.N then 0x6
        else if s.W < 6 ∨ s.H < 1 then 0x3
        else if (s.N : Int) - 6 < pixelsForBits (headerDecode s.readHeader) then 0x2
        else 0x0) ∧
    (∃ t, exec .embedB s = .next t ∧ t.status.busy = false ∧ t.status.done = true ∧
      t.status.code =
        if s.params.gridWords < s.N then 0x6 else if s.params.pbufBytes < s.count then 0x6 else 0x0) ∧
    (∃ t, exec .extractB s = .next t ∧ t.status.busy = false ∧ t.status.done = true ∧
      (s.params.gridWords < s.N → t.status.code = 0x6) ∧
      (s.N ≤ s.params.gridWords → s.params.Legal →
        t.status.code = if (0 : Byte) ∈ s.characters then 0x0 else 0x4)) ∧
    (∀ op, ∃ t, exec (.illegal op) s = .next t ∧ t.status.busy = false ∧ t.status.done = true ∧ t.status.code = 0x5) ∧
    (s.status.busy = false → ∀ v, ∃ t, transact (.regWrite 0 v) s = .next t ∧ t.status.busy = true ∧
      t.heldCommand = decodeWord v)

/-- R73, R164, R221: which command raises which code; none raises CHANNEL_SATURATION or a reserved code. -/
def Obligations.CodesByCommand : Prop :=
  ∀ (i : Instr) (s t : State), exec i s = .next t →
    t.status.code ≠ codeValue .channelSaturation ∧ t.status.code ≤ 0x6 ∧
    (t.status.code = codeValue .capacityExceeded → i = .embedA) ∧
    (t.status.code = codeValue .invalidLength → i = .extractA) ∧
    (t.status.code = codeValue .truncatedStream → i = .extractA) ∧
    (t.status.code = codeValue .missingTerminator → i = .extractB) ∧
    (t.status.code = codeValue .illegalCommand ↔ ∃ op, i = .illegal op)

/-- R222, R220, R225: a command that completes with a fatal code has written no memory and puts out nothing: TERM and
OUT_LEN are 0, and HDR too but for INVALID_LENGTH. -/
def Obligations.FatalCodesLeaveNoOutput : Prop :=
  ∀ (i : Instr) (s t : State) (c : Code), exec i s = .next t → t.status.code = codeValue c → codeFatal c = true →
    SameGrid s t ∧ SamePbuf s t ∧ SameOutside s t ∧ t.status.term = false ∧ t.outLen = 0 ∧
      (c ≠ .invalidLength → t.hdr = 0)

/-- R33, R58: the extracts and ILLEGAL write no GRID word, the embeds and ILLEGAL no PBUF byte, no command a GRID word at
index W*H or above, nor a PBUF byte at OUT_LEN or above; and no command writes an operand register. -/
def Obligations.WhatCommandsNeverWrite : Prop :=
  ∀ (i : Instr) (s : State), s.params.Legal → ∃ t, exec i s = .next t ∧ SameOutside s t ∧
    (isEmbed i = false → SameGrid s t) ∧
    (∀ j, s.N ≤ j → t.gridRead j = s.gridRead j) ∧
    (i ≠ .extractA → i ≠ .extractB → SamePbuf s t) ∧
    ∀ j, t.outLen.toNat ≤ j → t.pbufRead j = s.pbufRead j

/-! ### Variant A -/

/-- R152, R154: EMBED_A, when its checks pass, completes with OK, TERM = 0, OUT_LEN = 0 and HDR = 8*IN_LEN. It writes no
register of the host's and no PBUF byte; a GRID word that is neither a trailer pixel nor one of NT(0)..NT(2*IN_LEN - 1)
is unchanged, and of a written word only the four channel LSBs may change. -/
def Obligations.EmbedASucceeds : Prop :=
  ∀ s : State, ¬ s.embedTooBig → capOK (8 * s.count) s.W s.H →
    ∃ t, exec .embedA s = .next t ∧ CompletedWith t .ok false 0 (8 * s.count) ∧ SameOutside s t ∧ SamePbuf s t ∧
      (∀ i, (∀ j, j < 6 → pixelIndex s.W (trailerPixel s.W s.H j).1 (trailerPixel s.W s.H j).2 ≠ i) →
        (∀ q, q < 2 * s.count → pixelIndex s.W (nt s.W s.H q).1 (nt s.W s.H q).2 ≠ i) → t.gridRead i = s.gridRead i) ∧
      ∀ i, t.gridRead i &&& 0xFEFEFEFE = s.gridRead i &&& 0xFEFEFEFE

/-- R163, with R75 and R76: after EMBED_A succeeds, trailer pixel T_j carries header bits 4j..4j+3 and pixel NT(q)
payload bits 4q..4q+3, in the order A, R, G, B. -/
def Obligations.EmbedAParities : Prop :=
  ∀ s : State, ¬ s.embedTooBig → capOK (8 * s.count) s.W s.H →
    ∃ t, exec .embedA s = .next t ∧
      (∀ j, j < 6 → parPixel (t.pixelRead (trailerPixel s.W s.H j).1 (trailerPixel s.W s.H j).2) =
        ((headerBits (8 * s.count)).drop (4 * j)).take 4) ∧
      ∀ q, q < 2 * s.count → parPixel (t.pixelRead (nt s.W s.H q).1 (nt s.W s.H q).2) =
        ((bytesToBits (s.pbufBytes s.count)).drop (4 * q)).take 4

/-- R153: when EMBED_A raises an exception, GRID and PBUF are as at acceptance. -/
def Obligations.EmbedAIsAllOrNothing : Prop :=
  ∀ s : State, s.embedTooBig ∨ ¬ capOK (8 * s.count) s.W s.H →
    ∃ t, exec .embedA s = .next t ∧
      CompletedWith t (if s.embedTooBig then .configError else .capacityExceeded) false 0 0 ∧
      SameOutside s t ∧ SameGrid s t ∧ SamePbuf s t

/-- R162: the capacity boundary, of the predicate in bits and of the command in bytes. -/
def Obligations.CapacityBoundary : Prop :=
  (∀ W H : Nat, 6 ≤ W → 1 ≤ H → 4 * (W * H - 6) ≤ 16777215 →
    capOK (4 * (W * H - 6)) W H ∧ ¬ capOK (4 * (W * H - 6) + 1) W H) ∧
  ∀ s : State, 6 ≤ s.W → 1 ≤ s.H → 4 * (s.N - 6) ≤ 16777215 → ¬ s.embedTooBig →
    (s.count ≤ (s.N - 6) / 2 → ∃ t, exec .embedA s = .next t ∧ t.status.code = codeValue .ok) ∧
    ((s.N - 6) / 2 < s.count → ∃ t, exec .embedA s = .next t ∧ t.status.code = codeValue .capacityExceeded)

/-- R156, R157, R158, R160: EXTRACT_A, when its checks pass, completes with OK, TERM = 0, OUT_LEN = L div 8 and HDR = L;
PBUF[0..L div 8) becomes the bytes of the first L bits carried by NT(0)..NT(ceil(L/4) - 1), and every other PBUF byte,
all of GRID and every operand register stay. -/
def Obligations.ExtractASucceeds : Prop :=
  ∀ s : State, s.params.Legal → ¬ s.gridTooBig → 6 ≤ s.W → 1 ≤ s.H →
    pixelsForBits (headerDecode s.readHeader) ≤ s.N - 6 →
    ∃ t, exec .extractA s = .next t ∧
      CompletedWith t .ok false (headerDecode s.readHeader / 8) (headerDecode s.readHeader) ∧
      SameOutside s t ∧ SameGrid s t ∧
      (∀ j, j < headerDecode s.readHeader / 8 → t.pbufRead j =
        (bitsToBytes ((s.payloadBits (pixelsForBits (headerDecode s.readHeader))).take (headerDecode s.readHeader))).getD j 0) ∧
      (∀ j, headerDecode s.readHeader / 8 ≤ j → t.pbufRead j = s.pbufRead j) ∧
      headerDecode s.readHeader / 8 ≤ 2097151 ∧ headerDecode s.readHeader / 8 ≤ (s.N - 6) / 2

/-- R159, with the causes of R156: when EXTRACT_A raises an exception it leaves PBUF and GRID as they were and OUT_LEN 0,
and HDR is L only where a header was read. -/
def Obligations.ExtractAErrors : Prop :=
  ∀ s : State, ¬ (¬ s.gridTooBig ∧ 6 ≤ s.W ∧ 1 ≤ s.H ∧ pixelsForBits (headerDecode s.readHeader) ≤ s.N - 6) →
    ∃ t, exec .extractA s = .next t ∧ SameOutside s t ∧ SameGrid s t ∧ SamePbuf s t ∧
      (s.gridTooBig → CompletedWith t .configError false 0 0) ∧
      (¬ s.gridTooBig → s.W < 6 ∨ s.H < 1 → CompletedWith t .truncatedStream false 0 0) ∧
      (¬ s.gridTooBig → ¬ (s.W < 6 ∨ s.H < 1) →
        CompletedWith t .invalidLength false 0 (headerDecode s.readHeader))

/-- R165: two EXTRACT_A commands on one image give the same results, whatever the host does in between that leaves GRID,
WIDTH and HEIGHT alone. -/
def Obligations.ExtractAIsIdempotent : Prop :=
  ∀ s t s' : State, s.params.Legal → exec .extractA s = .next t → SameImage t s' →
    ∃ u, exec .extractA s' = .next u ∧ u.status = t.status ∧ u.hdr = t.hdr ∧ u.outLen = t.outLen ∧ SameGrid s u ∧
      ∀ j, j < t.outLen.toNat → u.pbufRead j = t.pbufRead j

/-- R161: the Variant A round trip, whatever the host does in between that leaves GRID, WIDTH and HEIGHT alone. -/
def Obligations.VariantARoundTrip : Prop :=
  ∀ s : State, s.params.Legal → 8 * s.count ≤ 16777215 → 6 ≤ s.W → 1 ≤ s.H → 2 * s.count ≤ s.N - 6 →
    s.N ≤ s.params.gridWords → s.count ≤ s.params.pbufBytes →
    ∃ t, exec .embedA s = .next t ∧ t.status.code = codeValue .ok ∧
      ∀ s', SameImage t s' → ∃ u, exec .extractA s' = .next u ∧
        CompletedWith u .ok false s.count (8 * s.count) ∧ ∀ j, j < s.count → u.pbufRead j = s.pbufRead j

/-! ### Variant B -/

/-- R189, with R182 to R188: EMBED_B, when its check passes, completes with OK and OUT_LEN = HDR = 0, and TERM = 1 exactly
when 3N ≥ 8(n + 1). If 3N > 8(n + 1), the pixels before p_t = 8(n + 1) div 3 are committed, pixel p_t exactly when
k = 8(n + 1) mod 3 is not 0, and no pixel after it; otherwise all N pixels are. A committed pixel keeps A and has each
slot's bit as its channel's LSB; no other GRID word, no PBUF byte and no operand register changes. -/
def Obligations.EmbedBResultShape : Prop :=
  ∀ s : State, ¬ s.embedTooBig →
    ∃ t, exec .embedB s = .next t ∧ CompletedWith t .ok (decide (8 * (s.count + 1) ≤ 3 * s.N)) 0 0 ∧
      SameOutside s t ∧ SamePbuf s t ∧
      (8 * (s.count + 1) < 3 * s.N →
        (s.count % 3 = 0 → 8 * (s.count + 1) % 3 = 2) ∧ (s.count % 3 = 1 → 8 * (s.count + 1) % 3 = 1) ∧
        (s.count % 3 = 2 → 8 * (s.count + 1) % 3 = 0) ∧
        (∀ p, p < 8 * (s.count + 1) / 3 → t.gridRead p = s.textPixel p) ∧
        t.gridRead (8 * (s.count + 1) / 3) =
          (if 8 * (s.count + 1) % 3 = 0 then s.gridRead (8 * (s.count + 1) / 3)
            else s.textPixel (8 * (s.count + 1) / 3)) ∧
        ∀ p, 8 * (s.count + 1) / 3 < p → t.gridRead p = s.gridRead p) ∧
      (3 * s.N ≤ 8 * (s.count + 1) →
        (∀ p, p < s.N → t.gridRead p = s.textPixel p) ∧ ∀ p, s.N ≤ p → t.gridRead p = s.gridRead p)

/-- R125, R182: the embeds change nothing of the image but channel LSBs, and EMBED_B no alpha channel. -/
def Obligations.EmbedsChangeOnlyLsbs : Prop :=
  ∀ (i : Instr) (s t : State), exec i s = .next t →
    (∀ p, t.gridRead p &&& 0xFEFEFEFE = s.gridRead p &&& 0xFEFEFEFE) ∧
    (i = .embedB → ∀ p, chan (t.gridRead p) .A = chan (s.gridRead p) .A)

/-- R193, R198, with R190 to R194: EXTRACT_B, when its check passes, completes with OK and TERM = 1 when some complete
group of eight slots spells 0, and otherwise with MISSING_TERMINATOR and TERM = 0. PBUF[0..OUT_LEN) becomes the
characters before that group, or all of them, and every other PBUF byte, all of GRID and every operand register stay. -/
def Obligations.ExtractBCompletes : Prop :=
  ∀ s : State, s.params.Legal → ¬ s.gridTooBig →
    ∃ t, exec .extractB s = .next t ∧
      CompletedWith t (if (0 : Byte) ∈ s.characters then .ok else .missingTerminator)
        (decide ((0 : Byte) ∈ s.characters)) s.text.length 0 ∧
      SameOutside s t ∧ SameGrid s t ∧ s.text.length ≤ 3 * s.N / 8 ∧ (0 : Byte) ∉ s.text ∧
      (∀ j, j < s.text.length → t.pbufRead j = s.text.getD j 0) ∧
      ∀ j, s.text.length ≤ j → t.pbufRead j = s.pbufRead j

/-- R197: two EXTRACT_B commands on one image give the same results, whatever the host does in between that leaves GRID,
WIDTH and HEIGHT alone. -/
def Obligations.ExtractBIsIdempotent : Prop :=
  ∀ s t s' : State, s.params.Legal → exec .extractB s = .next t → SameImage t s' →
    ∃ u, exec .extractB s' = .next u ∧ u.status = t.status ∧ u.outLen = t.outLen ∧ SameGrid s u ∧
      ∀ j, j < t.outLen.toNat → u.pbufRead j = t.pbufRead j

/-- R195: the Variant B round trip, whatever the host does in between that leaves GRID, WIDTH and HEIGHT alone. -/
def Obligations.VariantBRoundTrip : Prop :=
  ∀ s : State, s.params.Legal → (∀ j, j < s.count → s.pbufRead j ≠ 0) → 8 * (s.count + 1) ≤ 3 * s.N →
    s.N ≤ s.params.gridWords → s.count ≤ s.params.pbufBytes →
    ∃ t, exec .embedB s = .next t ∧ t.status.term = true ∧
      (∀ n, n < 8 * s.count + 8 → t.gridRead (n / 3) = s.textPixel (n / 3)) ∧
      ∀ s', SameImage t s' → ∃ u, exec .extractB s' = .next u ∧
        CompletedWith u .ok true s.count 0 ∧ ∀ j, j < s.count → u.pbufRead j = s.pbufRead j

/-- R196: a zero code inside the text truncates what is extracted. -/
def Obligations.TerminatorTruncation : Prop :=
  ∀ (s : State) (z : Nat), s.params.Legal → z < s.count → s.pbufRead z = 0 → (∀ j, j < z → s.pbufRead j ≠ 0) →
    8 * (z + 1) ≤ 3 * s.N → ¬ s.embedTooBig →
    ∃ t, exec .embedB s = .next t ∧
      ∀ s', SameImage t s' → ∃ u, exec .extractB s' = .next u ∧
        CompletedWith u .ok true z 0 ∧ ∀ j, j < z → u.pbufRead j = s.pbufRead j

/-! ### Whole-machine rules -/

/-- R108, R37, R109: the results of a command are a function of its inputs at acceptance; neither the engine's variables
nor anything else from before it takes part. -/
def Obligations.ResultIsAFunctionOfTheInputs : Prop :=
  ∀ (i : Instr) (s s' : State), s.params.Legal → SameInputs s s' →
    ∃ t t', exec i s = .next t ∧ exec i s' = .next t' ∧ SameResults t t'

/-- R27, R33, R58: a command's results depend on no GRID word at index W*H or above, and an extract's on neither IN_LEN
nor PBUF; an embed's on no PBUF byte at IN_LEN or above. -/
def Obligations.CommandsReadOnlyTheirOperands : Prop :=
  ∀ (i : Instr) (s s' : State), s.params.Legal → s'.params = s.params → s'.width = s.width → s'.height = s.height →
    (∀ p, p < s.N → s'.gridRead p = s.gridRead p) →
    (isEmbed i = true → s'.inLen = s.inLen ∧ ∀ j, j < s.count → s'.pbufRead j = s.pbufRead j) →
    ∃ t t', exec i s = .next t ∧ exec i s' = .next t' ∧
      t'.status = t.status ∧ t'.outLen = t.outLen ∧ t'.hdr = t.hdr ∧
      (∀ p, p < s.N → t'.gridRead p = t.gridRead p) ∧ ∀ j, j < t.outLen.toNat → t'.pbufRead j = t.pbufRead j

/-- The model's invariant (R5, R6, R24, R36, R39, R221, R222, R256, and the canonical form of memory, log entry 3) is
kept by every step. -/
def Obligations.EveryStepKeepsTheInvariant : Prop :=
  ∀ s t : State, Inv s → step s = .next t → Inv t

/-- The model's invariant holds after reset, for every size of GRID and PBUF the spec allows. -/
def Obligations.InvariantHoldsAtReset : Prop :=
  Inv State.reset ∧ ∀ p : Params, p.Legal → Inv { State.reset with params := p }

/-- R107, R260: a running command completes, in at most one more step than the schedule has turns, as long as the host
issues register transactions only up to its next `poll`, and no reset comes before it; the completion is that of the
command accepted, on the operands and memories it was accepted with. The model's choice: the bound, which counts the
turns of the schedule (log entry 4) and one step for the whole command (log entry 1). -/
def Obligations.EveryCommandCompletes : Prop :=
  ∀ s : State, s.status.busy = true → quietUntilPoll s.inputs = true →
    ∃ k u t, k ≤ s.schedule.length ∧ core.run k s = .next u ∧ core.run (k + 1) s = .next t ∧
      exec s.heldCommand { u with schedule := u.schedule.tail } = .next t ∧ SameInputs s u ∧ u.engine = s.engine ∧
      t.status.busy = false ∧ t.status.done = true

/-- R81, R107, R260: every `poll` ends, with a STATUS read that has BUSY = 0, after nothing but `m` STATUS reads that have
BUSY = 1. The model's choice: the bound of two steps more than the schedule has turns (log entries 4 and 1). -/
def Obligations.EveryPollEnds : Prop :=
  ∀ (s : State) (is : List Input), s.inputs = .poll :: is →
    ∃ k m t, k ≤ s.schedule.length + 2 ∧ core.run k s = .next t ∧ t.inputs = is ∧ t.status.busy = false ∧
      t.replies = .word (t.regRead 1) :: (List.replicate m (.word (s.regRead 1)) ++ s.replies) ∧
      (t.regRead 1).getLsbD 0 = false ∧ (m ≠ 0 → (s.regRead 1).getLsbD 0 = true)

/-- R258: the first STATUS read after an accepted CTRL write returns the running value or the new command's completion
value, whatever the schedule; and a CTRL write that is ignored leaves STATUS as the running command has it. The model's
choice: the bound of three steps, one of them the whole command (log entries 1 and 4). -/
def Obligations.FirstStatusReadIsNeverStale : Prop :=
  (∀ (s : State) (v : Word) (is : List Input), s.status.busy = false →
    s.inputs = .issue (.regWrite 0 v) :: .issue (.regRead 1) :: is →
    ∃ k t w, k ≤ 3 ∧ core.run k s = .next t ∧ t.inputs = is ∧ t.replies = .word w :: s.replies ∧
      (w = 0x00000001 ∨
        ∃ a u, exec (decodeWord v) a = .next u ∧ SameInputs s a ∧ w = u.regRead 1 ∧ u.status.busy = false ∧
          u.status.done = true)) ∧
  ∀ (s : State) (v : Word), s.status.busy = true → ∃ t, transact (.regWrite 0 v) s = .next t ∧ t.status = s.status

/-- R255, R256, R257: a host that touches GRID and PBUF only outside the stretch from a CTRL write to the `poll` after it
never reaches a fault, under every schedule. -/
def Obligations.DisciplinedHostsNeverFault : Prop :=
  ∀ s : State, disciplined s.status.busy s.inputs = true → ∀ k, SafeFor k s

/-- R80, R81, R255: a host program that starts commands only through the pseudo-instructions `embed.a`, `extract.a`,
`embed.b` and `extract.b` never reaches a fault. -/
def Obligations.PseudoCommandProgramsNeverFault : Prop :=
  ∀ (s : State) (p : List Line), s.status.busy = false → (∀ v, Line.wr .ctrl v ∉ p) → ∀ k, SafeFor k (s.withProgram p)

/-- R255, R256, R257: the discipline is an invariant. From every state whose inputs keep it, a step answers a next state
whose inputs keep it. -/
def Obligations.EveryStepKeepsTheDiscipline : Prop :=
  ∀ s : State, disciplined s.status.busy s.inputs = true →
    ∃ t, step s = .next t ∧ disciplined t.status.busy t.inputs = true
end

