-- ==== Sys2Proof/Laws/Datapath.lean ====
section
/-! SUPPORT. What the datapath functions of 41_bit_packing.md do (R120 to R131, R151, R155): one lemma each, cited by the
proofs about the commands. -/

namespace Sys2Proof.Machine

/-! ### Channels of a pixel word (R52) -/

@[simp] theorem chan_pix (a r g b : Byte) (c : Channel) :
    chan (pix a r g b) c = match c with | .A => a | .R => r | .G => g | .B => b := by
  cases c <;> refine BitVec.eq_of_getLsbD_eq fun i hi => ?_ <;>
    simp only [chan, pix, BitVec.getLsbD_extractLsb', BitVec.getLsbD_append, hi, decide_true, Bool.true_and] <;>
    grind

theorem pix_chan (P : Word) : pix (chan P .A) (chan P .R) (chan P .G) (chan P .B) = P := by
  refine BitVec.eq_of_getLsbD_eq fun i hi => ?_
  simp only [chan, pix, BitVec.getLsbD_extractLsb', BitVec.getLsbD_append]
  grind

/-- Two pixel words with the same four channels are the same. -/
theorem word_ext {P Q : Word} (h : ∀ c, chan P c = chan Q c) : P = Q := by
  rw [← pix_chan P, ← pix_chan Q]; simp [h]

/-! ### Parity and LSB writes (R124 to R128) -/

theorem parityWrite_eq : ∀ (v : Byte) (b : Bit), parityWrite v b = (v &&& 0xFE) ||| (BitVec.ofBool b).setWidth 8 := by
  decide +kernel

@[simp] theorem par_parityWrite : ∀ (v : Byte) (b : Bit), par (parityWrite v b) = b := by
  decide +kernel

theorem parityWrite_upper : ∀ (v : Byte) (b : Bit), parityWrite v b &&& 0xFE = v &&& 0xFE := by
  decide +kernel

theorem parityWritePixel_eq (P : Word) (b0 b1 b2 b3 : Bit) :
    parityWritePixel P b0 b1 b2 b3 =
      pix (parityWrite (chan P .A) b0) (parityWrite (chan P .R) b1) (parityWrite (chan P .G) b2)
        (parityWrite (chan P .B) b3) := by
  simp [parityWritePixel, withChan]

@[simp] theorem parPixel_parityWritePixel (P : Word) (b0 b1 b2 b3 : Bit) :
    parPixel (parityWritePixel P b0 b1 b2 b3) = [b0, b1, b2, b3] := by
  simp [parPixel, parityWritePixel_eq]

@[simp] theorem length_parPixel (P : Word) : (parPixel P).length = 4 := rfl

/-! ### Bit sequences and numbers (R120, R121, R151, R155) -/

theorem bitsToNat_append (p : Bits) (b : Bit) : bitsToNat (p ++ [b]) = 2 * bitsToNat p + b.toNat := by
  simp [bitsToNat]

theorem bitsToNat_cons (b : Bit) (p : Bits) : bitsToNat (b :: p) = b.toNat * 2 ^ p.length + bitsToNat p := by
  induction p using List.reverseRecOn with
  | nil => simp [bitsToNat]
  | append_singleton p c ih =>
    rw [← List.cons_append, bitsToNat_append, bitsToNat_append, ih]
    simp only [List.length_append, List.length_cons, List.length_nil]
    ring

theorem bitsToNat_lt (p : Bits) : bitsToNat p < 2 ^ p.length := by
  induction p with
  | nil => simp [bitsToNat]
  | cons b p ih =>
    rw [bitsToNat_cons, List.length_cons, pow_succ]
    have : b.toNat ≤ 1 := by cases b <;> simp
    nlinarith

/-- The big-endian bits of a number spell its residue. -/
theorem bitsToNat_bits (L n : Nat) : bitsToNat ((List.range n).map fun i => L.testBit (n - 1 - i)) = L % 2 ^ n := by
  induction n with
  | zero => simp [bitsToNat, Nat.mod_one]
  | succ n ih =>
    have h : ((fun i => L.testBit (n + 1 - 1 - i)) ∘ Nat.succ) = fun i => L.testBit (n - 1 - i) := by
      funext i; simp [show n - (i + 1) = n - 1 - i by omega]
    rw [List.range_succ_eq_map, List.map_cons, List.map_map, h, bitsToNat_cons, ih]
    simp only [List.length_map, List.length_range]
    rw [show n + 1 - 1 - 0 = n by omega, Nat.mod_pow_succ, Nat.testBit_eq_decide_div_mod_eq]
    rcases Nat.mod_two_eq_zero_or_one (L / 2 ^ n) with h | h <;> simp [h]
    ring

@[simp] theorem length_headerBits (L : Nat) : (headerBits L).length = 24 := by simp [headerBits]

theorem headerDecode_lt {h : Bits} (hl : h.length ≤ 24) : headerDecode h < 2 ^ 24 :=
  lt_of_lt_of_le (bitsToNat_lt h) (Nat.pow_le_pow_right (by decide) hl)

theorem headerDecode_headerBits {L : Nat} (h : L < 2 ^ 24) : headerDecode (headerBits L) = L := by
  have := bitsToNat_bits L 24
  rw [Nat.mod_eq_of_lt h] at this
  exact this

@[simp] theorem length_byteToBits (v : Byte) : (byteToBits v).length = 8 := by simp [byteToBits]

theorem length_bytesToBits (d : List Byte) : (bytesToBits d).length = 8 * d.length := by
  induction d with
  | nil => rfl
  | cons v d ih => simp [bytesToBits] at ih ⊢; omega

theorem bytesToBits_cons (v : Byte) (d : List Byte) : bytesToBits (v :: d) = byteToBits v ++ bytesToBits d := rfl

theorem byteToBits_eq (v : Byte) : byteToBits v =
    [v.getLsbD 7, v.getLsbD 6, v.getLsbD 5, v.getLsbD 4, v.getLsbD 3, v.getLsbD 2, v.getLsbD 1, v.getLsbD 0] := rfl

theorem byteToBits_value : ∀ v : Byte, BitVec.ofNat 8 (bitsToNat (byteToBits v)) = v := by
  decide +kernel

theorem byteToBits_spelled : ∀ b0 b1 b2 b3 b4 b5 b6 b7 : Bit,
    byteToBits (BitVec.ofNat 8 (bitsToNat [b0, b1, b2, b3, b4, b5, b6, b7])) = [b0, b1, b2, b3, b4, b5, b6, b7] := by
  decide +kernel

theorem bitsToBytes_byteToBits_append (v : Byte) (p : Bits) :
    bitsToBytes (byteToBits v ++ p) = v :: bitsToBytes p := by
  have := byteToBits_value v
  rw [byteToBits_eq] at *
  simp only [List.cons_append, List.nil_append, bitsToBytes, this]

/-- Unpacking what was packed gives the bytes back (the first law of R122). -/
theorem bitsToBytes_bytesToBits_eq (d : List Byte) : bitsToBytes (bytesToBits d) = d := by
  induction d with
  | nil => rfl
  | cons v d ih => rw [bytesToBits_cons, bitsToBytes_byteToBits_append, ih]

theorem length_bitsToBytes : ∀ p : Bits, (bitsToBytes p).length = p.length / 8
  | b0 :: b1 :: b2 :: b3 :: b4 :: b5 :: b6 :: b7 :: rest => by
    simp only [bitsToBytes, List.length_cons, length_bitsToBytes rest]; omega
  | [] | [_] | [_, _] | [_, _, _] | [_, _, _, _] | [_, _, _, _, _] | [_, _, _, _, _, _] | [_, _, _, _, _, _, _] => by simp [bitsToBytes]

/-- Packing what was unpacked gives the whole groups of eight back (the second law of R122). -/
theorem bytesToBits_bitsToBytes_eq : ∀ p : Bits, bytesToBits (bitsToBytes p) = p.take (8 * (p.length / 8))
  | b0 :: b1 :: b2 :: b3 :: b4 :: b5 :: b6 :: b7 :: rest => by
    rw [bitsToBytes, bytesToBits_cons, bytesToBits_bitsToBytes_eq rest, byteToBits_spelled]
    simp only [List.length_cons]
    rw [show 8 * ((rest.length + 1 + 1 + 1 + 1 + 1 + 1 + 1 + 1) / 8) = 8 * (rest.length / 8) + 8 by omega]
    rfl
  | [] | [_] | [_, _] | [_, _, _] | [_, _, _, _] | [_, _, _, _, _] | [_, _, _, _, _, _] | [_, _, _, _, _, _, _] => by simp [bitsToBytes, bytesToBits]

/-- The bit at index 8j + i of the packed bytes is bit 7 - i of byte j (R120's closed form). -/
theorem bytesToBits_getD (d : List Byte) (n : Nat) (h : n < 8 * d.length) :
    (bytesToBits d).getD n false = (d.getD (n / 8) 0).getLsbD (7 - n % 8) := by
  induction d generalizing n with
  | nil => simp at h
  | cons v d ih =>
    rw [bytesToBits_cons]
    by_cases hn : n < 8
    · rw [List.getD_append _ _ _ _ (by simpa using hn), show n / 8 = 0 by omega, show n % 8 = n by omega]
      simp [byteToBits, hn]
    · simp only [List.length_cons] at h
      rw [List.getD_append_right _ _ _ _ (by simp; omega), length_byteToBits, ih _ (by omega),
        show n / 8 = (n - 8) / 8 + 1 by omega, List.getD_cons_succ, show n % 8 = (n - 8) % 8 by omega]

/-! ### Variant B characters (R129 to R131) -/

/-- CharPack puts the first bit read in bit 0 (R130's closed form). -/
theorem charPack_eight : ∀ (e0 e1 e2 e3 e4 e5 e6 e7 : Bit) (i : Fin 8),
    (charPack [e0, e1, e2, e3, e4, e5, e6, e7]).getLsbD i.val = [e0, e1, e2, e3, e4, e5, e6, e7].getD i.val false := by
  decide +kernel

/-- Eight bits taken LSB first and packed again give the character back (R137). -/
theorem charPack_bits : ∀ c : Byte, charPack ((List.range 8).map fun i => c.getLsbD i) = c := by
  decide +kernel

theorem lsbClear_add_bit : ∀ (v : Byte) (b : Bit), lsbClear v + (BitVec.ofBool b).setWidth 8 = parityWrite v b := by
  decide +kernel

theorem lsbClear_eq_parityWrite : ∀ v : Byte, lsbClear v = parityWrite v false := by
  decide +kernel

/-! ### Sums, single bits and masks -/

theorem bitsToNat_sum (p : Bits) :
    bitsToNat p = ((List.range p.length).map fun i => (p.getD i false).toNat * 2 ^ (p.length - 1 - i)).sum := by
  induction p with
  | nil => simp [bitsToNat]
  | cons b p ih =>
    rw [bitsToNat_cons, ih, List.length_cons, List.range_succ_eq_map, List.map_cons, List.sum_cons, List.map_map]
    congr 2
    refine List.map_congr_left fun i _ => ?_
    show _ = _ * 2 ^ _
    rw [show p.length + 1 - 1 - Nat.succ i = p.length - 1 - i by omega]; rfl

theorem testBit_bitsToNat (p : Bits) (i : Nat) (hi : i < p.length) :
    (bitsToNat p).testBit (p.length - 1 - i) = p.getD i false := by
  induction p generalizing i with
  | nil => simp at hi
  | cons b p ih =>
    simp only [List.length_cons] at hi
    rw [bitsToNat_cons, Nat.mul_comm, Nat.testBit_two_pow_mul_add _ (bitsToNat_lt p)]
    cases i with
    | zero => simp; cases b <;> simp
    | succ i =>
      simp only [List.length_cons]
      rw [if_pos (by omega), show p.length + 1 - 1 - (i + 1) = p.length - 1 - i by omega, ih i (by omega)]; rfl

/-- Byte j of the unpacked bytes is spelled by the bits 8j .. 8j + 7 (R121's closed form). -/
theorem bitsToBytes_getD : ∀ (p : Bits) (j : Nat), j < p.length / 8 →
    (bitsToBytes p).getD j 0 = BitVec.ofNat 8 (bitsToNat ((List.range 8).map fun i => p.getD (8 * j + i) false))
  | b0 :: b1 :: b2 :: b3 :: b4 :: b5 :: b6 :: b7 :: rest, 0, _ => rfl
  | b0 :: b1 :: b2 :: b3 :: b4 :: b5 :: b6 :: b7 :: rest, j + 1, h => by
    simp only [List.length_cons] at h
    rw [bitsToBytes, List.getD_cons_succ, bitsToBytes_getD rest j (by omega)]
    congr 2
  | [], j, h | [_], j, h | [_, _], j, h | [_, _, _], j, h | [_, _, _, _], j, h | [_, _, _, _, _], j, h
  | [_, _, _, _, _, _], j, h | [_, _, _, _, _, _, _], j, h => by simp at h

theorem chan_and (P Q : Word) (c : Channel) : chan (P &&& Q) c = chan P c &&& chan Q c := by
  cases c <;> (refine BitVec.eq_of_getLsbD_eq fun i hi => ?_; simp [chan, hi])

theorem chan_or (P Q : Word) (c : Channel) : chan (P ||| Q) c = chan P c ||| chan Q c := by
  cases c <;> (refine BitVec.eq_of_getLsbD_eq fun i hi => ?_; simp [chan, hi])

theorem chan_lsbMask (c : Channel) : chan 0xFEFEFEFE c = 0xFE := by cases c <;> decide

/-- The four LSBs aside, a pixel with the same upper channel bits is the same. -/
theorem and_lsbMask_eq {P Q : Word} (h : ∀ c, chan P c &&& 0xFE = chan Q c &&& 0xFE) :
    P &&& 0xFEFEFEFE = Q &&& 0xFEFEFEFE :=
  word_ext fun c => by rw [chan_and, chan_and, chan_lsbMask, h]

theorem parityWritePixel_upper (P : Word) (b0 b1 b2 b3 : Bit) :
    parityWritePixel P b0 b1 b2 b3 &&& 0xFEFEFEFE = P &&& 0xFEFEFEFE := by
  refine and_lsbMask_eq fun c => ?_
  rw [parityWritePixel_eq, chan_pix]
  cases c <;> exact parityWrite_upper _ _

/-- Four bits of a sequence, one by one. -/
theorem drop_take_four (p : Bits) (n : Nat) (h : n + 4 ≤ p.length) :
    (p.drop n).take 4 = [p.getD n false, p.getD (n + 1) false, p.getD (n + 2) false, p.getD (n + 3) false] := by
  refine List.ext_getElem (by simp; omega) fun i h1 h2 => ?_
  simp only [List.length_cons, List.length_nil] at h2
  simp only [List.getElem_take, List.getElem_drop]
  rcases (show i = 0 ∨ i = 1 ∨ i = 2 ∨ i = 3 by omega) with rfl | rfl | rfl | rfl <;> simp [List.getD] <;>
    rw [List.getElem?_eq_getElem (by omega)] <;> rfl

/-- A sequence is its groups of four, in order. -/
theorem flatMap_fours (p : Bits) (n : Nat) (h : 4 * n ≤ p.length) :
    ((List.range n).flatMap fun j => (p.drop (4 * j)).take 4) = p.take (4 * n) := by
  induction n with
  | zero => simp
  | succ n ih =>
    rw [List.range_succ, List.flatMap_append, ih (by omega)]
    simp [Nat.mul_add, List.take_add]

end Sys2Proof.Machine
end

