-- ==== Sys2Proof/Laws/Encoding.lean ====
section
/-! SUPPORT. The OP field and the opcode map (R70 to R72). -/

namespace Sys2Proof

theorem decodeOp_spec : ∀ op, (decodeOp op).wellFormed = true ∧ encodeOp (decodeOp op) = op := by decide

theorem decodeOp_encodeOp (i : Instr) (h : i.wellFormed = true) : decodeOp (encodeOp i) = i := by
  cases i with
  | illegal op => revert op; decide
  | _ => rfl

@[simp] theorem opField_setWidth : ∀ op : BitVec 4, opField (op.setWidth 32) = op := by decide

@[simp] theorem opField_append (r : BitVec 28) (op : BitVec 4) : opField (r ++ op) = op := by
  refine BitVec.eq_of_getLsbD_eq fun i hi => ?_
  rw [opField, BitVec.getLsbD_extractLsb']
  have : (r ++ op).getLsbD i = op.getLsbD i := by rw [BitVec.getLsbD_append]; simp [hi]
  simp only [hi, Nat.zero_add, decide_true, Bool.true_and]
  exact this

@[simp] theorem decodeWord_opField (v : Word) : decodeWord ((opField v).setWidth 32) = decodeWord v := by
  rw [decodeWord, opField_setWidth, decodeWord]

end Sys2Proof
end

