-- ==== Sys2Proof/Laws/State.lean ====
section
/-! SUPPORT. One lemma per field per update (each true by computation), so that no proof unfolds a record update. -/

namespace Sys2Proof.Machine

@[simp] theorem State.moveTo_ctrl (s : State) (x y : Nat) : (s.moveTo x y).ctrl = s.ctrl := rfl
@[simp] theorem State.moveTo_status (s : State) (x y : Nat) : (s.moveTo x y).status = s.status := rfl
@[simp] theorem State.moveTo_width (s : State) (x y : Nat) : (s.moveTo x y).width = s.width := rfl
@[simp] theorem State.moveTo_height (s : State) (x y : Nat) : (s.moveTo x y).height = s.height := rfl
@[simp] theorem State.moveTo_inLen (s : State) (x y : Nat) : (s.moveTo x y).inLen = s.inLen := rfl
@[simp] theorem State.moveTo_outLen (s : State) (x y : Nat) : (s.moveTo x y).outLen = s.outLen := rfl
@[simp] theorem State.moveTo_hdr (s : State) (x y : Nat) : (s.moveTo x y).hdr = s.hdr := rfl
@[simp] theorem State.moveTo_grid (s : State) (x y : Nat) : (s.moveTo x y).grid = s.grid := rfl
@[simp] theorem State.moveTo_pbuf (s : State) (x y : Nat) : (s.moveTo x y).pbuf = s.pbuf := rfl
@[simp] theorem State.moveTo_params (s : State) (x y : Nat) : (s.moveTo x y).params = s.params := rfl
@[simp] theorem State.moveTo_resets (s : State) (x y : Nat) : (s.moveTo x y).resets = s.resets := rfl
@[simp] theorem State.moveTo_inputs (s : State) (x y : Nat) : (s.moveTo x y).inputs = s.inputs := rfl
@[simp] theorem State.moveTo_replies (s : State) (x y : Nat) : (s.moveTo x y).replies = s.replies := rfl
@[simp] theorem State.moveTo_schedule (s : State) (x y : Nat) : (s.moveTo x y).schedule = s.schedule := rfl
@[simp] theorem State.moveTo_W (s : State) (x y : Nat) : (s.moveTo x y).W = s.W := rfl
@[simp] theorem State.moveTo_H (s : State) (x y : Nat) : (s.moveTo x y).H = s.H := rfl
@[simp] theorem State.moveTo_N (s : State) (x y : Nat) : (s.moveTo x y).N = s.N := rfl
@[simp] theorem State.moveTo_count (s : State) (x y : Nat) : (s.moveTo x y).count = s.count := rfl
@[simp] theorem State.moveTo_gridRead (s : State) (x y : Nat) (j : Nat) : (s.moveTo x y).gridRead j = s.gridRead j := rfl
@[simp] theorem State.moveTo_pixelRead (s : State) (x y : Nat) (a b : Nat) : (s.moveTo x y).pixelRead a b = s.pixelRead a b := rfl
@[simp] theorem State.moveTo_pbufRead (s : State) (x y : Nat) (j : Nat) : (s.moveTo x y).pbufRead j = s.pbufRead j := rfl

@[simp] theorem State.startEmbedA_ctrl (s : State) : (s.startEmbedA).ctrl = s.ctrl := rfl
@[simp] theorem State.startEmbedA_status (s : State) : (s.startEmbedA).status = s.status := rfl
@[simp] theorem State.startEmbedA_width (s : State) : (s.startEmbedA).width = s.width := rfl
@[simp] theorem State.startEmbedA_height (s : State) : (s.startEmbedA).height = s.height := rfl
@[simp] theorem State.startEmbedA_inLen (s : State) : (s.startEmbedA).inLen = s.inLen := rfl
@[simp] theorem State.startEmbedA_outLen (s : State) : (s.startEmbedA).outLen = s.outLen := rfl
@[simp] theorem State.startEmbedA_hdr (s : State) : (s.startEmbedA).hdr = s.hdr := rfl
@[simp] theorem State.startEmbedA_grid (s : State) : (s.startEmbedA).grid = s.grid := rfl
@[simp] theorem State.startEmbedA_pbuf (s : State) : (s.startEmbedA).pbuf = s.pbuf := rfl
@[simp] theorem State.startEmbedA_params (s : State) : (s.startEmbedA).params = s.params := rfl
@[simp] theorem State.startEmbedA_resets (s : State) : (s.startEmbedA).resets = s.resets := rfl
@[simp] theorem State.startEmbedA_inputs (s : State) : (s.startEmbedA).inputs = s.inputs := rfl
@[simp] theorem State.startEmbedA_replies (s : State) : (s.startEmbedA).replies = s.replies := rfl
@[simp] theorem State.startEmbedA_schedule (s : State) : (s.startEmbedA).schedule = s.schedule := rfl
@[simp] theorem State.startEmbedA_W (s : State) : (s.startEmbedA).W = s.W := rfl
@[simp] theorem State.startEmbedA_H (s : State) : (s.startEmbedA).H = s.H := rfl
@[simp] theorem State.startEmbedA_N (s : State) : (s.startEmbedA).N = s.N := rfl
@[simp] theorem State.startEmbedA_count (s : State) : (s.startEmbedA).count = s.count := rfl
@[simp] theorem State.startEmbedA_gridRead (s : State) (j : Nat) : (s.startEmbedA).gridRead j = s.gridRead j := rfl
@[simp] theorem State.startEmbedA_pixelRead (s : State) (a b : Nat) : (s.startEmbedA).pixelRead a b = s.pixelRead a b := rfl
@[simp] theorem State.startEmbedA_pbufRead (s : State) (j : Nat) : (s.startEmbedA).pbufRead j = s.pbufRead j := rfl

@[simp] theorem State.startExtractA_ctrl (s : State) : (s.startExtractA).ctrl = s.ctrl := rfl
@[simp] theorem State.startExtractA_status (s : State) : (s.startExtractA).status = s.status := rfl
@[simp] theorem State.startExtractA_width (s : State) : (s.startExtractA).width = s.width := rfl
@[simp] theorem State.startExtractA_height (s : State) : (s.startExtractA).height = s.height := rfl
@[simp] theorem State.startExtractA_inLen (s : State) : (s.startExtractA).inLen = s.inLen := rfl
@[simp] theorem State.startExtractA_outLen (s : State) : (s.startExtractA).outLen = s.outLen := rfl
@[simp] theorem State.startExtractA_hdr (s : State) : (s.startExtractA).hdr = s.hdr := rfl
@[simp] theorem State.startExtractA_grid (s : State) : (s.startExtractA).grid = s.grid := rfl
@[simp] theorem State.startExtractA_pbuf (s : State) : (s.startExtractA).pbuf = s.pbuf := rfl
@[simp] theorem State.startExtractA_params (s : State) : (s.startExtractA).params = s.params := rfl
@[simp] theorem State.startExtractA_resets (s : State) : (s.startExtractA).resets = s.resets := rfl
@[simp] theorem State.startExtractA_inputs (s : State) : (s.startExtractA).inputs = s.inputs := rfl
@[simp] theorem State.startExtractA_replies (s : State) : (s.startExtractA).replies = s.replies := rfl
@[simp] theorem State.startExtractA_schedule (s : State) : (s.startExtractA).schedule = s.schedule := rfl
@[simp] theorem State.startExtractA_W (s : State) : (s.startExtractA).W = s.W := rfl
@[simp] theorem State.startExtractA_H (s : State) : (s.startExtractA).H = s.H := rfl
@[simp] theorem State.startExtractA_N (s : State) : (s.startExtractA).N = s.N := rfl
@[simp] theorem State.startExtractA_count (s : State) : (s.startExtractA).count = s.count := rfl
@[simp] theorem State.startExtractA_gridRead (s : State) (j : Nat) : (s.startExtractA).gridRead j = s.gridRead j := rfl
@[simp] theorem State.startExtractA_pixelRead (s : State) (a b : Nat) : (s.startExtractA).pixelRead a b = s.pixelRead a b := rfl
@[simp] theorem State.startExtractA_pbufRead (s : State) (j : Nat) : (s.startExtractA).pbufRead j = s.pbufRead j := rfl

@[simp] theorem State.startEmbedB_ctrl (s : State) : (s.startEmbedB).ctrl = s.ctrl := rfl
@[simp] theorem State.startEmbedB_status (s : State) : (s.startEmbedB).status = s.status := rfl
@[simp] theorem State.startEmbedB_width (s : State) : (s.startEmbedB).width = s.width := rfl
@[simp] theorem State.startEmbedB_height (s : State) : (s.startEmbedB).height = s.height := rfl
@[simp] theorem State.startEmbedB_inLen (s : State) : (s.startEmbedB).inLen = s.inLen := rfl
@[simp] theorem State.startEmbedB_outLen (s : State) : (s.startEmbedB).outLen = s.outLen := rfl
@[simp] theorem State.startEmbedB_hdr (s : State) : (s.startEmbedB).hdr = s.hdr := rfl
@[simp] theorem State.startEmbedB_grid (s : State) : (s.startEmbedB).grid = s.grid := rfl
@[simp] theorem State.startEmbedB_pbuf (s : State) : (s.startEmbedB).pbuf = s.pbuf := rfl
@[simp] theorem State.startEmbedB_params (s : State) : (s.startEmbedB).params = s.params := rfl
@[simp] theorem State.startEmbedB_resets (s : State) : (s.startEmbedB).resets = s.resets := rfl
@[simp] theorem State.startEmbedB_inputs (s : State) : (s.startEmbedB).inputs = s.inputs := rfl
@[simp] theorem State.startEmbedB_replies (s : State) : (s.startEmbedB).replies = s.replies := rfl
@[simp] theorem State.startEmbedB_schedule (s : State) : (s.startEmbedB).schedule = s.schedule := rfl
@[simp] theorem State.startEmbedB_W (s : State) : (s.startEmbedB).W = s.W := rfl
@[simp] theorem State.startEmbedB_H (s : State) : (s.startEmbedB).H = s.H := rfl
@[simp] theorem State.startEmbedB_N (s : State) : (s.startEmbedB).N = s.N := rfl
@[simp] theorem State.startEmbedB_count (s : State) : (s.startEmbedB).count = s.count := rfl
@[simp] theorem State.startEmbedB_gridRead (s : State) (j : Nat) : (s.startEmbedB).gridRead j = s.gridRead j := rfl
@[simp] theorem State.startEmbedB_pixelRead (s : State) (a b : Nat) : (s.startEmbedB).pixelRead a b = s.pixelRead a b := rfl
@[simp] theorem State.startEmbedB_pbufRead (s : State) (j : Nat) : (s.startEmbedB).pbufRead j = s.pbufRead j := rfl

@[simp] theorem State.startExtractB_ctrl (s : State) : (s.startExtractB).ctrl = s.ctrl := rfl
@[simp] theorem State.startExtractB_status (s : State) : (s.startExtractB).status = s.status := rfl
@[simp] theorem State.startExtractB_width (s : State) : (s.startExtractB).width = s.width := rfl
@[simp] theorem State.startExtractB_height (s : State) : (s.startExtractB).height = s.height := rfl
@[simp] theorem State.startExtractB_inLen (s : State) : (s.startExtractB).inLen = s.inLen := rfl
@[simp] theorem State.startExtractB_outLen (s : State) : (s.startExtractB).outLen = s.outLen := rfl
@[simp] theorem State.startExtractB_hdr (s : State) : (s.startExtractB).hdr = s.hdr := rfl
@[simp] theorem State.startExtractB_grid (s : State) : (s.startExtractB).grid = s.grid := rfl
@[simp] theorem State.startExtractB_pbuf (s : State) : (s.startExtractB).pbuf = s.pbuf := rfl
@[simp] theorem State.startExtractB_params (s : State) : (s.startExtractB).params = s.params := rfl
@[simp] theorem State.startExtractB_resets (s : State) : (s.startExtractB).resets = s.resets := rfl
@[simp] theorem State.startExtractB_inputs (s : State) : (s.startExtractB).inputs = s.inputs := rfl
@[simp] theorem State.startExtractB_replies (s : State) : (s.startExtractB).replies = s.replies := rfl
@[simp] theorem State.startExtractB_schedule (s : State) : (s.startExtractB).schedule = s.schedule := rfl
@[simp] theorem State.startExtractB_W (s : State) : (s.startExtractB).W = s.W := rfl
@[simp] theorem State.startExtractB_H (s : State) : (s.startExtractB).H = s.H := rfl
@[simp] theorem State.startExtractB_N (s : State) : (s.startExtractB).N = s.N := rfl
@[simp] theorem State.startExtractB_count (s : State) : (s.startExtractB).count = s.count := rfl
@[simp] theorem State.startExtractB_gridRead (s : State) (j : Nat) : (s.startExtractB).gridRead j = s.gridRead j := rfl
@[simp] theorem State.startExtractB_pixelRead (s : State) (a b : Nat) : (s.startExtractB).pixelRead a b = s.pixelRead a b := rfl
@[simp] theorem State.startExtractB_pbufRead (s : State) (j : Nat) : (s.startExtractB).pbufRead j = s.pbufRead j := rfl

@[simp] theorem State.loadWorking_ctrl (s : State) (P : Word) : (s.loadWorking P).ctrl = s.ctrl := rfl
@[simp] theorem State.loadWorking_status (s : State) (P : Word) : (s.loadWorking P).status = s.status := rfl
@[simp] theorem State.loadWorking_width (s : State) (P : Word) : (s.loadWorking P).width = s.width := rfl
@[simp] theorem State.loadWorking_height (s : State) (P : Word) : (s.loadWorking P).height = s.height := rfl
@[simp] theorem State.loadWorking_inLen (s : State) (P : Word) : (s.loadWorking P).inLen = s.inLen := rfl
@[simp] theorem State.loadWorking_outLen (s : State) (P : Word) : (s.loadWorking P).outLen = s.outLen := rfl
@[simp] theorem State.loadWorking_hdr (s : State) (P : Word) : (s.loadWorking P).hdr = s.hdr := rfl
@[simp] theorem State.loadWorking_grid (s : State) (P : Word) : (s.loadWorking P).grid = s.grid := rfl
@[simp] theorem State.loadWorking_pbuf (s : State) (P : Word) : (s.loadWorking P).pbuf = s.pbuf := rfl
@[simp] theorem State.loadWorking_params (s : State) (P : Word) : (s.loadWorking P).params = s.params := rfl
@[simp] theorem State.loadWorking_resets (s : State) (P : Word) : (s.loadWorking P).resets = s.resets := rfl
@[simp] theorem State.loadWorking_inputs (s : State) (P : Word) : (s.loadWorking P).inputs = s.inputs := rfl
@[simp] theorem State.loadWorking_replies (s : State) (P : Word) : (s.loadWorking P).replies = s.replies := rfl
@[simp] theorem State.loadWorking_schedule (s : State) (P : Word) : (s.loadWorking P).schedule = s.schedule := rfl
@[simp] theorem State.loadWorking_W (s : State) (P : Word) : (s.loadWorking P).W = s.W := rfl
@[simp] theorem State.loadWorking_H (s : State) (P : Word) : (s.loadWorking P).H = s.H := rfl
@[simp] theorem State.loadWorking_N (s : State) (P : Word) : (s.loadWorking P).N = s.N := rfl
@[simp] theorem State.loadWorking_count (s : State) (P : Word) : (s.loadWorking P).count = s.count := rfl
@[simp] theorem State.loadWorking_gridRead (s : State) (P : Word) (j : Nat) : (s.loadWorking P).gridRead j = s.gridRead j := rfl
@[simp] theorem State.loadWorking_pixelRead (s : State) (P : Word) (a b : Nat) : (s.loadWorking P).pixelRead a b = s.pixelRead a b := rfl
@[simp] theorem State.loadWorking_pbufRead (s : State) (P : Word) (j : Nat) : (s.loadWorking P).pbufRead j = s.pbufRead j := rfl

@[simp] theorem State.loadChar_ctrl (s : State) : (s.loadChar).ctrl = s.ctrl := rfl
@[simp] theorem State.loadChar_status (s : State) : (s.loadChar).status = s.status := rfl
@[simp] theorem State.loadChar_width (s : State) : (s.loadChar).width = s.width := rfl
@[simp] theorem State.loadChar_height (s : State) : (s.loadChar).height = s.height := rfl
@[simp] theorem State.loadChar_inLen (s : State) : (s.loadChar).inLen = s.inLen := rfl
@[simp] theorem State.loadChar_outLen (s : State) : (s.loadChar).outLen = s.outLen := rfl
@[simp] theorem State.loadChar_hdr (s : State) : (s.loadChar).hdr = s.hdr := rfl
@[simp] theorem State.loadChar_grid (s : State) : (s.loadChar).grid = s.grid := rfl
@[simp] theorem State.loadChar_pbuf (s : State) : (s.loadChar).pbuf = s.pbuf := rfl
@[simp] theorem State.loadChar_params (s : State) : (s.loadChar).params = s.params := rfl
@[simp] theorem State.loadChar_resets (s : State) : (s.loadChar).resets = s.resets := rfl
@[simp] theorem State.loadChar_inputs (s : State) : (s.loadChar).inputs = s.inputs := rfl
@[simp] theorem State.loadChar_replies (s : State) : (s.loadChar).replies = s.replies := rfl
@[simp] theorem State.loadChar_schedule (s : State) : (s.loadChar).schedule = s.schedule := rfl
@[simp] theorem State.loadChar_W (s : State) : (s.loadChar).W = s.W := rfl
@[simp] theorem State.loadChar_H (s : State) : (s.loadChar).H = s.H := rfl
@[simp] theorem State.loadChar_N (s : State) : (s.loadChar).N = s.N := rfl
@[simp] theorem State.loadChar_count (s : State) : (s.loadChar).count = s.count := rfl
@[simp] theorem State.loadChar_gridRead (s : State) (j : Nat) : (s.loadChar).gridRead j = s.gridRead j := rfl
@[simp] theorem State.loadChar_pixelRead (s : State) (a b : Nat) : (s.loadChar).pixelRead a b = s.pixelRead a b := rfl
@[simp] theorem State.loadChar_pbufRead (s : State) (j : Nat) : (s.loadChar).pbufRead j = s.pbufRead j := rfl

@[simp] theorem State.dropBit_ctrl (s : State) : (s.dropBit).ctrl = s.ctrl := rfl
@[simp] theorem State.dropBit_status (s : State) : (s.dropBit).status = s.status := rfl
@[simp] theorem State.dropBit_width (s : State) : (s.dropBit).width = s.width := rfl
@[simp] theorem State.dropBit_height (s : State) : (s.dropBit).height = s.height := rfl
@[simp] theorem State.dropBit_inLen (s : State) : (s.dropBit).inLen = s.inLen := rfl
@[simp] theorem State.dropBit_outLen (s : State) : (s.dropBit).outLen = s.outLen := rfl
@[simp] theorem State.dropBit_hdr (s : State) : (s.dropBit).hdr = s.hdr := rfl
@[simp] theorem State.dropBit_grid (s : State) : (s.dropBit).grid = s.grid := rfl
@[simp] theorem State.dropBit_pbuf (s : State) : (s.dropBit).pbuf = s.pbuf := rfl
@[simp] theorem State.dropBit_params (s : State) : (s.dropBit).params = s.params := rfl
@[simp] theorem State.dropBit_resets (s : State) : (s.dropBit).resets = s.resets := rfl
@[simp] theorem State.dropBit_inputs (s : State) : (s.dropBit).inputs = s.inputs := rfl
@[simp] theorem State.dropBit_replies (s : State) : (s.dropBit).replies = s.replies := rfl
@[simp] theorem State.dropBit_schedule (s : State) : (s.dropBit).schedule = s.schedule := rfl
@[simp] theorem State.dropBit_W (s : State) : (s.dropBit).W = s.W := rfl
@[simp] theorem State.dropBit_H (s : State) : (s.dropBit).H = s.H := rfl
@[simp] theorem State.dropBit_N (s : State) : (s.dropBit).N = s.N := rfl
@[simp] theorem State.dropBit_count (s : State) : (s.dropBit).count = s.count := rfl
@[simp] theorem State.dropBit_gridRead (s : State) (j : Nat) : (s.dropBit).gridRead j = s.gridRead j := rfl
@[simp] theorem State.dropBit_pixelRead (s : State) (a b : Nat) : (s.dropBit).pixelRead a b = s.pixelRead a b := rfl
@[simp] theorem State.dropBit_pbufRead (s : State) (j : Nat) : (s.dropBit).pbufRead j = s.pbufRead j := rfl

@[simp] theorem State.endSlot_ctrl (s : State) : (s.endSlot).ctrl = s.ctrl := rfl
@[simp] theorem State.endSlot_status (s : State) : (s.endSlot).status = s.status := rfl
@[simp] theorem State.endSlot_width (s : State) : (s.endSlot).width = s.width := rfl
@[simp] theorem State.endSlot_height (s : State) : (s.endSlot).height = s.height := rfl
@[simp] theorem State.endSlot_inLen (s : State) : (s.endSlot).inLen = s.inLen := rfl
@[simp] theorem State.endSlot_outLen (s : State) : (s.endSlot).outLen = s.outLen := rfl
@[simp] theorem State.endSlot_hdr (s : State) : (s.endSlot).hdr = s.hdr := rfl
@[simp] theorem State.endSlot_grid (s : State) : (s.endSlot).grid = s.grid := rfl
@[simp] theorem State.endSlot_pbuf (s : State) : (s.endSlot).pbuf = s.pbuf := rfl
@[simp] theorem State.endSlot_params (s : State) : (s.endSlot).params = s.params := rfl
@[simp] theorem State.endSlot_resets (s : State) : (s.endSlot).resets = s.resets := rfl
@[simp] theorem State.endSlot_inputs (s : State) : (s.endSlot).inputs = s.inputs := rfl
@[simp] theorem State.endSlot_replies (s : State) : (s.endSlot).replies = s.replies := rfl
@[simp] theorem State.endSlot_schedule (s : State) : (s.endSlot).schedule = s.schedule := rfl
@[simp] theorem State.endSlot_W (s : State) : (s.endSlot).W = s.W := rfl
@[simp] theorem State.endSlot_H (s : State) : (s.endSlot).H = s.H := rfl
@[simp] theorem State.endSlot_N (s : State) : (s.endSlot).N = s.N := rfl
@[simp] theorem State.endSlot_count (s : State) : (s.endSlot).count = s.count := rfl
@[simp] theorem State.endSlot_gridRead (s : State) (j : Nat) : (s.endSlot).gridRead j = s.gridRead j := rfl
@[simp] theorem State.endSlot_pixelRead (s : State) (a b : Nat) : (s.endSlot).pixelRead a b = s.pixelRead a b := rfl
@[simp] theorem State.endSlot_pbufRead (s : State) (j : Nat) : (s.endSlot).pbufRead j = s.pbufRead j := rfl

@[simp] theorem State.readSlot_ctrl (s : State) (P : Word) (k : Nat) : (s.readSlot P k).ctrl = s.ctrl := rfl
@[simp] theorem State.readSlot_status (s : State) (P : Word) (k : Nat) : (s.readSlot P k).status = s.status := rfl
@[simp] theorem State.readSlot_width (s : State) (P : Word) (k : Nat) : (s.readSlot P k).width = s.width := rfl
@[simp] theorem State.readSlot_height (s : State) (P : Word) (k : Nat) : (s.readSlot P k).height = s.height := rfl
@[simp] theorem State.readSlot_inLen (s : State) (P : Word) (k : Nat) : (s.readSlot P k).inLen = s.inLen := rfl
@[simp] theorem State.readSlot_outLen (s : State) (P : Word) (k : Nat) : (s.readSlot P k).outLen = s.outLen := rfl
@[simp] theorem State.readSlot_hdr (s : State) (P : Word) (k : Nat) : (s.readSlot P k).hdr = s.hdr := rfl
@[simp] theorem State.readSlot_grid (s : State) (P : Word) (k : Nat) : (s.readSlot P k).grid = s.grid := rfl
@[simp] theorem State.readSlot_pbuf (s : State) (P : Word) (k : Nat) : (s.readSlot P k).pbuf = s.pbuf := rfl
@[simp] theorem State.readSlot_params (s : State) (P : Word) (k : Nat) : (s.readSlot P k).params = s.params := rfl
@[simp] theorem State.readSlot_resets (s : State) (P : Word) (k : Nat) : (s.readSlot P k).resets = s.resets := rfl
@[simp] theorem State.readSlot_inputs (s : State) (P : Word) (k : Nat) : (s.readSlot P k).inputs = s.inputs := rfl
@[simp] theorem State.readSlot_replies (s : State) (P : Word) (k : Nat) : (s.readSlot P k).replies = s.replies := rfl
@[simp] theorem State.readSlot_schedule (s : State) (P : Word) (k : Nat) : (s.readSlot P k).schedule = s.schedule := rfl
@[simp] theorem State.readSlot_W (s : State) (P : Word) (k : Nat) : (s.readSlot P k).W = s.W := rfl
@[simp] theorem State.readSlot_H (s : State) (P : Word) (k : Nat) : (s.readSlot P k).H = s.H := rfl
@[simp] theorem State.readSlot_N (s : State) (P : Word) (k : Nat) : (s.readSlot P k).N = s.N := rfl
@[simp] theorem State.readSlot_count (s : State) (P : Word) (k : Nat) : (s.readSlot P k).count = s.count := rfl
@[simp] theorem State.readSlot_gridRead (s : State) (P : Word) (k : Nat) (j : Nat) : (s.readSlot P k).gridRead j = s.gridRead j := rfl
@[simp] theorem State.readSlot_pixelRead (s : State) (P : Word) (k : Nat) (a b : Nat) : (s.readSlot P k).pixelRead a b = s.pixelRead a b := rfl
@[simp] theorem State.readSlot_pbufRead (s : State) (P : Word) (k : Nat) (j : Nat) : (s.readSlot P k).pbufRead j = s.pbufRead j := rfl

@[simp] theorem State.addToChannel_ctrl (s : State) (k : Nat) (v : Byte) : (s.addToChannel k v).ctrl = s.ctrl := by unfold State.addToChannel; split <;> (try split) <;> rfl
@[simp] theorem State.addToChannel_status (s : State) (k : Nat) (v : Byte) : (s.addToChannel k v).status = s.status := by unfold State.addToChannel; split <;> (try split) <;> rfl
@[simp] theorem State.addToChannel_width (s : State) (k : Nat) (v : Byte) : (s.addToChannel k v).width = s.width := by unfold State.addToChannel; split <;> (try split) <;> rfl
@[simp] theorem State.addToChannel_height (s : State) (k : Nat) (v : Byte) : (s.addToChannel k v).height = s.height := by unfold State.addToChannel; split <;> (try split) <;> rfl
@[simp] theorem State.addToChannel_inLen (s : State) (k : Nat) (v : Byte) : (s.addToChannel k v).inLen = s.inLen := by unfold State.addToChannel; split <;> (try split) <;> rfl
@[simp] theorem State.addToChannel_outLen (s : State) (k : Nat) (v : Byte) : (s.addToChannel k v).outLen = s.outLen := by unfold State.addToChannel; split <;> (try split) <;> rfl
@[simp] theorem State.addToChannel_hdr (s : State) (k : Nat) (v : Byte) : (s.addToChannel k v).hdr = s.hdr := by unfold State.addToChannel; split <;> (try split) <;> rfl
@[simp] theorem State.addToChannel_grid (s : State) (k : Nat) (v : Byte) : (s.addToChannel k v).grid = s.grid := by unfold State.addToChannel; split <;> (try split) <;> rfl
@[simp] theorem State.addToChannel_pbuf (s : State) (k : Nat) (v : Byte) : (s.addToChannel k v).pbuf = s.pbuf := by unfold State.addToChannel; split <;> (try split) <;> rfl
@[simp] theorem State.addToChannel_params (s : State) (k : Nat) (v : Byte) : (s.addToChannel k v).params = s.params := by unfold State.addToChannel; split <;> (try split) <;> rfl
@[simp] theorem State.addToChannel_resets (s : State) (k : Nat) (v : Byte) : (s.addToChannel k v).resets = s.resets := by unfold State.addToChannel; split <;> (try split) <;> rfl
@[simp] theorem State.addToChannel_inputs (s : State) (k : Nat) (v : Byte) : (s.addToChannel k v).inputs = s.inputs := by unfold State.addToChannel; split <;> (try split) <;> rfl
@[simp] theorem State.addToChannel_replies (s : State) (k : Nat) (v : Byte) : (s.addToChannel k v).replies = s.replies := by unfold State.addToChannel; split <;> (try split) <;> rfl
@[simp] theorem State.addToChannel_schedule (s : State) (k : Nat) (v : Byte) : (s.addToChannel k v).schedule = s.schedule := by unfold State.addToChannel; split <;> (try split) <;> rfl
@[simp] theorem State.addToChannel_W (s : State) (k : Nat) (v : Byte) : (s.addToChannel k v).W = s.W := by simp [State.W]
@[simp] theorem State.addToChannel_H (s : State) (k : Nat) (v : Byte) : (s.addToChannel k v).H = s.H := by simp [State.H]
@[simp] theorem State.addToChannel_N (s : State) (k : Nat) (v : Byte) : (s.addToChannel k v).N = s.N := by simp [State.N]
@[simp] theorem State.addToChannel_count (s : State) (k : Nat) (v : Byte) : (s.addToChannel k v).count = s.count := by simp [State.count]
@[simp] theorem State.addToChannel_gridRead (s : State) (k : Nat) (v : Byte) (j : Nat) : (s.addToChannel k v).gridRead j = s.gridRead j := by simp [State.gridRead, State.gridCell]
@[simp] theorem State.addToChannel_pixelRead (s : State) (k : Nat) (v : Byte) (a b : Nat) : (s.addToChannel k v).pixelRead a b = s.pixelRead a b := by simp [State.pixelRead]
@[simp] theorem State.addToChannel_pbufRead (s : State) (k : Nat) (v : Byte) (j : Nat) : (s.addToChannel k v).pbufRead j = s.pbufRead j := by simp [State.pbufRead, State.pbufCell]

@[simp] theorem State.writeSlot_ctrl (s : State) (k : Nat) : (s.writeSlot k).ctrl = s.ctrl := by unfold State.writeSlot; split <;> simp
@[simp] theorem State.writeSlot_status (s : State) (k : Nat) : (s.writeSlot k).status = s.status := by unfold State.writeSlot; split <;> simp
@[simp] theorem State.writeSlot_width (s : State) (k : Nat) : (s.writeSlot k).width = s.width := by unfold State.writeSlot; split <;> simp
@[simp] theorem State.writeSlot_height (s : State) (k : Nat) : (s.writeSlot k).height = s.height := by unfold State.writeSlot; split <;> simp
@[simp] theorem State.writeSlot_inLen (s : State) (k : Nat) : (s.writeSlot k).inLen = s.inLen := by unfold State.writeSlot; split <;> simp
@[simp] theorem State.writeSlot_outLen (s : State) (k : Nat) : (s.writeSlot k).outLen = s.outLen := by unfold State.writeSlot; split <;> simp
@[simp] theorem State.writeSlot_hdr (s : State) (k : Nat) : (s.writeSlot k).hdr = s.hdr := by unfold State.writeSlot; split <;> simp
@[simp] theorem State.writeSlot_grid (s : State) (k : Nat) : (s.writeSlot k).grid = s.grid := by unfold State.writeSlot; split <;> simp
@[simp] theorem State.writeSlot_pbuf (s : State) (k : Nat) : (s.writeSlot k).pbuf = s.pbuf := by unfold State.writeSlot; split <;> simp
@[simp] theorem State.writeSlot_params (s : State) (k : Nat) : (s.writeSlot k).params = s.params := by unfold State.writeSlot; split <;> simp
@[simp] theorem State.writeSlot_resets (s : State) (k : Nat) : (s.writeSlot k).resets = s.resets := by unfold State.writeSlot; split <;> simp
@[simp] theorem State.writeSlot_inputs (s : State) (k : Nat) : (s.writeSlot k).inputs = s.inputs := by unfold State.writeSlot; split <;> simp
@[simp] theorem State.writeSlot_replies (s : State) (k : Nat) : (s.writeSlot k).replies = s.replies := by unfold State.writeSlot; split <;> simp
@[simp] theorem State.writeSlot_schedule (s : State) (k : Nat) : (s.writeSlot k).schedule = s.schedule := by unfold State.writeSlot; split <;> simp
@[simp] theorem State.writeSlot_W (s : State) (k : Nat) : (s.writeSlot k).W = s.W := by simp [State.W]
@[simp] theorem State.writeSlot_H (s : State) (k : Nat) : (s.writeSlot k).H = s.H := by simp [State.H]
@[simp] theorem State.writeSlot_N (s : State) (k : Nat) : (s.writeSlot k).N = s.N := by simp [State.N]
@[simp] theorem State.writeSlot_count (s : State) (k : Nat) : (s.writeSlot k).count = s.count := by simp [State.count]
@[simp] theorem State.writeSlot_gridRead (s : State) (k : Nat) (j : Nat) : (s.writeSlot k).gridRead j = s.gridRead j := by simp [State.gridRead, State.gridCell]
@[simp] theorem State.writeSlot_pixelRead (s : State) (k : Nat) (a b : Nat) : (s.writeSlot k).pixelRead a b = s.pixelRead a b := by simp [State.pixelRead]
@[simp] theorem State.writeSlot_pbufRead (s : State) (k : Nat) (j : Nat) : (s.writeSlot k).pbufRead j = s.pbufRead j := by simp [State.pbufRead, State.pbufCell]

@[simp] theorem State.gridWrite_ctrl (s : State) (i : Nat) (v : Word) : (s.gridWrite i v).ctrl = s.ctrl := by unfold State.gridWrite; split <;> rfl
@[simp] theorem State.gridWrite_status (s : State) (i : Nat) (v : Word) : (s.gridWrite i v).status = s.status := by unfold State.gridWrite; split <;> rfl
@[simp] theorem State.gridWrite_width (s : State) (i : Nat) (v : Word) : (s.gridWrite i v).width = s.width := by unfold State.gridWrite; split <;> rfl
@[simp] theorem State.gridWrite_height (s : State) (i : Nat) (v : Word) : (s.gridWrite i v).height = s.height := by unfold State.gridWrite; split <;> rfl
@[simp] theorem State.gridWrite_inLen (s : State) (i : Nat) (v : Word) : (s.gridWrite i v).inLen = s.inLen := by unfold State.gridWrite; split <;> rfl
@[simp] theorem State.gridWrite_outLen (s : State) (i : Nat) (v : Word) : (s.gridWrite i v).outLen = s.outLen := by unfold State.gridWrite; split <;> rfl
@[simp] theorem State.gridWrite_hdr (s : State) (i : Nat) (v : Word) : (s.gridWrite i v).hdr = s.hdr := by unfold State.gridWrite; split <;> rfl
@[simp] theorem State.gridWrite_pbuf (s : State) (i : Nat) (v : Word) : (s.gridWrite i v).pbuf = s.pbuf := by unfold State.gridWrite; split <;> rfl
@[simp] theorem State.gridWrite_engine (s : State) (i : Nat) (v : Word) : (s.gridWrite i v).engine = s.engine := by unfold State.gridWrite; split <;> rfl
@[simp] theorem State.gridWrite_params (s : State) (i : Nat) (v : Word) : (s.gridWrite i v).params = s.params := by unfold State.gridWrite; split <;> rfl
@[simp] theorem State.gridWrite_resets (s : State) (i : Nat) (v : Word) : (s.gridWrite i v).resets = s.resets := by unfold State.gridWrite; split <;> rfl
@[simp] theorem State.gridWrite_inputs (s : State) (i : Nat) (v : Word) : (s.gridWrite i v).inputs = s.inputs := by unfold State.gridWrite; split <;> rfl
@[simp] theorem State.gridWrite_replies (s : State) (i : Nat) (v : Word) : (s.gridWrite i v).replies = s.replies := by unfold State.gridWrite; split <;> rfl
@[simp] theorem State.gridWrite_schedule (s : State) (i : Nat) (v : Word) : (s.gridWrite i v).schedule = s.schedule := by unfold State.gridWrite; split <;> rfl
@[simp] theorem State.gridWrite_W (s : State) (i : Nat) (v : Word) : (s.gridWrite i v).W = s.W := by simp [State.W]
@[simp] theorem State.gridWrite_H (s : State) (i : Nat) (v : Word) : (s.gridWrite i v).H = s.H := by simp [State.H]
@[simp] theorem State.gridWrite_N (s : State) (i : Nat) (v : Word) : (s.gridWrite i v).N = s.N := by simp [State.N]
@[simp] theorem State.gridWrite_count (s : State) (i : Nat) (v : Word) : (s.gridWrite i v).count = s.count := by simp [State.count]
@[simp] theorem State.gridWrite_pbufRead (s : State) (i : Nat) (v : Word) (j : Nat) : (s.gridWrite i v).pbufRead j = s.pbufRead j := by simp [State.pbufRead, State.pbufCell]

@[simp] theorem State.pbufWrite_ctrl (s : State) (i : Nat) (v : Byte) : (s.pbufWrite i v).ctrl = s.ctrl := by unfold State.pbufWrite; split <;> rfl
@[simp] theorem State.pbufWrite_status (s : State) (i : Nat) (v : Byte) : (s.pbufWrite i v).status = s.status := by unfold State.pbufWrite; split <;> rfl
@[simp] theorem State.pbufWrite_width (s : State) (i : Nat) (v : Byte) : (s.pbufWrite i v).width = s.width := by unfold State.pbufWrite; split <;> rfl
@[simp] theorem State.pbufWrite_height (s : State) (i : Nat) (v : Byte) : (s.pbufWrite i v).height = s.height := by unfold State.pbufWrite; split <;> rfl
@[simp] theorem State.pbufWrite_inLen (s : State) (i : Nat) (v : Byte) : (s.pbufWrite i v).inLen = s.inLen := by unfold State.pbufWrite; split <;> rfl
@[simp] theorem State.pbufWrite_outLen (s : State) (i : Nat) (v : Byte) : (s.pbufWrite i v).outLen = s.outLen := by unfold State.pbufWrite; split <;> rfl
@[simp] theorem State.pbufWrite_hdr (s : State) (i : Nat) (v : Byte) : (s.pbufWrite i v).hdr = s.hdr := by unfold State.pbufWrite; split <;> rfl
@[simp] theorem State.pbufWrite_grid (s : State) (i : Nat) (v : Byte) : (s.pbufWrite i v).grid = s.grid := by unfold State.pbufWrite; split <;> rfl
@[simp] theorem State.pbufWrite_engine (s : State) (i : Nat) (v : Byte) : (s.pbufWrite i v).engine = s.engine := by unfold State.pbufWrite; split <;> rfl
@[simp] theorem State.pbufWrite_params (s : State) (i : Nat) (v : Byte) : (s.pbufWrite i v).params = s.params := by unfold State.pbufWrite; split <;> rfl
@[simp] theorem State.pbufWrite_resets (s : State) (i : Nat) (v : Byte) : (s.pbufWrite i v).resets = s.resets := by unfold State.pbufWrite; split <;> rfl
@[simp] theorem State.pbufWrite_inputs (s : State) (i : Nat) (v : Byte) : (s.pbufWrite i v).inputs = s.inputs := by unfold State.pbufWrite; split <;> rfl
@[simp] theorem State.pbufWrite_replies (s : State) (i : Nat) (v : Byte) : (s.pbufWrite i v).replies = s.replies := by unfold State.pbufWrite; split <;> rfl
@[simp] theorem State.pbufWrite_schedule (s : State) (i : Nat) (v : Byte) : (s.pbufWrite i v).schedule = s.schedule := by unfold State.pbufWrite; split <;> rfl
@[simp] theorem State.pbufWrite_W (s : State) (i : Nat) (v : Byte) : (s.pbufWrite i v).W = s.W := by simp [State.W]
@[simp] theorem State.pbufWrite_H (s : State) (i : Nat) (v : Byte) : (s.pbufWrite i v).H = s.H := by simp [State.H]
@[simp] theorem State.pbufWrite_N (s : State) (i : Nat) (v : Byte) : (s.pbufWrite i v).N = s.N := by simp [State.N]
@[simp] theorem State.pbufWrite_count (s : State) (i : Nat) (v : Byte) : (s.pbufWrite i v).count = s.count := by simp [State.count]
@[simp] theorem State.pbufWrite_gridRead (s : State) (i : Nat) (v : Byte) (j : Nat) : (s.pbufWrite i v).gridRead j = s.gridRead j := by simp [State.gridRead, State.gridCell]
@[simp] theorem State.pbufWrite_pixelRead (s : State) (i : Nat) (v : Byte) (a b : Nat) : (s.pbufWrite i v).pixelRead a b = s.pixelRead a b := by simp [State.pixelRead]

@[simp] theorem State.pixelWrite_ctrl (s : State) (x y : Nat) (P : Word) : (s.pixelWrite x y P).ctrl = s.ctrl := by simp [State.pixelWrite]
@[simp] theorem State.pixelWrite_status (s : State) (x y : Nat) (P : Word) : (s.pixelWrite x y P).status = s.status := by simp [State.pixelWrite]
@[simp] theorem State.pixelWrite_width (s : State) (x y : Nat) (P : Word) : (s.pixelWrite x y P).width = s.width := by simp [State.pixelWrite]
@[simp] theorem State.pixelWrite_height (s : State) (x y : Nat) (P : Word) : (s.pixelWrite x y P).height = s.height := by simp [State.pixelWrite]
@[simp] theorem State.pixelWrite_inLen (s : State) (x y : Nat) (P : Word) : (s.pixelWrite x y P).inLen = s.inLen := by simp [State.pixelWrite]
@[simp] theorem State.pixelWrite_outLen (s : State) (x y : Nat) (P : Word) : (s.pixelWrite x y P).outLen = s.outLen := by simp [State.pixelWrite]
@[simp] theorem State.pixelWrite_hdr (s : State) (x y : Nat) (P : Word) : (s.pixelWrite x y P).hdr = s.hdr := by simp [State.pixelWrite]
@[simp] theorem State.pixelWrite_pbuf (s : State) (x y : Nat) (P : Word) : (s.pixelWrite x y P).pbuf = s.pbuf := by simp [State.pixelWrite]
@[simp] theorem State.pixelWrite_engine (s : State) (x y : Nat) (P : Word) : (s.pixelWrite x y P).engine = s.engine := by simp [State.pixelWrite]
@[simp] theorem State.pixelWrite_params (s : State) (x y : Nat) (P : Word) : (s.pixelWrite x y P).params = s.params := by simp [State.pixelWrite]
@[simp] theorem State.pixelWrite_resets (s : State) (x y : Nat) (P : Word) : (s.pixelWrite x y P).resets = s.resets := by simp [State.pixelWrite]
@[simp] theorem State.pixelWrite_inputs (s : State) (x y : Nat) (P : Word) : (s.pixelWrite x y P).inputs = s.inputs := by simp [State.pixelWrite]
@[simp] theorem State.pixelWrite_replies (s : State) (x y : Nat) (P : Word) : (s.pixelWrite x y P).replies = s.replies := by simp [State.pixelWrite]
@[simp] theorem State.pixelWrite_schedule (s : State) (x y : Nat) (P : Word) : (s.pixelWrite x y P).schedule = s.schedule := by simp [State.pixelWrite]
@[simp] theorem State.pixelWrite_W (s : State) (x y : Nat) (P : Word) : (s.pixelWrite x y P).W = s.W := by simp [State.W]
@[simp] theorem State.pixelWrite_H (s : State) (x y : Nat) (P : Word) : (s.pixelWrite x y P).H = s.H := by simp [State.H]
@[simp] theorem State.pixelWrite_N (s : State) (x y : Nat) (P : Word) : (s.pixelWrite x y P).N = s.N := by simp [State.N]
@[simp] theorem State.pixelWrite_count (s : State) (x y : Nat) (P : Word) : (s.pixelWrite x y P).count = s.count := by simp [State.count]
@[simp] theorem State.pixelWrite_pbufRead (s : State) (x y : Nat) (P : Word) (j : Nat) : (s.pixelWrite x y P).pbufRead j = s.pbufRead j := by simp [State.pbufRead, State.pbufCell]

@[simp] theorem State.commitFull_ctrl (s : State) (p : Nat × Nat) (P : Word) (k : Nat) : (s.commitFull p P k).ctrl = s.ctrl := by unfold State.commitFull; split <;> simp
@[simp] theorem State.commitFull_status (s : State) (p : Nat × Nat) (P : Word) (k : Nat) : (s.commitFull p P k).status = s.status := by unfold State.commitFull; split <;> simp
@[simp] theorem State.commitFull_width (s : State) (p : Nat × Nat) (P : Word) (k : Nat) : (s.commitFull p P k).width = s.width := by unfold State.commitFull; split <;> simp
@[simp] theorem State.commitFull_height (s : State) (p : Nat × Nat) (P : Word) (k : Nat) : (s.commitFull p P k).height = s.height := by unfold State.commitFull; split <;> simp
@[simp] theorem State.commitFull_inLen (s : State) (p : Nat × Nat) (P : Word) (k : Nat) : (s.commitFull p P k).inLen = s.inLen := by unfold State.commitFull; split <;> simp
@[simp] theorem State.commitFull_outLen (s : State) (p : Nat × Nat) (P : Word) (k : Nat) : (s.commitFull p P k).outLen = s.outLen := by unfold State.commitFull; split <;> simp
@[simp] theorem State.commitFull_hdr (s : State) (p : Nat × Nat) (P : Word) (k : Nat) : (s.commitFull p P k).hdr = s.hdr := by unfold State.commitFull; split <;> simp
@[simp] theorem State.commitFull_pbuf (s : State) (p : Nat × Nat) (P : Word) (k : Nat) : (s.commitFull p P k).pbuf = s.pbuf := by unfold State.commitFull; split <;> simp
@[simp] theorem State.commitFull_engine (s : State) (p : Nat × Nat) (P : Word) (k : Nat) : (s.commitFull p P k).engine = s.engine := by unfold State.commitFull; split <;> simp
@[simp] theorem State.commitFull_params (s : State) (p : Nat × Nat) (P : Word) (k : Nat) : (s.commitFull p P k).params = s.params := by unfold State.commitFull; split <;> simp
@[simp] theorem State.commitFull_resets (s : State) (p : Nat × Nat) (P : Word) (k : Nat) : (s.commitFull p P k).resets = s.resets := by unfold State.commitFull; split <;> simp
@[simp] theorem State.commitFull_inputs (s : State) (p : Nat × Nat) (P : Word) (k : Nat) : (s.commitFull p P k).inputs = s.inputs := by unfold State.commitFull; split <;> simp
@[simp] theorem State.commitFull_replies (s : State) (p : Nat × Nat) (P : Word) (k : Nat) : (s.commitFull p P k).replies = s.replies := by unfold State.commitFull; split <;> simp
@[simp] theorem State.commitFull_schedule (s : State) (p : Nat × Nat) (P : Word) (k : Nat) : (s.commitFull p P k).schedule = s.schedule := by unfold State.commitFull; split <;> simp
@[simp] theorem State.commitFull_W (s : State) (p : Nat × Nat) (P : Word) (k : Nat) : (s.commitFull p P k).W = s.W := by simp [State.W]
@[simp] theorem State.commitFull_H (s : State) (p : Nat × Nat) (P : Word) (k : Nat) : (s.commitFull p P k).H = s.H := by simp [State.H]
@[simp] theorem State.commitFull_N (s : State) (p : Nat × Nat) (P : Word) (k : Nat) : (s.commitFull p P k).N = s.N := by simp [State.N]
@[simp] theorem State.commitFull_count (s : State) (p : Nat × Nat) (P : Word) (k : Nat) : (s.commitFull p P k).count = s.count := by simp [State.count]
@[simp] theorem State.commitFull_pbufRead (s : State) (p : Nat × Nat) (P : Word) (k : Nat) (j : Nat) : (s.commitFull p P k).pbufRead j = s.pbufRead j := by simp [State.pbufRead, State.pbufCell]

@[simp] theorem State.putChar_ctrl (s : State) (c : Byte) : (s.putChar c).ctrl = s.ctrl := by simp [State.putChar]
@[simp] theorem State.putChar_status (s : State) (c : Byte) : (s.putChar c).status = s.status := by simp [State.putChar]
@[simp] theorem State.putChar_width (s : State) (c : Byte) : (s.putChar c).width = s.width := by simp [State.putChar]
@[simp] theorem State.putChar_height (s : State) (c : Byte) : (s.putChar c).height = s.height := by simp [State.putChar]
@[simp] theorem State.putChar_inLen (s : State) (c : Byte) : (s.putChar c).inLen = s.inLen := by simp [State.putChar]
@[simp] theorem State.putChar_outLen (s : State) (c : Byte) : (s.putChar c).outLen = s.outLen := by simp [State.putChar]
@[simp] theorem State.putChar_hdr (s : State) (c : Byte) : (s.putChar c).hdr = s.hdr := by simp [State.putChar]
@[simp] theorem State.putChar_grid (s : State) (c : Byte) : (s.putChar c).grid = s.grid := by simp [State.putChar]
@[simp] theorem State.putChar_params (s : State) (c : Byte) : (s.putChar c).params = s.params := by simp [State.putChar]
@[simp] theorem State.putChar_resets (s : State) (c : Byte) : (s.putChar c).resets = s.resets := by simp [State.putChar]
@[simp] theorem State.putChar_inputs (s : State) (c : Byte) : (s.putChar c).inputs = s.inputs := by simp [State.putChar]
@[simp] theorem State.putChar_replies (s : State) (c : Byte) : (s.putChar c).replies = s.replies := by simp [State.putChar]
@[simp] theorem State.putChar_schedule (s : State) (c : Byte) : (s.putChar c).schedule = s.schedule := by simp [State.putChar]
@[simp] theorem State.putChar_W (s : State) (c : Byte) : (s.putChar c).W = s.W := by simp [State.W]
@[simp] theorem State.putChar_H (s : State) (c : Byte) : (s.putChar c).H = s.H := by simp [State.H]
@[simp] theorem State.putChar_N (s : State) (c : Byte) : (s.putChar c).N = s.N := by simp [State.N]
@[simp] theorem State.putChar_count (s : State) (c : Byte) : (s.putChar c).count = s.count := by simp [State.count]
@[simp] theorem State.putChar_gridRead (s : State) (c : Byte) (j : Nat) : (s.putChar c).gridRead j = s.gridRead j := by simp [State.gridRead, State.gridCell]
@[simp] theorem State.putChar_pixelRead (s : State) (c : Byte) (a b : Nat) : (s.putChar c).pixelRead a b = s.pixelRead a b := by simp [State.pixelRead]

@[simp] theorem State.writeHeaderPixel_ctrl (s : State) (x y : Nat) : (s.writeHeaderPixel x y).ctrl = s.ctrl := by simp [State.writeHeaderPixel]
@[simp] theorem State.writeHeaderPixel_status (s : State) (x y : Nat) : (s.writeHeaderPixel x y).status = s.status := by simp [State.writeHeaderPixel]
@[simp] theorem State.writeHeaderPixel_width (s : State) (x y : Nat) : (s.writeHeaderPixel x y).width = s.width := by simp [State.writeHeaderPixel]
@[simp] theorem State.writeHeaderPixel_height (s : State) (x y : Nat) : (s.writeHeaderPixel x y).height = s.height := by simp [State.writeHeaderPixel]
@[simp] theorem State.writeHeaderPixel_inLen (s : State) (x y : Nat) : (s.writeHeaderPixel x y).inLen = s.inLen := by simp [State.writeHeaderPixel]
@[simp] theorem State.writeHeaderPixel_outLen (s : State) (x y : Nat) : (s.writeHeaderPixel x y).outLen = s.outLen := by simp [State.writeHeaderPixel]
@[simp] theorem State.writeHeaderPixel_hdr (s : State) (x y : Nat) : (s.writeHeaderPixel x y).hdr = s.hdr := by simp [State.writeHeaderPixel]
@[simp] theorem State.writeHeaderPixel_pbuf (s : State) (x y : Nat) : (s.writeHeaderPixel x y).pbuf = s.pbuf := by simp [State.writeHeaderPixel]
@[simp] theorem State.writeHeaderPixel_params (s : State) (x y : Nat) : (s.writeHeaderPixel x y).params = s.params := by simp [State.writeHeaderPixel]
@[simp] theorem State.writeHeaderPixel_resets (s : State) (x y : Nat) : (s.writeHeaderPixel x y).resets = s.resets := by simp [State.writeHeaderPixel]
@[simp] theorem State.writeHeaderPixel_inputs (s : State) (x y : Nat) : (s.writeHeaderPixel x y).inputs = s.inputs := by simp [State.writeHeaderPixel]
@[simp] theorem State.writeHeaderPixel_replies (s : State) (x y : Nat) : (s.writeHeaderPixel x y).replies = s.replies := by simp [State.writeHeaderPixel]
@[simp] theorem State.writeHeaderPixel_schedule (s : State) (x y : Nat) : (s.writeHeaderPixel x y).schedule = s.schedule := by simp [State.writeHeaderPixel]
@[simp] theorem State.writeHeaderPixel_W (s : State) (x y : Nat) : (s.writeHeaderPixel x y).W = s.W := by simp [State.W]
@[simp] theorem State.writeHeaderPixel_H (s : State) (x y : Nat) : (s.writeHeaderPixel x y).H = s.H := by simp [State.H]
@[simp] theorem State.writeHeaderPixel_N (s : State) (x y : Nat) : (s.writeHeaderPixel x y).N = s.N := by simp [State.N]
@[simp] theorem State.writeHeaderPixel_count (s : State) (x y : Nat) : (s.writeHeaderPixel x y).count = s.count := by simp [State.count]
@[simp] theorem State.writeHeaderPixel_pbufRead (s : State) (x y : Nat) (j : Nat) : (s.writeHeaderPixel x y).pbufRead j = s.pbufRead j := by simp [State.pbufRead, State.pbufCell]

@[simp] theorem State.writePayloadPixel_ctrl (s : State) (x y : Nat) : (s.writePayloadPixel x y).ctrl = s.ctrl := by simp [State.writePayloadPixel]
@[simp] theorem State.writePayloadPixel_status (s : State) (x y : Nat) : (s.writePayloadPixel x y).status = s.status := by simp [State.writePayloadPixel]
@[simp] theorem State.writePayloadPixel_width (s : State) (x y : Nat) : (s.writePayloadPixel x y).width = s.width := by simp [State.writePayloadPixel]
@[simp] theorem State.writePayloadPixel_height (s : State) (x y : Nat) : (s.writePayloadPixel x y).height = s.height := by simp [State.writePayloadPixel]
@[simp] theorem State.writePayloadPixel_inLen (s : State) (x y : Nat) : (s.writePayloadPixel x y).inLen = s.inLen := by simp [State.writePayloadPixel]
@[simp] theorem State.writePayloadPixel_outLen (s : State) (x y : Nat) : (s.writePayloadPixel x y).outLen = s.outLen := by simp [State.writePayloadPixel]
@[simp] theorem State.writePayloadPixel_hdr (s : State) (x y : Nat) : (s.writePayloadPixel x y).hdr = s.hdr := by simp [State.writePayloadPixel]
@[simp] theorem State.writePayloadPixel_pbuf (s : State) (x y : Nat) : (s.writePayloadPixel x y).pbuf = s.pbuf := by simp [State.writePayloadPixel]
@[simp] theorem State.writePayloadPixel_params (s : State) (x y : Nat) : (s.writePayloadPixel x y).params = s.params := by simp [State.writePayloadPixel]
@[simp] theorem State.writePayloadPixel_resets (s : State) (x y : Nat) : (s.writePayloadPixel x y).resets = s.resets := by simp [State.writePayloadPixel]
@[simp] theorem State.writePayloadPixel_inputs (s : State) (x y : Nat) : (s.writePayloadPixel x y).inputs = s.inputs := by simp [State.writePayloadPixel]
@[simp] theorem State.writePayloadPixel_replies (s : State) (x y : Nat) : (s.writePayloadPixel x y).replies = s.replies := by simp [State.writePayloadPixel]
@[simp] theorem State.writePayloadPixel_schedule (s : State) (x y : Nat) : (s.writePayloadPixel x y).schedule = s.schedule := by simp [State.writePayloadPixel]
@[simp] theorem State.writePayloadPixel_W (s : State) (x y : Nat) : (s.writePayloadPixel x y).W = s.W := by simp [State.W]
@[simp] theorem State.writePayloadPixel_H (s : State) (x y : Nat) : (s.writePayloadPixel x y).H = s.H := by simp [State.H]
@[simp] theorem State.writePayloadPixel_N (s : State) (x y : Nat) : (s.writePayloadPixel x y).N = s.N := by simp [State.N]
@[simp] theorem State.writePayloadPixel_count (s : State) (x y : Nat) : (s.writePayloadPixel x y).count = s.count := by simp [State.count]
@[simp] theorem State.writePayloadPixel_pbufRead (s : State) (x y : Nat) (j : Nat) : (s.writePayloadPixel x y).pbufRead j = s.pbufRead j := by simp [State.pbufRead, State.pbufCell]

@[simp] theorem State.complete_ctrl (s : State) (c : Code) (t : Bool) (o : BitVec 32) (h : BitVec 24) : (s.complete c t o h).ctrl = s.ctrl := rfl
@[simp] theorem State.complete_width (s : State) (c : Code) (t : Bool) (o : BitVec 32) (h : BitVec 24) : (s.complete c t o h).width = s.width := rfl
@[simp] theorem State.complete_height (s : State) (c : Code) (t : Bool) (o : BitVec 32) (h : BitVec 24) : (s.complete c t o h).height = s.height := rfl
@[simp] theorem State.complete_inLen (s : State) (c : Code) (t : Bool) (o : BitVec 32) (h : BitVec 24) : (s.complete c t o h).inLen = s.inLen := rfl
@[simp] theorem State.complete_grid (s : State) (c : Code) (t : Bool) (o : BitVec 32) (h : BitVec 24) : (s.complete c t o h).grid = s.grid := rfl
@[simp] theorem State.complete_pbuf (s : State) (c : Code) (t : Bool) (o : BitVec 32) (h : BitVec 24) : (s.complete c t o h).pbuf = s.pbuf := rfl
@[simp] theorem State.complete_engine (s : State) (c : Code) (t : Bool) (o : BitVec 32) (h : BitVec 24) : (s.complete c t o h).engine = s.engine := rfl
@[simp] theorem State.complete_params (s : State) (c : Code) (t : Bool) (o : BitVec 32) (h : BitVec 24) : (s.complete c t o h).params = s.params := rfl
@[simp] theorem State.complete_resets (s : State) (c : Code) (t : Bool) (o : BitVec 32) (h : BitVec 24) : (s.complete c t o h).resets = s.resets := rfl
@[simp] theorem State.complete_inputs (s : State) (c : Code) (t : Bool) (o : BitVec 32) (h : BitVec 24) : (s.complete c t o h).inputs = s.inputs := rfl
@[simp] theorem State.complete_replies (s : State) (c : Code) (t : Bool) (o : BitVec 32) (h : BitVec 24) : (s.complete c t o h).replies = s.replies := rfl
@[simp] theorem State.complete_schedule (s : State) (c : Code) (t : Bool) (o : BitVec 32) (h : BitVec 24) : (s.complete c t o h).schedule = s.schedule := rfl
@[simp] theorem State.complete_W (s : State) (c : Code) (t : Bool) (o : BitVec 32) (h : BitVec 24) : (s.complete c t o h).W = s.W := rfl
@[simp] theorem State.complete_H (s : State) (c : Code) (t : Bool) (o : BitVec 32) (h : BitVec 24) : (s.complete c t o h).H = s.H := rfl
@[simp] theorem State.complete_N (s : State) (c : Code) (t : Bool) (o : BitVec 32) (h : BitVec 24) : (s.complete c t o h).N = s.N := rfl
@[simp] theorem State.complete_count (s : State) (c : Code) (t : Bool) (o : BitVec 32) (h : BitVec 24) : (s.complete c t o h).count = s.count := rfl
@[simp] theorem State.complete_gridRead (s : State) (c : Code) (t : Bool) (o : BitVec 32) (h : BitVec 24) (j : Nat) : (s.complete c t o h).gridRead j = s.gridRead j := rfl
@[simp] theorem State.complete_pixelRead (s : State) (c : Code) (t : Bool) (o : BitVec 32) (h : BitVec 24) (a b : Nat) : (s.complete c t o h).pixelRead a b = s.pixelRead a b := rfl
@[simp] theorem State.complete_pbufRead (s : State) (c : Code) (t : Bool) (o : BitVec 32) (h : BitVec 24) (j : Nat) : (s.complete c t o h).pbufRead j = s.pbufRead j := rfl

@[simp] theorem State.accept_width (s : State) (v : Word) : (s.accept v).width = s.width := rfl
@[simp] theorem State.accept_height (s : State) (v : Word) : (s.accept v).height = s.height := rfl
@[simp] theorem State.accept_inLen (s : State) (v : Word) : (s.accept v).inLen = s.inLen := rfl
@[simp] theorem State.accept_grid (s : State) (v : Word) : (s.accept v).grid = s.grid := rfl
@[simp] theorem State.accept_pbuf (s : State) (v : Word) : (s.accept v).pbuf = s.pbuf := rfl
@[simp] theorem State.accept_params (s : State) (v : Word) : (s.accept v).params = s.params := rfl
@[simp] theorem State.accept_resets (s : State) (v : Word) : (s.accept v).resets = s.resets := rfl
@[simp] theorem State.accept_inputs (s : State) (v : Word) : (s.accept v).inputs = s.inputs := rfl
@[simp] theorem State.accept_replies (s : State) (v : Word) : (s.accept v).replies = s.replies := rfl
@[simp] theorem State.accept_schedule (s : State) (v : Word) : (s.accept v).schedule = s.schedule := rfl
@[simp] theorem State.accept_W (s : State) (v : Word) : (s.accept v).W = s.W := rfl
@[simp] theorem State.accept_H (s : State) (v : Word) : (s.accept v).H = s.H := rfl
@[simp] theorem State.accept_N (s : State) (v : Word) : (s.accept v).N = s.N := rfl
@[simp] theorem State.accept_count (s : State) (v : Word) : (s.accept v).count = s.count := rfl
@[simp] theorem State.accept_gridRead (s : State) (v : Word) (j : Nat) : (s.accept v).gridRead j = s.gridRead j := rfl
@[simp] theorem State.accept_pixelRead (s : State) (v : Word) (a b : Nat) : (s.accept v).pixelRead a b = s.pixelRead a b := rfl
@[simp] theorem State.accept_pbufRead (s : State) (v : Word) (j : Nat) : (s.accept v).pbufRead j = s.pbufRead j := rfl

@[simp] theorem State.reply_ctrl (s : State) (v : Reply) : (s.reply v).ctrl = s.ctrl := rfl
@[simp] theorem State.reply_status (s : State) (v : Reply) : (s.reply v).status = s.status := rfl
@[simp] theorem State.reply_width (s : State) (v : Reply) : (s.reply v).width = s.width := rfl
@[simp] theorem State.reply_height (s : State) (v : Reply) : (s.reply v).height = s.height := rfl
@[simp] theorem State.reply_inLen (s : State) (v : Reply) : (s.reply v).inLen = s.inLen := rfl
@[simp] theorem State.reply_outLen (s : State) (v : Reply) : (s.reply v).outLen = s.outLen := rfl
@[simp] theorem State.reply_hdr (s : State) (v : Reply) : (s.reply v).hdr = s.hdr := rfl
@[simp] theorem State.reply_grid (s : State) (v : Reply) : (s.reply v).grid = s.grid := rfl
@[simp] theorem State.reply_pbuf (s : State) (v : Reply) : (s.reply v).pbuf = s.pbuf := rfl
@[simp] theorem State.reply_engine (s : State) (v : Reply) : (s.reply v).engine = s.engine := rfl
@[simp] theorem State.reply_params (s : State) (v : Reply) : (s.reply v).params = s.params := rfl
@[simp] theorem State.reply_resets (s : State) (v : Reply) : (s.reply v).resets = s.resets := rfl
@[simp] theorem State.reply_inputs (s : State) (v : Reply) : (s.reply v).inputs = s.inputs := rfl
@[simp] theorem State.reply_schedule (s : State) (v : Reply) : (s.reply v).schedule = s.schedule := rfl
@[simp] theorem State.reply_W (s : State) (v : Reply) : (s.reply v).W = s.W := rfl
@[simp] theorem State.reply_H (s : State) (v : Reply) : (s.reply v).H = s.H := rfl
@[simp] theorem State.reply_N (s : State) (v : Reply) : (s.reply v).N = s.N := rfl
@[simp] theorem State.reply_count (s : State) (v : Reply) : (s.reply v).count = s.count := rfl
@[simp] theorem State.reply_gridRead (s : State) (v : Reply) (j : Nat) : (s.reply v).gridRead j = s.gridRead j := rfl
@[simp] theorem State.reply_pixelRead (s : State) (v : Reply) (a b : Nat) : (s.reply v).pixelRead a b = s.pixelRead a b := rfl
@[simp] theorem State.reply_pbufRead (s : State) (v : Reply) (j : Nat) : (s.reply v).pbufRead j = s.pbufRead j := rfl

@[simp] theorem State.complete_status (s : State) (c : Code) (t : Bool) (o : BitVec 32) (h : BitVec 24) :
    (s.complete c t o h).status = completedStatus c t := rfl
@[simp] theorem State.complete_outLen (s : State) (c : Code) (t : Bool) (o : BitVec 32) (h : BitVec 24) :
    (s.complete c t o h).outLen = o := rfl
@[simp] theorem State.complete_hdr (s : State) (c : Code) (t : Bool) (o : BitVec 32) (h : BitVec 24) :
    (s.complete c t o h).hdr = h := rfl
@[simp] theorem State.accept_status (s : State) (v : Word) : (s.accept v).status = acceptedStatus := rfl
@[simp] theorem State.accept_ctrl (s : State) (v : Word) : (s.accept v).ctrl = opField v := rfl
@[simp] theorem State.accept_outLen (s : State) (v : Word) : (s.accept v).outLen = 0 := rfl
@[simp] theorem State.accept_hdr (s : State) (v : Word) : (s.accept v).hdr = 0 := rfl
@[simp] theorem State.accept_engine (s : State) (v : Word) :
    (s.accept v).engine = { s.engine with op := opField v } := rfl
@[simp] theorem State.reply_replies (s : State) (v : Reply) : (s.reply v).replies = v :: s.replies := rfl
@[simp] theorem State.moveTo_engine (s : State) (x y : Nat) :
    (s.moveTo x y).engine = { s.engine with x := x, y := y } := rfl

end Sys2Proof.Machine
end

