-- ==== Sys2Proof/Laws/Memory.lean ====
section
/-! SUPPORT. The memories: read after write, and the canonical form every operation keeps (R33, R34, R56, R57). -/

namespace Sys2Proof.Machine

theorem Memory.lookup_store {α : Type} (m : Memory α) (i j : Nat) (v : α) :
    Memory.lookup (Memory.store m i v) j = if i = j then some v else Memory.lookup m j := by
  induction m with
  | nil => rfl
  | cons c m ih =>
    obtain ⟨a, w⟩ := c
    unfold Memory.store
    split
    · rfl
    · split
      · rename_i h; subst h
        simp only [Memory.lookup]
        split <;> rfl
      · rename_i h
        simp only [Memory.lookup, ih]
        by_cases h1 : a = j
        · simp [h1, show ¬ i = j by omega]
        · simp [h1]

theorem Memory.mem_store {α : Type} {m : Memory α} {i : Nat} {v : α} {c : Nat × α}
    (h : c ∈ Memory.store m i v) : c.1 = i ∨ c ∈ m := by
  induction m with
  | nil => simp_all [Memory.store]
  | cons d m ih =>
    obtain ⟨a, w⟩ := d
    unfold Memory.store at h
    split at h
    · simp_all only [List.mem_cons]; rcases h with h | h
      · left; rw [h]
      · exact .inr h
    · split at h
      · simp only [List.mem_cons] at h ⊢; rcases h with h | h
        · left; rw [h]
        · exact .inr (.inr h)
      · simp only [List.mem_cons] at h ⊢; rcases h with h | h
        · exact .inr (.inl h)
        · rcases ih h with h | h
          · exact .inl h
          · exact .inr (.inr h)

theorem Memory.store_rising {α : Type} (m : Memory α) (i : Nat) (v : α)
    (h : (m.map Prod.fst).Pairwise (· < ·)) : ((Memory.store m i v).map Prod.fst).Pairwise (· < ·) := by
  induction m with
  | nil => simp [Memory.store]
  | cons d m ih =>
    obtain ⟨a, w⟩ := d
    simp only [List.map_cons, List.pairwise_cons] at h
    unfold Memory.store
    split
    · rename_i hi
      simp only [List.map_cons, List.pairwise_cons, List.mem_cons]
      refine ⟨?_, h.1, h.2⟩
      rintro b (rfl | hb)
      · exact hi
      · exact lt_trans hi (h.1 b hb)
    · split
      · rename_i hi; subst hi
        exact List.pairwise_cons.2 ⟨h.1, h.2⟩
      · simp only [List.map_cons, List.pairwise_cons]
        refine ⟨?_, ih h.2⟩
        intro b hb
        obtain ⟨c, hc, rfl⟩ := List.mem_map.1 hb
        rcases Memory.mem_store hc with h1 | h1
        · omega
        · exact h.1 _ (List.mem_map.2 ⟨c, h1, rfl⟩)

theorem Memory.store_wf {α : Type} {n : Nat} {m : Memory α} {i : Nat} (v : α) (hi : i < n) (h : Memory.wf n m) :
    Memory.wf n (Memory.store m i v) := by
  refine ⟨Memory.store_rising m i v h.1, fun c hc => ?_⟩
  rcases Memory.mem_store hc with h1 | h1
  · omega
  · exact h.2 c h1

theorem Memory.nil_wf {α : Type} (n : Nat) : Memory.wf n ([] : Memory α) := by simp [Memory.wf]

/-! ### The two ports -/

theorem State.gridRead_gridWrite (s : State) (i j : Nat) (v : Word) :
    (s.gridWrite i v).gridRead j = if i = j ∧ j < s.params.gridWords then v else s.gridRead j := by
  unfold State.gridWrite
  split
  · simp only [State.gridRead, State.gridCell, Memory.lookup_store]
    by_cases h : i = j
    · simp only [h, true_and, if_true]; split <;> simp_all
    · simp [h]
  · have h : ¬ (i = j ∧ j < s.params.gridWords) := by omega
    simp [h]

theorem State.pbufRead_pbufWrite (s : State) (i j : Nat) (v : Byte) :
    (s.pbufWrite i v).pbufRead j = if i = j ∧ j < s.params.pbufBytes then v else s.pbufRead j := by
  unfold State.pbufWrite
  split
  · simp only [State.pbufRead, State.pbufCell, Memory.lookup_store]
    by_cases h : i = j
    · simp only [h, true_and, if_true]; split <;> simp_all
    · simp [h]
  · have h : ¬ (i = j ∧ j < s.params.pbufBytes) := by omega
    simp [h]

theorem State.gridWrite_form (s : State) (i : Nat) (v : Word) : ∃ g, s.gridWrite i v = { s with grid := g } := by
  unfold State.gridWrite; split <;> exact ⟨_, rfl⟩

theorem State.pixelWrite_form (s : State) (x y : Nat) (P : Word) : ∃ g, s.pixelWrite x y P = { s with grid := g } :=
  s.gridWrite_form _ _

theorem State.pbufWrite_form (s : State) (i : Nat) (v : Byte) : ∃ m, s.pbufWrite i v = { s with pbuf := m } := by
  unfold State.pbufWrite; split <;> exact ⟨_, rfl⟩

theorem State.gridWrite_same (s : State) {i : Nat} (v : Word) (h : i < s.params.gridWords) :
    (s.gridWrite i v).gridRead i = v := by simp [State.gridRead_gridWrite, h]

theorem State.gridWrite_other (s : State) {i j : Nat} (v : Word) (h : i ≠ j) :
    (s.gridWrite i v).gridRead j = s.gridRead j := by simp [State.gridRead_gridWrite, h]

theorem State.pbufWrite_same (s : State) {i : Nat} (v : Byte) (h : i < s.params.pbufBytes) :
    (s.pbufWrite i v).pbufRead i = v := by simp [State.pbufRead_pbufWrite, h]

theorem State.pbufWrite_other (s : State) {i j : Nat} (v : Byte) (h : i ≠ j) :
    (s.pbufWrite i v).pbufRead j = s.pbufRead j := by simp [State.pbufRead_pbufWrite, h]

theorem State.gridRead_pixelWrite (s : State) (x y j : Nat) (P : Word) (h : pixelIndex s.W x y < s.params.gridWords) :
    (s.pixelWrite x y P).gridRead j = if pixelIndex s.W x y = j then P else s.gridRead j := by
  rw [State.pixelWrite, State.gridRead_gridWrite]
  by_cases e : pixelIndex s.W x y = j
  · subst e; simp [h]
  · simp [e]

theorem State.gridRead_beyond (s : State) {i : Nat} (h : s.params.gridWords ≤ i) : s.gridRead i = 0 := by
  simp [State.gridRead, show ¬ i < s.params.gridWords by omega]

theorem State.gridWrite_wf {s : State} (i : Nat) (v : Word) (h : Memory.wf s.params.gridWords s.grid) :
    Memory.wf s.params.gridWords (s.gridWrite i v).grid := by
  unfold State.gridWrite
  split
  · exact Memory.store_wf v ‹_› h
  · exact h

theorem State.pbufWrite_wf {s : State} (i : Nat) (v : Byte) (h : Memory.wf s.params.pbufBytes s.pbuf) :
    Memory.wf s.params.pbufBytes (s.pbufWrite i v).pbuf := by
  unfold State.pbufWrite
  split
  · exact Memory.store_wf v ‹_› h
  · exact h

/-- Writing a list of bytes from index `j` on changes PBUF alone. -/
theorem State.pbufWriteFrom_eq (s : State) (j : Nat) (d : List Byte) :
    s.pbufWriteFrom j d = { s with pbuf := (s.pbufWriteFrom j d).pbuf } := by
  induction d generalizing s j with
  | nil => rfl
  | cons v d ih =>
    rw [State.pbufWriteFrom, ih]
    unfold State.pbufWrite; split <;> rfl

theorem State.pbufWriteFrom_wf {s : State} (j : Nat) (d : List Byte) (h : Memory.wf s.params.pbufBytes s.pbuf) :
    Memory.wf s.params.pbufBytes (s.pbufWriteFrom j d).pbuf := by
  induction d generalizing s j with
  | nil => exact h
  | cons v d ih =>
    have := ih (s := s.pbufWrite j v) (j + 1) (by simpa using State.pbufWrite_wf j v h)
    simpa [State.pbufWriteFrom] using this

/-- What PBUF reads after `d` was written from index `j` on, all of it in range. -/
theorem State.pbufRead_pbufWriteFrom (s : State) (j : Nat) (d : List Byte) (h : j + d.length ≤ s.params.pbufBytes)
    (i : Nat) :
    (s.pbufWriteFrom j d).pbufRead i = if j ≤ i ∧ i < j + d.length then d.getD (i - j) 0 else s.pbufRead i := by
  induction d generalizing s j with
  | nil =>
    simp only [State.pbufWriteFrom, List.length_nil]
    rw [if_neg (by omega)]
  | cons v d ih =>
    simp only [List.length_cons] at h
    rw [State.pbufWriteFrom, ih _ _ (by simp; omega), State.pbufRead_pbufWrite]
    by_cases h1 : j = i
    · subst h1
      simp [show j < s.params.pbufBytes by omega]
    · rw [if_neg (show ¬ (j = i ∧ i < s.params.pbufBytes) by omega)]
      by_cases h2 : j + 1 ≤ i ∧ i < j + 1 + d.length
      · rw [if_pos h2, if_pos (by simp only [List.length_cons]; omega), show i - j = (i - (j + 1)) + 1 by omega,
          List.getD_cons_succ]
      · rw [if_neg h2, if_neg (by simp only [List.length_cons]; omega)]

end Sys2Proof.Machine
end

