-- ==== Sys2Proof/Laws/Traversal.lean ====
section
/-! SUPPORT. The traversal orders and the reserved trailer (R132 to R136): closed forms of the visiting lists. -/

namespace Sys2Proof.Machine

/-- Two nested counting loops are one counting loop. -/
theorem range_flatMap_range {α : Type} (f : Nat → Nat → α) (a b : Nat) :
    ((List.range a).flatMap fun x => (List.range b).map fun y => f x y) =
      (List.range (a * b)).map fun q => f (q / b) (q % b) := by
  induction a with
  | zero => simp
  | succ a ih =>
    rw [List.range_succ, List.flatMap_append, ih, Nat.succ_mul, List.range_add, List.map_append]
    simp only [List.flatMap_cons, List.flatMap_nil, List.append_nil, List.map_map]
    congr 1
    refine List.map_congr_left fun y hy => ?_
    have hb : y < b := List.mem_range.1 hy
    simp only [Function.comp]
    rw [show a * b + y = y + b * a by ring, Nat.add_mul_div_left _ _ (by omega), Nat.add_mul_mod_self_left,
      Nat.div_eq_of_lt hb, Nat.mod_eq_of_lt hb, Nat.zero_add]

/-- The t-th visit of ColumnMajor has t = x*H + y (R132). -/
theorem columnMajor_eq (W H : Nat) : columnMajor W H = (List.range (W * H)).map fun t => (t / H, t % H) :=
  range_flatMap_range (fun x y => (x, y)) W H

/-- The p-th visit of RowMajor has p = y*W + x (R133). -/
theorem rowMajor_eq (W H : Nat) : rowMajor W H = (List.range (W * H)).map fun p => (p % W, p / W) := by
  rw [Nat.mul_comm]; exact range_flatMap_range (fun y x => (x, y)) H W

theorem mem_columnMajor {W H : Nat} {p : Nat × Nat} : p ∈ columnMajor W H ↔ p.1 < W ∧ p.2 < H := by
  obtain ⟨x, y⟩ := p
  simp [columnMajor]

theorem mem_rowMajor {W H : Nat} {p : Nat × Nat} : p ∈ rowMajor W H ↔ p.1 < W ∧ p.2 < H := by
  obtain ⟨x, y⟩ := p
  simp only [rowMajor, List.mem_flatMap, List.mem_map, List.mem_range, Prod.mk.injEq]
  constructor
  · rintro ⟨y, hy, x, hx, rfl, rfl⟩; exact ⟨hx, hy⟩
  · rintro ⟨hx, hy⟩; exact ⟨y, hy, x, hx, rfl, rfl⟩

/-- No two pixels of a grid share a GRID index (R51). -/
theorem pixelIndex_inj {W x y x' y' : Nat} (hx : x < W) (hx' : x' < W) (h : pixelIndex W x y = pixelIndex W x' y') :
    x = x' ∧ y = y' := by
  have hW : 0 < W := by omega
  have h1 : (y * W + x) % W = (y' * W + x') % W := congrArg (· % W) h
  have h2 : (y * W + x) / W = (y' * W + x') / W := congrArg (· / W) h
  rw [Nat.mul_add_mod', Nat.mul_add_mod', Nat.mod_eq_of_lt hx, Nat.mod_eq_of_lt hx'] at h1
  rw [Nat.mul_comm y, Nat.mul_comm y', Nat.mul_add_div hW, Nat.mul_add_div hW, Nat.div_eq_of_lt hx,
    Nat.div_eq_of_lt hx'] at h2
  omega

theorem pixelIndex_lt {W H x y : Nat} (hx : x < W) (hy : y < H) : pixelIndex W x y < W * H := by
  unfold pixelIndex
  calc y * W + x < y * W + W := by omega
    _ = (y + 1) * W := by ring
    _ ≤ H * W := Nat.mul_le_mul_right _ hy
    _ = W * H := Nat.mul_comm _ _

theorem nodup_columnMajor (W H : Nat) : (columnMajor W H).Nodup := by
  unfold columnMajor
  refine List.nodup_flatMap.2 ⟨fun x _ => (List.nodup_range).map fun a b h => by simpa using h, ?_⟩
  refine (List.nodup_range (n := W)).imp fun {a b} hab => ?_
  intro p hp hp'
  simp only [List.mem_map, List.mem_range] at hp hp'
  obtain ⟨y, -, rfl⟩ := hp
  obtain ⟨y', -, h⟩ := hp'
  exact hab (by simpa using (congrArg Prod.fst h).symm)

/-! ### The trailer, for W ≥ 6 and H ≥ 1 (R134) -/

theorem trailer_iff {W H x y : Nat} (hW : 6 ≤ W) (hH : 1 ≤ H) (hy : y < H) :
    trailer W H x y ↔ W - 6 ≤ x ∧ y = H - 1 := by
  unfold trailer; omega

/-- ColumnMajor is its first W - 6 columns, then its last six. -/
theorem columnMajor_split {W : Nat} (hW : 6 ≤ W) (H : Nat) :
    columnMajor W H = columnMajor (W - 6) H ++
      (List.range 6).flatMap fun j => (List.range H).map fun y => (W - 6 + j, y) := by
  unfold columnMajor
  conv_lhs => rw [show W = W - 6 + 6 by omega, List.range_add, List.flatMap_append, List.flatMap_map]

theorem filter_false_of {α : Type} {p : α → Bool} {l : List α} (h : ∀ a ∈ l, p a = false) : l.filter p = [] :=
  List.filter_eq_nil_iff.2 fun a ha => by simp [h a ha]

theorem filter_true_of {α : Type} {p : α → Bool} {l : List α} (h : ∀ a ∈ l, p a = true) : l.filter p = l :=
  List.filter_eq_self.2 h

/-- The rows of a column: all but the last, then the last. -/
theorem range_last {H : Nat} (hH : 1 ≤ H) : List.range H = List.range (H - 1) ++ [H - 1] := by
  conv_lhs => rw [show H = H - 1 + 1 by omega, List.range_succ]

/-- ColumnMajor's trailer pixels are T0..T5, in that order (R135). -/
theorem filter_trailer {W H : Nat} (hW : 6 ≤ W) (hH : 1 ≤ H) :
    (columnMajor W H).filter (fun p => decide (trailer W H p.1 p.2)) = (List.range 6).map (trailerPixel W H) := by
  rw [columnMajor_split hW, List.filter_append, filter_false_of (fun p hp => ?_), List.nil_append, List.filter_flatMap]
  · rw [← List.flatMap_pure_eq_map]
    refine List.flatMap_congr fun j hj => ?_
    have hj := List.mem_range.1 hj
    rw [range_last hH, List.map_append, List.filter_append, filter_false_of (fun p hp => ?_), filter_true_of (fun p hp => ?_)]
    · rfl
    · simp only [List.map_cons, List.map_nil, List.mem_singleton] at hp
      subst hp
      simp only [decide_eq_true_eq]
      exact (trailer_iff hW hH (by omega)).2 ⟨by omega, rfl⟩
    · obtain ⟨y, hy, rfl⟩ := List.mem_map.1 hp
      have hy := List.mem_range.1 hy
      simp only [decide_eq_false_iff_not]
      rw [trailer_iff hW hH (by omega)]; omega
  · have := mem_columnMajor.1 hp
    simp only [decide_eq_false_iff_not]
    rw [trailer_iff hW hH this.2]; omega

/-- ColumnMajor's other pixels are NT(0)..NT(N - 7), in that order (R136). -/
theorem filter_nonTrailer {W H : Nat} (hW : 6 ≤ W) (hH : 1 ≤ H) :
    (columnMajor W H).filter (fun p => !decide (trailer W H p.1 p.2)) = (List.range (W * H - 6)).map (nt W H) := by
  have hN : W * H - 6 = (W - 6) * H + 6 * (H - 1) := by
    obtain ⟨w, rfl⟩ := Nat.exists_eq_add_of_le hW
    obtain ⟨h, rfl⟩ := Nat.exists_eq_add_of_le hH
    have e : (6 + w) * (1 + h) = 6 + (w * (1 + h) + 6 * h) := by ring
    simp only [Nat.add_sub_cancel_left]
    omega
  rw [columnMajor_split hW, List.filter_append, filter_true_of (fun p hp => ?_), List.filter_flatMap, hN, List.range_add,
    List.map_append, columnMajor_eq]
  · congr 1
    · refine List.map_congr_left fun q hq => ?_
      simp [nt, List.mem_range.1 hq]
    · have hcol : ∀ j ∈ List.range 6, ((List.range H).map fun y => (W - 6 + j, y)).filter
          (fun p => !decide (trailer W H p.1 p.2)) = (List.range (H - 1)).map fun y => (W - 6 + j, y) := by
        intro j hj
        have hj := List.mem_range.1 hj
        rw [range_last hH, List.map_append, List.filter_append, filter_true_of (fun p hp => ?_),
          filter_false_of (fun p hp => ?_), List.append_nil]
        · simp only [List.map_cons, List.map_nil, List.mem_singleton] at hp
          subst hp
          simp only [Bool.not_eq_false', decide_eq_true_eq]
          exact (trailer_iff hW hH (by omega)).2 ⟨by omega, rfl⟩
        · obtain ⟨y, hy, rfl⟩ := List.mem_map.1 hp
          have hy := List.mem_range.1 hy
          simp only [Bool.not_eq_true', decide_eq_false_iff_not]
          rw [trailer_iff hW hH (by omega)]; omega
      rw [List.flatMap_congr hcol, range_flatMap_range (fun j y => (W - 6 + j, y)), List.map_map]
      refine List.map_congr_left fun q _ => ?_
      simp [nt]
  · have := mem_columnMajor.1 hp
    simp only [Bool.not_eq_true', decide_eq_false_iff_not]
    rw [trailer_iff hW hH this.2]; omega

theorem trailerPixel_mem {W H j : Nat} (hW : 6 ≤ W) (hH : 1 ≤ H) (hj : j < 6) :
    (trailerPixel W H j).1 < W ∧ (trailerPixel W H j).2 < H := by
  simp only [trailerPixel]; omega

theorem nt_mem {W H q : Nat} (hW : 6 ≤ W) (hH : 1 ≤ H) (hq : q < W * H - 6) :
    (nt W H q).1 < W ∧ (nt W H q).2 < H ∧ ¬ trailer W H (nt W H q).1 (nt W H q).2 := by
  have h : nt W H q ∈ (List.range (W * H - 6)).map (nt W H) := List.mem_map.2 ⟨q, List.mem_range.2 hq, rfl⟩
  rw [← filter_nonTrailer hW hH, List.mem_filter] at h
  exact ⟨(mem_columnMajor.1 h.1).1, (mem_columnMajor.1 h.1).2, by
    simpa only [Bool.not_eq_true', decide_eq_false_iff_not] using h.2⟩

end Sys2Proof.Machine
end

