-- ==== Sys2Proof/Laws/VariantA.lean ====
section
/-! SUPPORT. What the traversals of Variant A do (R152, R156): one closed form for EMBED_A's and one for EXTRACT_A's
payload pass, each by one induction over the visiting order. -/

namespace Sys2Proof.Machine

/-! ### One visit of EMBED_A -/

theorem State.writeHeaderPixel_form (s : State) (x y : Nat) :
    ∃ g e, s.writeHeaderPixel x y = { s with grid := g, engine := e } := by
  obtain ⟨g, h⟩ := s.pixelWrite_form x y (writeFour (s.pixelRead x y) s.engine.header s.engine.hc)
  simp only [State.writeHeaderPixel, h]; exact ⟨_, _, rfl⟩

theorem State.writePayloadPixel_form (s : State) (x y : Nat) :
    ∃ g e, s.writePayloadPixel x y = { s with grid := g, engine := e } := by
  obtain ⟨g, h⟩ := s.pixelWrite_form x y (writeFour (s.pixelRead x y) s.engine.payload s.engine.pcA)
  simp only [State.writePayloadPixel, h]; exact ⟨_, _, rfl⟩

theorem embedAVisit_form (s : State) (p : Nat × Nat) :
    ∃ g e, embedAVisit s p = { s with grid := g, engine := e } := by
  unfold embedAVisit
  split
  · obtain ⟨g, e, h⟩ := (s.moveTo p.1 p.2).writeHeaderPixel_form p.1 p.2
    exact ⟨g, e, h⟩
  · split
    · obtain ⟨g, e, h⟩ := (s.moveTo p.1 p.2).writePayloadPixel_form p.1 p.2
      exact ⟨g, e, h⟩
    · exact ⟨_, _, rfl⟩

theorem embedAFold_form (ps : List (Nat × Nat)) (s : State) :
    ∃ g e, ps.foldl embedAVisit s = { s with grid := g, engine := e } := by
  induction ps generalizing s with
  | nil => exact ⟨_, _, rfl⟩
  | cons p ps ih =>
    obtain ⟨g, e, h⟩ := embedAVisit_form s p
    obtain ⟨g', e', h'⟩ := ih (embedAVisit s p)
    rw [List.foldl_cons, h', h]
    exact ⟨_, _, rfl⟩

/-- EMBED_A's traversal changes GRID and the engine's variables alone. -/
theorem State.embedATraverse_form (s : State) : ∃ g e, s.embedATraverse = { s with grid := g, engine := e } := by
  obtain ⟨g, e, h⟩ := embedAFold_form (columnMajor s.W s.H) s.startEmbedA
  exact ⟨g, e, h.trans rfl⟩

theorem embedAVisit_wf {s : State} (p : Nat × Nat) (h : Memory.wf s.params.gridWords s.grid) :
    Memory.wf s.params.gridWords (embedAVisit s p).grid := by
  unfold embedAVisit
  split
  · exact State.gridWrite_wf (s := s.moveTo p.1 p.2) _ _ h
  · split
    · exact State.gridWrite_wf (s := s.moveTo p.1 p.2) _ _ h
    · exact h

theorem embedAFold_wf (ps : List (Nat × Nat)) {s : State} (h : Memory.wf s.params.gridWords s.grid) :
    Memory.wf s.params.gridWords (ps.foldl embedAVisit s).grid := by
  induction ps generalizing s with
  | nil => exact h
  | cons p ps ih =>
    obtain ⟨g, e, hv⟩ := embedAVisit_form s p
    have hp : (embedAVisit s p).params = s.params := by rw [hv]
    have := ih (s := embedAVisit s p) (by rw [hp]; exact embedAVisit_wf p h)
    rwa [hp] at this

/-- A visit of a trailer pixel: the next four header bits into it, and nothing else (R152). -/
theorem embedAVisit_trailer {s : State} {p : Nat × Nat} (h : trailer s.W s.H p.1 p.2)
    (hi : pixelIndex s.W p.1 p.2 < s.params.gridWords) :
    (embedAVisit s p).engine = { s.engine with x := p.1, y := p.2, hc := s.engine.hc + 4 } ∧
    ∀ j, (embedAVisit s p).gridRead j =
      if pixelIndex s.W p.1 p.2 = j then writeFour (s.gridRead j) s.engine.header s.engine.hc else s.gridRead j := by
  rw [show embedAVisit s p = (s.moveTo p.1 p.2).writeHeaderPixel p.1 p.2 from if_pos h]
  refine ⟨by simp [State.writeHeaderPixel], fun j => ?_⟩
  refine (State.gridRead_pixelWrite (s.moveTo p.1 p.2) p.1 p.2 j _ hi).trans ?_
  by_cases e : pixelIndex s.W p.1 p.2 = j
  · subst e; rfl
  · exact (if_neg e).trans (if_neg e).symm

/-- A visit of another pixel while payload bits remain: the next four into it, and nothing else (R152). -/
theorem embedAVisit_payload {s : State} {p : Nat × Nat} (h : ¬ trailer s.W s.H p.1 p.2)
    (hl : s.engine.pcA < s.engine.len) (hi : pixelIndex s.W p.1 p.2 < s.params.gridWords) :
    (embedAVisit s p).engine = { s.engine with x := p.1, y := p.2, pcA := s.engine.pcA + 4 } ∧
    ∀ j, (embedAVisit s p).gridRead j =
      if pixelIndex s.W p.1 p.2 = j then writeFour (s.gridRead j) s.engine.payload s.engine.pcA
      else s.gridRead j := by
  rw [show embedAVisit s p = (s.moveTo p.1 p.2).writePayloadPixel p.1 p.2 from (if_neg h).trans (if_pos hl)]
  refine ⟨by simp [State.writePayloadPixel], fun j => ?_⟩
  refine (State.gridRead_pixelWrite (s.moveTo p.1 p.2) p.1 p.2 j _ hi).trans ?_
  by_cases e : pixelIndex s.W p.1 p.2 = j
  · subst e; rfl
  · exact (if_neg e).trans (if_neg e).symm

/-- A visit of another pixel when no payload bit remains does not access it (R154). -/
theorem embedAVisit_rest {s : State} {p : Nat × Nat} (h : ¬ trailer s.W s.H p.1 p.2)
    (hl : ¬ s.engine.pcA < s.engine.len) : embedAVisit s p = s.moveTo p.1 p.2 :=
  (if_neg h).trans (if_neg hl)

/-! ### EMBED_A's traversal -/

/-- The result of EMBED_A's traversal of the pixels `ps` from `s`, where `a` of the payload's `b` pixels are done. -/
structure EmbedAResult (s t : State) (ps : List (Nat × Nat)) (a b : Nat) : Prop where
  hc : t.engine.hc = s.engine.hc + 4 * (ps.filter fun p => decide (trailer s.W s.H p.1 p.2)).length
  pcA : t.engine.pcA ≤ 4 * b
  x : s.engine.x < 2 ^ 16 → t.engine.x < 2 ^ 16
  y : s.engine.y < 2 ^ 16 → t.engine.y < 2 ^ 16
  rest : t.engine = { s.engine with x := t.engine.x, y := t.engine.y, hc := t.engine.hc, pcA := t.engine.pcA }
  header : ∀ i p, (ps.filter fun p => decide (trailer s.W s.H p.1 p.2))[i]? = some p →
    t.gridRead (pixelIndex s.W p.1 p.2) =
      writeFour (s.gridRead (pixelIndex s.W p.1 p.2)) s.engine.header (s.engine.hc + 4 * i)
  payload : ∀ i p, (ps.filter fun p => !decide (trailer s.W s.H p.1 p.2))[i]? = some p →
    t.gridRead (pixelIndex s.W p.1 p.2) =
      if a + i < b then writeFour (s.gridRead (pixelIndex s.W p.1 p.2)) s.engine.payload (4 * (a + i))
      else s.gridRead (pixelIndex s.W p.1 p.2)
  other : ∀ j, (∀ p ∈ ps, pixelIndex s.W p.1 p.2 ≠ j) → t.gridRead j = s.gridRead j

theorem State.W_lt (s : State) : s.W < 2 ^ 16 := s.width.isLt

theorem State.H_lt (s : State) : s.H < 2 ^ 16 := s.height.isLt

theorem embedAFold (ps : List (Nat × Nat)) (s : State) (a b : Nat) (hps : ∀ p ∈ ps, p.1 < s.W ∧ p.2 < s.H)
    (hnd : ps.Nodup) (hN : s.N ≤ s.params.gridWords) (ha : s.engine.pcA = 4 * a) (hab : a ≤ b)
    (hb : s.engine.len = 4 * b) :
    EmbedAResult s (ps.foldl embedAVisit s) ps a b := by
  induction ps generalizing s a with
  | nil =>
    exact ⟨by simp, by simp; omega, id, id, rfl, by simp, by simp, by simp⟩
  | cons p ps ih =>
    have hp := hps p (by simp)
    have hi : pixelIndex s.W p.1 p.2 < s.params.gridWords := lt_of_lt_of_le (pixelIndex_lt hp.1 hp.2) hN
    have hne : ∀ q ∈ ps, pixelIndex s.W p.1 p.2 ≠ pixelIndex s.W q.1 q.2 := by
      intro q hq h
      have := pixelIndex_inj hp.1 (hps q (List.mem_cons_of_mem _ hq)).1 h
      exact (List.nodup_cons.1 hnd).1 (by rwa [show p = q from Prod.ext this.1 this.2])
    obtain ⟨g, e, hform⟩ := embedAVisit_form s p
    have hW : (embedAVisit s p).W = s.W := by rw [hform]; rfl
    have hH : (embedAVisit s p).H = s.H := by rw [hform]; rfl
    have hNN : (embedAVisit s p).N = s.N := by rw [hform]; rfl
    have hpar : (embedAVisit s p).params = s.params := by rw [hform]
    have hx' : p.1 < 2 ^ 16 := lt_trans hp.1 s.W_lt
    have hy' : p.2 < 2 ^ 16 := lt_trans hp.2 s.H_lt
    have hps' : ∀ q ∈ ps, q.1 < (embedAVisit s p).W ∧ q.2 < (embedAVisit s p).H := by
      rw [hW, hH]; exact fun q hq => hps q (List.mem_cons_of_mem _ hq)
    rw [List.foldl_cons]
    by_cases htr : trailer s.W s.H p.1 p.2
    · obtain ⟨he, hg⟩ := embedAVisit_trailer htr hi
      have r := ih (embedAVisit s p) a hps' (List.nodup_cons.1 hnd).2 (by rw [hNN, hpar]; exact hN) (by rw [he]; exact ha) hab
        (by rw [he]; exact hb)
      refine ⟨?_, r.pcA, fun _ => r.x (by rw [he]; exact hx'), fun _ => r.y (by rw [he]; exact hy'), ?_, ?_, ?_, ?_⟩
      · rw [r.hc, hW, hH, he, List.filter_cons_of_pos (by simpa using htr)]; simp; omega
      · have := r.rest; rw [he] at this; exact this
      · intro i q hq
        rw [List.filter_cons_of_pos (by simpa using htr)] at hq
        cases i with
        | zero =>
          simp only [List.getElem?_cons_zero, Option.some.injEq] at hq; subst hq
          rw [r.other _ (by rw [hW]; exact fun q hq => (hne q hq).symm), hg, if_pos rfl]; rfl
        | succ i =>
          simp only [List.getElem?_cons_succ] at hq
          have hm := (List.mem_filter.1 (List.mem_of_getElem? hq)).1
          have := r.header i q (by rw [hW, hH]; exact hq)
          rw [hW, hg, if_neg (hne q hm), he] at this
          rw [this]; congr 1; simp only; omega
      · intro i q hq
        rw [List.filter_cons_of_neg (by simpa using htr)] at hq
        have hm := (List.mem_filter.1 (List.mem_of_getElem? hq)).1
        have := r.payload i q (by rw [hW, hH]; exact hq)
        rw [hW, hg, if_neg (hne q hm), he] at this
        exact this
      · intro j hj
        have := r.other j (by rw [hW]; exact fun q hq => hj q (List.mem_cons_of_mem _ hq))
        rw [this, hg, if_neg (hj p (by simp))]
    · by_cases hl : s.engine.pcA < s.engine.len
      · obtain ⟨he, hg⟩ := embedAVisit_payload htr hl hi
        have r := ih (embedAVisit s p) (a + 1) hps' (List.nodup_cons.1 hnd).2 (by rw [hNN, hpar]; exact hN)
          (by rw [he]; simp only; omega) (by omega) (by rw [he]; exact hb)
        refine ⟨?_, r.pcA, fun _ => r.x (by rw [he]; exact hx'), fun _ => r.y (by rw [he]; exact hy'), ?_, ?_, ?_, ?_⟩
        · rw [r.hc, hW, hH, he, List.filter_cons_of_neg (by simpa using htr)]
        · have := r.rest; rw [he] at this; exact this
        · intro i q hq
          rw [List.filter_cons_of_neg (by simpa using htr)] at hq
          have hm := (List.mem_filter.1 (List.mem_of_getElem? hq)).1
          have := r.header i q (by rw [hW, hH]; exact hq)
          rw [hW, hg, if_neg (hne q hm), he] at this
          exact this
        · intro i q hq
          rw [List.filter_cons_of_pos (by simpa only [Bool.not_eq_true', decide_eq_false_iff_not] using htr)] at hq
          cases i with
          | zero =>
            simp only [List.getElem?_cons_zero, Option.some.injEq] at hq; subst hq
            rw [r.other _ (by rw [hW]; exact fun q hq => (hne q hq).symm), hg, if_pos rfl, if_pos (by omega), ha]; rfl
          | succ i =>
            simp only [List.getElem?_cons_succ] at hq
            have hm := (List.mem_filter.1 (List.mem_of_getElem? hq)).1
            have := r.payload i q (by rw [hW, hH]; exact hq)
            rw [hW, hg, if_neg (hne q hm), he] at this
            rw [this, show a + 1 + i = a + (i + 1) by omega]
        · intro j hj
          have := r.other j (by rw [hW]; exact fun q hq => hj q (List.mem_cons_of_mem _ hq))
          rw [this, hg, if_neg (hj p (by simp))]
      · have hv := embedAVisit_rest htr hl
        have hab' : a = b := by omega
        have r := ih (embedAVisit s p) a hps' (List.nodup_cons.1 hnd).2 (by rw [hNN, hpar]; exact hN) (by rw [hv]; exact ha) hab
          (by rw [hv]; exact hb)
        rw [hv] at r ⊢
        refine ⟨?_, r.pcA, fun _ => r.x hx', fun _ => r.y hy', r.rest, ?_, ?_, ?_⟩
        · have := r.hc
          rw [List.filter_cons_of_neg (by simpa using htr)]; exact this
        · intro i q hq
          rw [List.filter_cons_of_neg (by simpa using htr)] at hq
          exact r.header i q hq
        · intro i q hq
          rw [List.filter_cons_of_pos (by simpa only [Bool.not_eq_true', decide_eq_false_iff_not] using htr)] at hq
          rw [if_neg (by omega)]
          cases i with
          | zero =>
            simp only [List.getElem?_cons_zero, Option.some.injEq] at hq; subst hq
            exact r.other _ fun q hq => (hne q hq).symm
          | succ i =>
            simp only [List.getElem?_cons_succ] at hq
            exact (r.payload i q hq).trans (if_neg (by omega))
        · exact fun j hj => r.other j fun q hq => hj q (List.mem_cons_of_mem _ hq)

/-- EMBED_A's traversal, when its checks pass (R152): what it leaves in the engine and in every word of GRID. -/
theorem State.embedATraverse_result (s : State) (hN : s.N ≤ s.params.gridWords) :
    EmbedAResult s.startEmbedA s.embedATraverse (columnMajor s.W s.H) 0 (2 * s.count) :=
  embedAFold (columnMajor s.W s.H) s.startEmbedA 0 (2 * s.count) (fun _ hp => mem_columnMajor.1 hp)
    (nodup_columnMajor _ _) hN rfl (Nat.zero_le _) (by simp only [State.startEmbedA]; omega)

theorem capOK_count {s : State} (h : capOK (8 * s.count) s.W s.H) :
    6 ≤ s.W ∧ 1 ≤ s.H ∧ 2 * s.count ≤ s.N - 6 ∧ 6 ≤ s.N ∧ 8 * s.count ≤ 16777215 := by
  obtain ⟨h1, ⟨h2, h3⟩, h4⟩ := h
  have hN : 6 ≤ s.W * s.H := le_trans h2 (Nat.le_mul_of_pos_right _ h3)
  rw [← Nat.cast_mul] at h4
  unfold pixelsForBits at h4
  simp only [Config.maxPayloadBits] at h1
  exact ⟨h2, h3, by unfold State.N; omega, hN, h1⟩

/-- A trailer pixel after EMBED_A (R75, R163): its header bits written. -/
theorem State.embedATraverse_header (s : State) (hN : s.N ≤ s.params.gridWords) (h : capOK (8 * s.count) s.W s.H)
    {j : Nat} (hj : j < 6) :
    s.embedATraverse.gridRead (pixelIndex s.W (trailerPixel s.W s.H j).1 (trailerPixel s.W s.H j).2) =
      writeFour (s.gridRead (pixelIndex s.W (trailerPixel s.W s.H j).1 (trailerPixel s.W s.H j).2))
        (headerBits (8 * s.count)) (4 * j) := by
  obtain ⟨hW, hH, -⟩ := capOK_count h
  have r := (s.embedATraverse_result hN).header j (trailerPixel s.W s.H j)
  rw [State.startEmbedA_W, State.startEmbedA_H, filter_trailer hW hH] at r
  refine (r (by simp [hj])).trans ?_
  rw [State.startEmbedA_gridRead, show s.startEmbedA.engine.hc = 0 from rfl, Nat.zero_add]; rfl

/-- A payload pixel after EMBED_A (R76, R163): its payload bits written, or unchanged beyond the payload (R154). -/
theorem State.embedATraverse_payload (s : State) (hN : s.N ≤ s.params.gridWords) (h : capOK (8 * s.count) s.W s.H)
    {q : Nat} (hq : q < s.N - 6) :
    s.embedATraverse.gridRead (pixelIndex s.W (nt s.W s.H q).1 (nt s.W s.H q).2) =
      if q < 2 * s.count then
        writeFour (s.gridRead (pixelIndex s.W (nt s.W s.H q).1 (nt s.W s.H q).2))
          (bytesToBits (s.pbufBytes s.count)) (4 * q)
      else s.gridRead (pixelIndex s.W (nt s.W s.H q).1 (nt s.W s.H q).2) := by
  obtain ⟨hW, hH, -⟩ := capOK_count h
  have r := (s.embedATraverse_result hN).payload q (nt s.W s.H q)
  rw [State.startEmbedA_W, State.startEmbedA_H, filter_nonTrailer hW hH, Nat.zero_add] at r
  refine (r (by unfold State.N at hq; simp [hq])).trans ?_
  rw [State.startEmbedA_gridRead]; rfl

/-- A GRID word that is no pixel of the grid, after EMBED_A (R154). -/
theorem State.embedATraverse_beyond (s : State) (hN : s.N ≤ s.params.gridWords) {i : Nat} (hi : s.N ≤ i) :
    s.embedATraverse.gridRead i = s.gridRead i := by
  refine ((s.embedATraverse_result hN).other i fun p hp => ?_).trans (by simp)
  have hp := mem_columnMajor.1 hp
  have := pixelIndex_lt hp.1 hp.2
  simp only [State.startEmbedA_W, ne_eq]
  unfold State.N at hi; omega

theorem State.embedATraverse_engine (s : State) (hN : s.N ≤ s.params.gridWords) (h : capOK (8 * s.count) s.W s.H) :
    s.embedATraverse.engine.hc = 24 := by
  obtain ⟨hW, hH, -⟩ := capOK_count h
  have r := (s.embedATraverse_result hN).hc
  rw [State.startEmbedA_W, State.startEmbedA_H, filter_trailer hW hH] at r
  simpa [State.startEmbedA] using r

/-! ### EXTRACT_A -/

/-- The pixels the payload pass reads give their bits, and stop at `k` pixels (R156, R157). -/
theorem extractAFold (ps : List (Nat × Nat)) (s : State) (m k : Nat) (hm : s.engine.pcA = 4 * m) (hmk : m ≤ k)
    (hk : pixelsForBits s.engine.len = k) (hps : ∀ p ∈ ps, p.1 < s.W ∧ p.2 < s.H) :
    ∃ x y, (s.engine.x < 2 ^ 16 → x < 2 ^ 16) ∧ (s.engine.y < 2 ^ 16 → y < 2 ^ 16) ∧
      ps.foldl extractAVisit s =
      { s with
        engine :=
          { s.engine with
            x := x
            y := y
            payload := s.engine.payload ++
              ((ps.filter fun p => !decide (trailer s.W s.H p.1 p.2)).take (k - m)).flatMap fun p =>
                parPixel (s.pixelRead p.1 p.2)
            pcA := 4 * min k (m + (ps.filter fun p => !decide (trailer s.W s.H p.1 p.2)).length) } } := by
  induction ps generalizing s m with
  | nil =>
    refine ⟨s.engine.x, s.engine.y, id, id, ?_⟩
    simp [Nat.min_eq_right hmk, ← hm]
  | cons p ps ih =>
    have hp := hps p (by simp)
    have hx' : p.1 < 2 ^ 16 := lt_trans hp.1 s.W_lt
    have hy' : p.2 < 2 ^ 16 := lt_trans hp.2 s.H_lt
    rw [List.foldl_cons]
    by_cases hfull : m = k
    · have hv : extractAVisit s p = s := if_pos (by rw [hm, hk, hfull])
      obtain ⟨x, y, hx, hy, h⟩ := ih s m hm hmk hk fun q hq => hps q (List.mem_cons_of_mem _ hq)
      refine ⟨x, y, hx, hy, ?_⟩
      rw [hv, h]
      subst hfull
      simp
    · have hnf : ¬ s.engine.pcA = 4 * pixelsForBits s.engine.len := by omega
      by_cases htr : trailer s.W s.H p.1 p.2
      · have hv : extractAVisit s p = s.moveTo p.1 p.2 := (if_neg hnf).trans (if_pos htr)
        obtain ⟨x, y, hx, hy, h⟩ := ih (s.moveTo p.1 p.2) m hm hmk hk fun q hq => hps q (List.mem_cons_of_mem _ hq)
        refine ⟨x, y, fun _ => hx hx', fun _ => hy hy', ?_⟩
        rw [hv, h, List.filter_cons_of_neg (by simpa using htr)]
        rfl
      · have hv : extractAVisit s p =
            { s with
              engine :=
                { s.engine with
                  x := p.1
                  y := p.2
                  payload := s.engine.payload ++ parPixel (s.pixelRead p.1 p.2)
                  pcA := s.engine.pcA + 4 } } := (if_neg hnf).trans ((if_neg htr).trans rfl)
        obtain ⟨x, y, hx, hy, h⟩ := ih (extractAVisit s p) (m + 1) (by rw [hv]; simp only; omega) (by omega)
          (by rw [hv]; exact hk) (by rw [hv]; exact fun q hq => hps q (List.mem_cons_of_mem _ hq))
        rw [hv] at h hx hy ⊢
        refine ⟨x, y, fun _ => hx hx', fun _ => hy hy', ?_⟩
        rw [h, List.filter_cons_of_pos (by simpa only [Bool.not_eq_true', decide_eq_false_iff_not] using htr),
          show k - m = k - (m + 1) + 1 by omega, List.take_succ_cons, List.flatMap_cons, List.length_cons]
        rw [← List.append_assoc, show m + ((ps.filter fun p => !decide (trailer s.W s.H p.1 p.2)).length + 1) =
          m + 1 + (ps.filter fun p => !decide (trailer s.W s.H p.1 p.2)).length by omega]
        rfl

theorem State.length_payloadBits (s : State) (k : Nat) : (s.payloadBits k).length = 4 * k := by
  simp [State.payloadBits, List.length_flatMap]; omega

/-- EXTRACT_A's payload pass, when its checks pass: it reads exactly NT(0)..NT(k - 1) and writes no memory (R156, R157). -/
theorem State.extractATraverse_eq (s : State) (hW : 6 ≤ s.W) (hH : 1 ≤ s.H)
    (hk : pixelsForBits (headerDecode s.readHeader) ≤ s.N - 6) :
    ∃ x y, x < 2 ^ 16 ∧ y < 2 ^ 16 ∧
      s.extractATraverse =
      { s with
        engine :=
          { s.engine with
            x := x
            y := y
            header := s.readHeader
            hc := 24
            len := headerDecode s.readHeader
            payload := s.payloadBits (pixelsForBits (headerDecode s.readHeader))
            pcA := 4 * pixelsForBits (headerDecode s.readHeader) } } := by
  obtain ⟨x, y, hx, hy, h⟩ := extractAFold (columnMajor s.W s.H) s.startExtractA 0
    (pixelsForBits (headerDecode s.readHeader)) rfl (Nat.zero_le _) rfl fun p hp => mem_columnMajor.1 hp
  have hWlt := s.W_lt
  have hHlt := s.H_lt
  refine ⟨x, y, hx (by simp only [State.startExtractA]; omega), hy (by simp only [State.startExtractA]; omega), ?_⟩
  rw [State.startExtractA_W, State.startExtractA_H, filter_nonTrailer hW hH] at h
  have hk' : pixelsForBits (headerDecode s.readHeader) ≤ s.W * s.H - 6 := hk
  rw [State.extractATraverse, h, Nat.sub_zero, ← List.map_take, List.take_range, Nat.min_eq_left hk', List.length_map,
    List.length_range, Nat.zero_add, Nat.min_eq_left hk', List.flatMap_map]
  rfl

@[simp] theorem State.length_readHeader (s : State) : s.readHeader.length = 24 := by
  simp [State.readHeader, List.length_flatMap, Config.trailerPixels]

/-! ### Every pixel, and what the results depend on -/

theorem State.six_le_N {s : State} (hW : 6 ≤ s.W) (hH : 1 ≤ s.H) : 6 ≤ s.N :=
  le_trans hW (Nat.le_mul_of_pos_right _ hH)

/-- Every GRID index of the grid is a trailer pixel's or a payload pixel's (R135, R136). -/
theorem State.trailer_or_nt (s : State) (hW : 6 ≤ s.W) (hH : 1 ≤ s.H) {i : Nat} (hi : i < s.N) :
    (∃ j, j < 6 ∧ pixelIndex s.W (trailerPixel s.W s.H j).1 (trailerPixel s.W s.H j).2 = i) ∨
    ∃ q, q < s.N - 6 ∧ pixelIndex s.W (nt s.W s.H q).1 (nt s.W s.H q).2 = i := by
  have hN : i < s.W * s.H := hi
  have hpix : pixelIndex s.W (i % s.W) (i / s.W) = i := by
    unfold pixelIndex; rw [Nat.mul_comm]; exact Nat.div_add_mod i s.W
  have hm : (i % s.W, i / s.W) ∈ columnMajor s.W s.H :=
    mem_columnMajor.2 ⟨Nat.mod_lt _ (by omega), Nat.div_lt_of_lt_mul hN⟩
  by_cases ht : trailer s.W s.H (i % s.W) (i / s.W)
  · have h : (i % s.W, i / s.W) ∈ (columnMajor s.W s.H).filter fun p => decide (trailer s.W s.H p.1 p.2) :=
      List.mem_filter.2 ⟨hm, decide_eq_true ht⟩
    rw [filter_trailer hW hH, List.mem_map] at h
    obtain ⟨j, hj, he⟩ := h
    exact .inl ⟨j, List.mem_range.1 hj, by rw [he]; exact hpix⟩
  · have h : (i % s.W, i / s.W) ∈ (columnMajor s.W s.H).filter fun p => !decide (trailer s.W s.H p.1 p.2) :=
      List.mem_filter.2 ⟨hm, by simpa only [Bool.not_eq_true', decide_eq_false_iff_not] using ht⟩
    rw [filter_nonTrailer hW hH, List.mem_map] at h
    obtain ⟨q, hq, he⟩ := h
    exact .inr ⟨q, List.mem_range.1 hq, by rw [he]; exact hpix⟩

theorem writeFour_upper (P : Word) (p : Bits) (n : Nat) : writeFour P p n &&& 0xFEFEFEFE = P &&& 0xFEFEFEFE :=
  parityWritePixel_upper _ _ _ _ _

theorem parPixel_writeFour (P : Word) (p : Bits) (n : Nat) (h : n + 4 ≤ p.length) :
    parPixel (writeFour P p n) = (p.drop n).take 4 := by
  rw [writeFour, parPixel_parityWritePixel, drop_take_four _ _ h]

@[simp] theorem State.length_pbufBytes (s : State) (n : Nat) : (s.pbufBytes n).length = n := by simp [State.pbufBytes]

/-- The header read depends on the image alone. -/
theorem State.readHeader_congr {s s' : State} (hw : s'.W = s.W) (hh : s'.H = s.H)
    (hg : ∀ p, p < s.N → s'.gridRead p = s.gridRead p) (hW : 6 ≤ s.W) (hH : 1 ≤ s.H) : s'.readHeader = s.readHeader := by
  unfold State.readHeader
  refine List.flatMap_congr fun j hj => ?_
  have := trailerPixel_mem hW hH (List.mem_range.1 hj)
  rw [State.pixelRead, State.pixelRead, hw, hh, hg _ (pixelIndex_lt this.1 this.2)]

/-- The payload bits read depend on the image alone. -/
theorem State.payloadBits_congr {s s' : State} (hw : s'.W = s.W) (hh : s'.H = s.H)
    (hg : ∀ p, p < s.N → s'.gridRead p = s.gridRead p) (hW : 6 ≤ s.W) (hH : 1 ≤ s.H) {k : Nat} (hk : k ≤ s.N - 6) :
    s'.payloadBits k = s.payloadBits k := by
  unfold State.payloadBits
  refine List.flatMap_congr fun q hq => ?_
  have hq := List.mem_range.1 hq
  have := nt_mem hW hH (q := q) (by unfold State.N at hk; omega)
  rw [State.pixelRead, State.pixelRead, hw, hh, hg _ (pixelIndex_lt this.1 this.2.1)]

end Sys2Proof.Machine
end

