-- ==== Sys2Proof/Laws/VariantB.lean ====
section
/-! SUPPORT. What the traversals of Variant B do (R181, R190): the engine's variables before each slot, by one lemma per
slot, and from it the closed form of each traversal by one induction over the pixels. -/

namespace Sys2Proof.Machine

/-! ### Small facts -/

theorem nextBit_value : ∀ (c : Byte) (i : Fin 8),
    (c >>> i.val) % 2 = (BitVec.ofBool (c.getLsbD i.val)).setWidth 8 ∧ (c >>> i.val) / 2 = c >>> (i.val + 1) := by
  decide +kernel

@[simp] theorem Flow.andThen_go (s : State) (f : State → Flow) : (Flow.go s).andThen f = f s := rfl

@[simp] theorem Flow.andThen_stop (s : State) (f : State → Flow) : (Flow.stop s).andThen f = .stop s := rfl

/-- The p-th pixel of the row-major order is the pixel at GRID index p (R133). -/
theorem pixelIndex_rowMajor {W : Nat} (p : Nat) : pixelIndex W (p % W) (p / W) = p := by
  unfold pixelIndex; rw [Nat.mul_comm]; exact Nat.div_add_mod p W

/-! ### EMBED_B -/

/-- The engine of EMBED_B before slot `n` (R180, R183, R184), for the text of `s`. -/
structure EmbedBAt (s : State) (e : Engine) (n : Nat) : Prop where
  slot : e.slot = n
  hide : n ≤ 8 * s.count → e.mode = .hiding ∧ e.zeros = 0 ∧ e.ci = (n + 7) / 8 ∧
    (n % 8 ≠ 0 → e.cv = s.pbufRead (n / 8) >>> (n % 8))
  fill : 8 * s.count < n → e.mode = .fillingZeros ∧ e.zeros = n - 8 * s.count ∧ e.ci = s.count

/-- The engine of EMBED_B inside slot `n`, after the transition of R180. -/
structure EmbedBIn (s : State) (e : Engine) (n : Nat) : Prop where
  slot : e.slot = n
  hide : n < 8 * s.count → e.mode = .hiding ∧ e.zeros = 0 ∧ e.ci = n / 8 + 1 ∧
    e.cv = s.pbufRead (n / 8) >>> (n % 8)
  fill : 8 * s.count ≤ n → e.mode = .fillingZeros ∧ e.zeros = n - 8 * s.count ∧ e.ci = s.count

/-- The engine variables that the slots of EMBED_B do not use are the same in both. -/
def EmbedBSame (d e : Engine) : Prop :=
  ∃ m n z c v r g b, e = { d with mode := m, slot := n, zeros := z, ci := c, cv := v, r := r, g := g, b := b }

/-- The transition before a slot that is not past the terminator never stops (R180). -/
theorem embedBGroupStart_go (s u : State) (p : Nat × Nat) (P : Word) (k n : Nat) (ha : EmbedBAt s u.engine n)
    (hn : n < 8 * s.count + 8) (hc : u.count = s.count) (hp : ∀ i, u.pbufRead i = s.pbufRead i) :
    ∃ m c v, embedBGroupStart p P k u = .go { u with engine := { u.engine with mode := m, ci := c, cv := v } } ∧
      EmbedBIn s { u.engine with mode := m, ci := c, cv := v } n := by
  have h8 : Config.bSlotsPerChar = 8 := rfl
  unfold embedBGroupStart
  rw [ha.slot, hc, h8]
  by_cases hg : n % 8 = 0
  · have hle : n ≤ 8 * s.count := by omega
    obtain ⟨hm, hz, hci, -⟩ := ha.hide hle
    rw [if_pos hg, if_neg (by simp [hm]), hci]
    by_cases hlt : n < 8 * s.count
    · rw [if_neg (by omega)]
      refine ⟨_, _, _, rfl, ⟨ha.slot, fun _ => ⟨hm, hz, by simp only; omega, ?_⟩, fun h => by omega⟩⟩
      simp only [hp, hci, hg, show (n + 7) / 8 = n / 8 by omega, BitVec.ushiftRight_zero]
    · rw [if_pos (by omega)]
      refine ⟨_, _, _, rfl, ⟨ha.slot, fun h => by omega, fun _ => ⟨rfl, by simp only; omega, by simp only; omega⟩⟩⟩
  · rw [if_neg hg]
    refine ⟨u.engine.mode, u.engine.ci, u.engine.cv, rfl, ⟨ha.slot, fun h => ?_, fun h => ha.fill (by omega)⟩⟩
    obtain ⟨hm, hz, hci, hcv⟩ := ha.hide (by omega)
    exact ⟨hm, hz, by simp only; omega, hcv hg⟩

theorem State.pixelWrite_withEngine (s : State) (e : Engine) (x y : Nat) (P : Word) :
    State.pixelWrite { s with engine := e } x y P = { s.pixelWrite x y P with engine := e } := by
  show (if pixelIndex s.W x y < s.params.gridWords then _ else _) = _
  unfold State.pixelWrite State.gridWrite
  split <;> rfl

/-- Ending the slot does not touch what its commit writes. -/
theorem State.endSlot_commitFull (t : State) (p : Nat × Nat) (P : Word) (k : Nat) :
    (t.commitFull p P k).endSlot = State.commitFull { t with engine := t.endSlot.engine } p P k := by
  unfold State.commitFull
  split
  · obtain ⟨g, hw⟩ := t.pixelWrite_form p.1 p.2 (t.workingPixel P)
    refine Eq.trans ?_ (State.pixelWrite_withEngine t t.endSlot.engine p.1 p.2 (t.workingPixel P)).symm
    rw [hw]
    rfl
  · rfl

/-- One slot before the end of the terminator (R183 to R185): slot `k` of pixel `p`, being slot number `n`. -/
theorem embedBSlot_go (s u : State) (p : Nat × Nat) (P : Word) (k n : Nat) (hk : k < 3) (ha : EmbedBAt s u.engine n)
    (hn : n < 8 * s.count + 8) (hc : u.count = s.count) (hp : ∀ i, u.pbufRead i = s.pbufRead i) :
    ∃ e, embedBSlot p P k u = .go (State.commitFull { u with engine := e } p P k) ∧ EmbedBAt s e (n + 1) ∧
      e.r = u.engine.r + (if k = 0 then (BitVec.ofBool (s.textBit n)).setWidth 8 else 0) ∧
      e.g = u.engine.g + (if k = 1 then (BitVec.ofBool (s.textBit n)).setWidth 8 else 0) ∧
      e.b = u.engine.b + (if k = 2 then (BitVec.ofBool (s.textBit n)).setWidth 8 else 0) ∧
      EmbedBSame u.engine e := by
  obtain ⟨m, c, v, he, hin⟩ := embedBGroupStart_go s u p P k n ha hn hc hp
  generalize he' : ({ u.engine with mode := m, ci := c, cv := v } : Engine) = e at he hin
  have hform : ∀ d, { State.writeSlot { u with engine := e } k with engine := d } = { u with engine := d } := by
    intro d; unfold State.writeSlot State.addToChannel; split <;> (try split) <;> (try split) <;> rfl
  refine ⟨(State.writeSlot { u with engine := e } k).endSlot.engine, ?_, ?_⟩
  · rw [embedBSlot, he, Flow.andThen_go, State.endSlot_commitFull, hform]
  have hr : e.r = u.engine.r := by rw [← he']
  have hgr : e.g = u.engine.g := by rw [← he']
  have hb : e.b = u.engine.b := by rw [← he']
  by_cases hlt : n < 8 * s.count
  · obtain ⟨hm, hz, hci, hcv⟩ := hin.hide hlt
    obtain ⟨hb1, hb2⟩ := nextBit_value (s.pbufRead (n / 8)) ⟨n % 8, Nat.mod_lt _ (by decide)⟩
    have hbit : s.textBit n = (s.pbufRead (n / 8)).getLsbD (n % 8) := if_pos hlt
    simp only at hb1 hb2
    rw [← hcv] at hb1 hb2
    have hE : (State.writeSlot { u with engine := e } k).endSlot.engine =
        { e with
          slot := n + 1
          cv := s.pbufRead (n / 8) >>> (n % 8 + 1)
          r := e.r + (if k = 0 then (BitVec.ofBool (s.textBit n)).setWidth 8 else 0)
          g := e.g + (if k = 1 then (BitVec.ofBool (s.textBit n)).setWidth 8 else 0)
          b := e.b + (if k = 2 then (BitVec.ofBool (s.textBit n)).setWidth 8 else 0) } := by
      rw [hbit, ← hb1, ← hb2, ← hin.slot]
      unfold State.writeSlot State.endSlot State.addToChannel
      rcases (show k = 0 ∨ k = 1 ∨ k = 2 by omega) with rfl | rfl | rfl <;> simp [hm, State.dropBit]
    rw [hE]
    refine ⟨⟨rfl, fun hle => ⟨hm, hz, by simp only [hci]; omega, fun h8 => ?_⟩, fun h => by omega⟩, ?_⟩
    · simp only [show (n + 1) / 8 = n / 8 by omega, show (n + 1) % 8 = n % 8 + 1 by omega]
    · rw [← hr, ← hgr, ← hb]
      exact ⟨rfl, rfl, rfl, ⟨_, _, _, _, _, _, _, _, by rw [← he']⟩⟩
  · obtain ⟨hm, hz, hci⟩ := hin.fill (by omega)
    have hbit : s.textBit n = false := if_neg hlt
    have hE : (State.writeSlot { u with engine := e } k).endSlot.engine =
        { e with slot := n + 1, zeros := e.zeros + 1 } := by
      rw [← hin.slot]
      simp only [State.writeSlot, State.endSlot, hm]
    rw [hE, hbit]
    refine ⟨⟨rfl, fun hle => by omega, fun _ => ⟨hm, by simp only; omega, hci⟩⟩, ?_⟩
    rw [← hr, ← hgr, ← hb]
    refine ⟨by split <;> simp, by split <;> simp, by split <;> simp, ⟨_, _, _, _, _, _, _, _, by rw [← he']⟩⟩

/-- The slot at which the terminator is complete stops the command, with the partial-pixel commit of R186. -/
theorem embedBSlot_stop (s u : State) (p : Nat × Nat) (P : Word) (k : Nat) (ha : EmbedBAt s u.engine (8 * s.count + 8)) :
    embedBSlot p P k u = .stop (if k ≠ 0 then u.pixelWrite p.1 p.2 (u.workingPixel P) else u) := by
  obtain ⟨hm, hz, -⟩ := ha.fill (by omega)
  have h8 : Config.bSlotsPerChar = 8 := rfl
  have hz8 : Config.bZeroFill = 8 := rfl
  unfold embedBSlot embedBGroupStart
  rw [ha.slot, h8, hz8, if_pos (by omega), if_pos ⟨hm, by omega⟩, Flow.andThen_stop]

/-- The engine variables that EMBED_B does not use are the same in both. -/
structure EmbedBKept (d e : Engine) : Prop where
  op : e.op = d.op
  hc : e.hc = d.hc
  pcA : e.pcA = d.pcA
  len : e.len = d.len
  header : e.header = d.header
  payload : e.payload = d.payload
  acc : e.acc = d.acc
  ol : e.ol = d.ol

theorem EmbedBSame.kept {d e : Engine} (h : EmbedBSame d e) : EmbedBKept d e ∧ e.x = d.x ∧ e.y = d.y := by
  obtain ⟨m, n, z, c, v, r, g, b, rfl⟩ := h
  exact ⟨⟨rfl, rfl, rfl, rfl, rfl, rfl, rfl, rfl⟩, rfl, rfl⟩

theorem EmbedBKept.trans {c d e : Engine} (h : EmbedBKept c d) (h' : EmbedBKept d e) : EmbedBKept c e :=
  ⟨h'.op.trans h.op, h'.hc.trans h.hc, h'.pcA.trans h.pcA, h'.len.trans h.len, h'.header.trans h.header,
    h'.payload.trans h.payload, h'.acc.trans h.acc, h'.ol.trans h.ol⟩

/-- The state `t` that EMBED_B leaves when it has visited pixel number `q` from `u`, for the text and sizes of `s`. -/
structure EmbedBPixel (s u t : State) (q : Nat) : Prop where
  form : ∃ g e, t = { u with grid := g, engine := e }
  at_ : EmbedBAt s t.engine (min (3 * q + 3) (8 * s.count + 8))
  kept : EmbedBKept u.engine t.engine
  x : t.engine.x = q % s.W
  y : t.engine.y = q / s.W
  grid : ∀ j, t.gridRead j =
    if j = q ∧ 3 * q < 8 * s.count + 8 then
      pix (chan (u.gridRead q) .A) (parityWrite (chan (u.gridRead q) .R) (s.textBit (3 * q)))
        (parityWrite (chan (u.gridRead q) .G) (s.textBit (3 * q + 1)))
        (parityWrite (chan (u.gridRead q) .B) (s.textBit (3 * q + 2)))
    else u.gridRead j

theorem textBit_past {s : State} {n : Nat} (h : 8 * s.count ≤ n) : s.textBit n = false := if_neg (by omega)

/-- Writing pixel number `q` through the working copies. -/
theorem State.gridRead_commit (u : State) (e : Engine) (q j : Nat) (P : Word) (hq : q < u.params.gridWords) :
    (State.pixelWrite { u with engine := e } (q % u.W) (q / u.W) P).gridRead j = if j = q then P else u.gridRead j := by
  have h := State.gridRead_pixelWrite { u with engine := e } (q % u.W) (q / u.W) j P
    (by rw [show State.W { u with engine := e } = u.W from rfl, pixelIndex_rowMajor]; exact hq)
  rw [show State.W { u with engine := e } = u.W from rfl, pixelIndex_rowMajor] at h
  rw [h]
  by_cases hj : j = q
  · rw [if_pos hj, if_pos hj.symm]
  · rw [if_neg hj, if_neg (fun h => hj h.symm)]; rfl

theorem State.pixelWrite_form' (u : State) (e : Engine) (x y : Nat) (P : Word) :
    ∃ g, State.pixelWrite { u with engine := e } x y P = { u with grid := g, engine := e } := by
  obtain ⟨g, h⟩ := State.pixelWrite_form { u with engine := e } x y P
  exact ⟨g, h⟩

/-- One pixel of EMBED_B (R181 to R186). -/
theorem embedBVisit_result (s u : State) (q : Nat) (hW : u.W = s.W) (hq : q < u.params.gridWords)
    (hc : u.count = s.count) (hp : ∀ i, u.pbufRead i = s.pbufRead i) (ha : EmbedBAt s u.engine (3 * q))
    (hT : 3 * q ≤ 8 * s.count + 8) :
    ∃ t, embedBVisit (q % s.W, q / s.W) u = (if 3 * q + 3 ≤ 8 * s.count + 8 then .go t else .stop t) ∧
      EmbedBPixel s u t q := by
  have hP : u.pixelRead (q % s.W) (q / s.W) = u.gridRead q := by
    rw [State.pixelRead, hW, pixelIndex_rowMajor]
  generalize hPd : u.gridRead q = P at hP
  have hv : embedBVisit (q % s.W, q / s.W) u = ((embedBSlot (q % s.W, q / s.W) P 0
      ((u.moveTo (q % s.W) (q / s.W)).loadWorking P)).andThen (embedBSlot (q % s.W, q / s.W) P 1)).andThen
      (embedBSlot (q % s.W, q / s.W) P 2) := by
    unfold embedBVisit; simp only [hP]
  rw [hv]
  have he0 : ∃ e0, (u.moveTo (q % s.W) (q / s.W)).loadWorking P = { u with engine := e0 } ∧ EmbedBAt s e0 (3 * q) ∧
      EmbedBKept u.engine e0 ∧ e0.x = q % s.W ∧ e0.y = q / s.W ∧ e0.r = lsbClear (chan P .R) ∧
      e0.g = lsbClear (chan P .G) ∧ e0.b = lsbClear (chan P .B) :=
    ⟨_, rfl, ⟨ha.slot, ha.hide, ha.fill⟩, ⟨rfl, rfl, rfl, rfl, rfl, rfl, rfl, rfl⟩, rfl, rfl, rfl, rfl, rfl⟩
  obtain ⟨e0, h0, ha0, hk0, hx0, hy0, hr0, hg0, hb0⟩ := he0
  rw [h0]
  rcases Nat.eq_or_lt_of_le hT with h | h
  · -- the stop comes before the pixel's first slot
    rw [embedBSlot_stop s { u with engine := e0 } _ P 0 (by rw [← h]; exact ha0), if_neg (by decide), Flow.andThen_stop,
      Flow.andThen_stop]
    refine ⟨{ u with engine := e0 }, (if_neg (by omega)).symm, ⟨⟨_, _, rfl⟩, ?_, hk0, hx0, hy0, fun j => ?_⟩⟩
    · rw [Nat.min_eq_right (by omega), ← h]; exact ha0
    · rw [if_neg (by omega)]; rfl
  obtain ⟨e1, h1, ha1, hr1, hg1, hb1, hs1⟩ :=
    embedBSlot_go s { u with engine := e0 } (q % s.W, q / s.W) P 0 (3 * q) (by decide) ha0 h hc hp
  replace h1 : embedBSlot (q % s.W, q / s.W) P 0 { u with engine := e0 } =
      .go (State.commitFull { u with engine := e1 } (q % s.W, q / s.W) P 0) := h1
  obtain ⟨hk1, hx1, hy1⟩ := hs1.kept
  rw [h1, Flow.andThen_go, show ∀ w : State, w.commitFull (q % s.W, q / s.W) P 0 = w from fun w => rfl]
  rcases Nat.eq_or_lt_of_le (show 3 * q + 1 ≤ 8 * s.count + 8 by omega) with h' | h'
  · -- the stop comes at k = 1
    rw [embedBSlot_stop s { u with engine := e1 } _ P 1 (by rw [← h']; exact ha1), Flow.andThen_stop,
      if_pos (by decide)]
    refine ⟨_, (if_neg (by omega)).symm, ⟨State.pixelWrite_form' u e1 _ _ _ |>.imp fun g hg => ⟨e1, hg⟩, ?_, ?_, ?_, ?_, fun j => ?_⟩⟩
    · rw [State.pixelWrite_engine, Nat.min_eq_right (by omega), ← h']; exact ha1
    · rw [State.pixelWrite_engine]; exact hk0.trans hk1
    · rw [State.pixelWrite_engine]; exact hx1.trans hx0
    · rw [State.pixelWrite_engine]; exact hy1.trans hy0
    · simp only [← hW]
      rw [State.gridRead_commit u e1 q j _ hq, hPd]
      by_cases hj : j = q
      · rw [if_pos hj, if_pos ⟨hj, h⟩, textBit_past (n := 3 * q + 1) (by omega), textBit_past (n := 3 * q + 2) (by omega)]
        simp [State.workingPixel, hr1, hg1, hb1, hr0, hg0, hb0, lsbClear_add_bit, ← lsbClear_eq_parityWrite]
      · rw [if_neg hj, if_neg (fun hh => hj hh.1)]
  obtain ⟨e2, h2, ha2, hr2, hg2, hb2, hs2⟩ :=
    embedBSlot_go s { u with engine := e1 } (q % s.W, q / s.W) P 1 (3 * q + 1) (by decide) ha1 h' hc hp
  replace h2 : embedBSlot (q % s.W, q / s.W) P 1 { u with engine := e1 } =
      .go (State.commitFull { u with engine := e2 } (q % s.W, q / s.W) P 1) := h2
  obtain ⟨hk2, hx2, hy2⟩ := hs2.kept
  rw [h2, Flow.andThen_go, show ∀ w : State, w.commitFull (q % s.W, q / s.W) P 1 = w from fun w => rfl]
  rcases Nat.eq_or_lt_of_le (show 3 * q + 1 + 1 ≤ 8 * s.count + 8 by omega) with h'' | h''
  · -- the stop comes at k = 2
    rw [embedBSlot_stop s { u with engine := e2 } _ P 2 (by rw [← h'']; exact ha2), if_pos (by decide)]
    refine ⟨_, (if_neg (by omega)).symm, ⟨State.pixelWrite_form' u e2 _ _ _ |>.imp fun g hg => ⟨e2, hg⟩, ?_, ?_, ?_, ?_, fun j => ?_⟩⟩
    · rw [State.pixelWrite_engine, Nat.min_eq_right (by omega), ← h'']; exact ha2
    · rw [State.pixelWrite_engine]; exact (hk0.trans hk1).trans hk2
    · rw [State.pixelWrite_engine]; exact hx2.trans (hx1.trans hx0)
    · rw [State.pixelWrite_engine]; exact hy2.trans (hy1.trans hy0)
    · simp only [← hW]
      rw [State.gridRead_commit u e2 q j _ hq, hPd]
      by_cases hj : j = q
      · rw [if_pos hj, if_pos ⟨hj, h⟩, textBit_past (n := 3 * q + 2) (by omega)]
        simp [State.workingPixel, hr2, hg2, hb2, hr1, hg1, hb1, hr0, hg0, hb0, lsbClear_add_bit, ← lsbClear_eq_parityWrite]
      · rw [if_neg hj, if_neg (fun hh => hj hh.1)]
  obtain ⟨e3, h3, ha3, hr3, hg3, hb3, hs3⟩ :=
    embedBSlot_go s { u with engine := e2 } (q % s.W, q / s.W) P 2 (3 * q + 1 + 1) (by decide) ha2 h'' hc hp
  replace h3 : embedBSlot (q % s.W, q / s.W) P 2 { u with engine := e2 } =
      .go (State.commitFull { u with engine := e3 } (q % s.W, q / s.W) P 2) := h3
  obtain ⟨hk3, hx3, hy3⟩ := hs3.kept
  rw [h3, show State.commitFull { u with engine := e3 } (q % s.W, q / s.W) P 2 =
    State.pixelWrite { u with engine := e3 } (q % s.W) (q / s.W) (State.workingPixel { u with engine := e3 } P) from rfl]
  refine ⟨_, (if_pos (by omega)).symm, ⟨State.pixelWrite_form' u e3 _ _ _ |>.imp fun g hg => ⟨e3, hg⟩, ?_, ?_, ?_, ?_, fun j => ?_⟩⟩
  · rw [State.pixelWrite_engine, Nat.min_eq_left (by omega)]; exact ha3
  · rw [State.pixelWrite_engine]; exact ((hk0.trans hk1).trans hk2).trans hk3
  · rw [State.pixelWrite_engine]; exact hx3.trans (hx2.trans (hx1.trans hx0))
  · rw [State.pixelWrite_engine]; exact hy3.trans (hy2.trans (hy1.trans hy0))
  · simp only [← hW]
    rw [State.gridRead_commit u e3 q j _ hq, hPd]
    by_cases hj : j = q
    · rw [if_pos hj, if_pos ⟨hj, h⟩]
      simp [State.workingPixel, hr3, hg3, hb3, hr2, hg2, hb2, hr1, hg1, hb1, hr0, hg0, hb0, lsbClear_add_bit]
    · rw [if_neg hj, if_neg (fun hh => hj hh.1)]

/-- What visiting the pixels `a .. a + m - 1` from `u` leaves, for the text and grid of `s`. -/
structure EmbedBResult (s u t : State) (a m : Nat) : Prop where
  form : ∃ g e, t = { u with grid := g, engine := e }
  at_ : EmbedBAt s t.engine (min (3 * (a + m)) (8 * s.count + 8))
  kept : EmbedBKept u.engine t.engine
  x : u.engine.x < 2 ^ 16 → t.engine.x < 2 ^ 16
  y : u.engine.y < 2 ^ 16 → t.engine.y < 2 ^ 16
  grid : ∀ j, t.gridRead j =
    if (a ≤ j ∧ j < a + m) ∧ 3 * j < 8 * s.count + 8 then s.textPixel j else u.gridRead j

/-- The pixels `a .. a + m - 1` of the row-major order. -/
def pixelsFrom (W a m : Nat) : List (Nat × Nat) := (List.range' a m).map fun q => (q % W, q / W)

theorem pixelsFrom_succ (W a m : Nat) : pixelsFrom W a (m + 1) = (a % W, a / W) :: pixelsFrom W (a + 1) m := by
  simp [pixelsFrom, List.range'_succ]

theorem rowMajor_pixelsFrom (W H : Nat) : rowMajor W H = pixelsFrom W 0 (W * H) := by
  rw [rowMajor_eq, pixelsFrom, List.range_eq_range']

/-- The coordinates of a pixel number of the grid fit the cursor. -/
theorem State.cursor_lt (s : State) {q : Nat} (h : q < s.N) : q % s.W < 2 ^ 16 ∧ q / s.W < 2 ^ 16 := by
  have hN : q < s.W * s.H := h
  have hW : 0 < s.W := Nat.pos_of_ne_zero fun h0 => by rw [h0, Nat.zero_mul] at hN; omega
  exact ⟨(Nat.mod_lt _ hW).trans s.width.isLt, (Nat.div_lt_of_lt_mul hN).trans s.height.isLt⟩

theorem embedBVisits (s : State) (m : Nat) : ∀ (a : Nat) (u : State), u.W = s.W → a + m ≤ s.N → s.N ≤ u.params.gridWords →
    u.count = s.count → (∀ i, u.pbufRead i = s.pbufRead i) → (∀ j, a ≤ j → u.gridRead j = s.gridRead j) →
    EmbedBAt s u.engine (3 * a) → 3 * a ≤ 8 * s.count + 8 →
    ∃ t, visitAll embedBVisit (pixelsFrom s.W a m) u =
        (if 3 * (a + m) ≤ 8 * s.count + 8 then .go t else .stop t) ∧ EmbedBResult s u t a m := by
  induction m with
  | zero =>
    intro a u _ _ _ _ _ _ ha hT
    refine ⟨u, (if_pos (by omega)).symm, ⟨⟨_, _, rfl⟩, by rw [Nat.min_eq_left (by omega)]; exact ha,
      ⟨rfl, rfl, rfl, rfl, rfl, rfl, rfl, rfl⟩, id, id, fun j => (if_neg (by omega)).symm⟩⟩
  | succ m ih =>
    intro a u hW hN hG hc hp hg ha hT
    obtain ⟨t, ht, r⟩ := embedBVisit_result s u a hW (by omega) hc hp ha hT
    obtain ⟨hx, hy⟩ := s.cursor_lt (q := a) (by omega)
    have hpix : ∀ j, t.gridRead j = if j = a ∧ 3 * a < 8 * s.count + 8 then s.textPixel a else u.gridRead j := by
      intro j
      rw [r.grid, hg a le_rfl]; rfl
    rw [pixelsFrom_succ, visitAll, ht]
    by_cases hgo : 3 * a + 3 ≤ 8 * s.count + 8
    · rw [if_pos hgo, Flow.andThen_go]
      obtain ⟨g, e, hf⟩ := r.form
      have hat := r.at_
      rw [Nat.min_eq_left hgo] at hat
      obtain ⟨t', ht', r'⟩ := ih (a + 1) t (by rw [hf]; exact hW) (by omega) (by rw [hf]; exact hG) (by rw [hf]; exact hc)
        (by rw [hf]; exact hp) (fun j hj => by rw [hpix, if_neg (by omega)]; exact hg j (by omega)) hat (by omega)
      rw [show a + 1 + m = a + (m + 1) by omega] at ht'
      refine ⟨t', ht', ⟨?_, ?_, r.kept.trans r'.kept, fun _ => r'.x (by rw [r.x]; exact hx),
        fun _ => r'.y (by rw [r.y]; exact hy), fun j => ?_⟩⟩
      · obtain ⟨g', e', hf'⟩ := r'.form
        exact ⟨g', e', by rw [hf', hf]⟩
      · have := r'.at_
        rwa [show a + 1 + m = a + (m + 1) by omega] at this
      · rw [r'.grid, hpix]
        by_cases hj : j = a
        · subst hj
          rw [if_neg (by omega), if_pos (by omega), if_pos (by omega)]
        · rw [if_neg (c := j = a ∧ _) (by omega)]
          by_cases hj' : (a + 1 ≤ j ∧ j < a + 1 + m) ∧ 3 * j < 8 * s.count + 8
          · rw [if_pos hj', if_pos (by omega)]
          · rw [if_neg hj', if_neg (by omega)]
    · rw [if_neg hgo, Flow.andThen_stop]
      refine ⟨t, (if_neg (by omega)).symm, ⟨r.form, ?_, r.kept, fun _ => by rw [r.x]; exact hx,
        fun _ => by rw [r.y]; exact hy, fun j => ?_⟩⟩
      · have := r.at_
        rw [Nat.min_eq_right (by omega)] at this ⊢; exact this
      · rw [hpix]
        by_cases hj : j = a
        · subst hj
          by_cases h : 3 * j < 8 * s.count + 8
          · rw [if_pos ⟨rfl, h⟩, if_pos (by omega)]
          · rw [if_neg (by omega), if_neg (by omega)]
        · rw [if_neg (by omega), if_neg (by omega)]

/-- EMBED_B's traversal when its check passes (R181 to R189). -/
theorem State.embedBTraverse_result (s : State) (hN : s.N ≤ s.params.gridWords) :
    ∃ t, s.embedBTraverse = (if 3 * s.N ≤ 8 * s.count + 8 then .go t else .stop t) ∧
      EmbedBResult s s.startEmbedB t 0 s.N := by
  have h := embedBVisits s s.N 0 s.startEmbedB rfl (by omega) hN rfl (fun _ => rfl) (fun _ _ => rfl)
    ⟨rfl, fun _ => ⟨rfl, rfl, rfl, fun h => absurd rfl h⟩, fun h => by omega⟩ (by omega)
  rw [Nat.zero_add] at h
  rw [State.embedBTraverse, rowMajor_pixelsFrom]
  exact h

/-- What EMBED_B leaves when its check passes (R181 to R189): the memory and flags of the completed command. -/
theorem State.finishEmbedB_result (s : State) (hN : s.N ≤ s.params.gridWords) :
    ∃ t, finishEmbedB s.embedBTraverse = t.complete .ok (decide (8 * (s.count + 1) ≤ 3 * s.N)) 0 0 ∧
      EmbedBResult s s.startEmbedB t 0 s.N := by
  obtain ⟨t, ht, r⟩ := s.embedBTraverse_result hN
  refine ⟨t, ?_, r⟩
  rw [ht]
  have hat := r.at_
  rw [Nat.zero_add] at hat
  split
  · rw [finishEmbedB]
    congr 1
    by_cases h : 3 * s.N = 8 * s.count + 8
    · rw [h, Nat.min_self] at hat
      obtain ⟨hm, hz, -⟩ := hat.fill (by omega)
      have hz8 : Config.bZeroFill = 8 := rfl
      simp [hm, hz, hz8, h]; omega
    · rw [Nat.min_eq_left (by omega)] at hat
      have hz8 : Config.bZeroFill = 8 := rfl
      have hn : ¬ 8 * (s.count + 1) ≤ 3 * s.N := by omega
      by_cases hle : 3 * s.N ≤ 8 * s.count
      · obtain ⟨hm, -⟩ := hat.hide hle
        simp [hm, hn]
      · obtain ⟨hm, hz, -⟩ := hat.fill (by omega)
        have hne : ¬ t.engine.zeros = 8 := by omega
        simp [hm, hz8, hn, hne]
  · rw [finishEmbedB]
    congr 1
    exact (decide_eq_true (by omega)).symm

/-! ### EXTRACT_B -/

/-- The accumulator before slot `n` of `s`'s grid: the slots of the open group so far (R130, R191). -/
def State.accumulated (s : State) (n : Nat) : Byte :=
  ((List.range (n % 8)).map fun i => s.slotBit (8 * (n / 8) + i)).foldl accumulate 0

theorem State.accumulated_group (s : State) {n : Nat} (h : n % 8 = 0) : s.accumulated n = 0 := by
  simp [State.accumulated, h]

theorem State.accumulated_succ (s : State) {n : Nat} (h : (n + 1) % 8 ≠ 0) :
    s.accumulated (n + 1) = accumulate (s.accumulated n) (s.slotBit n) := by
  unfold State.accumulated
  rw [show (n + 1) % 8 = n % 8 + 1 by omega, show (n + 1) / 8 = n / 8 by omega, List.range_succ, List.map_append,
    List.foldl_append]
  simp [Nat.div_add_mod]

theorem State.accumulated_last (s : State) {n : Nat} (h : (n + 1) % 8 = 0) :
    reverse8 (accumulate (s.accumulated n) (s.slotBit n)) = s.character (n / 8) := by
  unfold State.accumulated State.character charPack
  rw [show List.range 8 = List.range 7 ++ [7] from rfl, List.map_append, List.foldl_append, show n % 8 = 7 by omega,
    show n = 8 * (n / 8) + 7 by omega]
  simp [show (8 * (n / 8) + 7) / 8 = n / 8 by omega]

/-- What EXTRACT_B has changed since its start from `s`. -/
def ExtractBForm (s u : State) : Prop :=
  ∃ p x y n c o, u = { s with pbuf := p, engine := { s.engine with x := x, y := y, slot := n, acc := c, ol := o } } ∧
    (s.engine.x < 2 ^ 16 ∧ s.engine.y < 2 ^ 16 → x < 2 ^ 16 ∧ y < 2 ^ 16)

/-- EXTRACT_B from `s` before slot `n`: no character formed so far was 0, and each is in PBUF (R190, R191). -/
structure ExtractBAt (s u : State) (n : Nat) : Prop where
  form : ExtractBForm s u
  slot : u.engine.slot = n
  acc : u.engine.acc = s.accumulated n
  ol : u.engine.ol = n / 8
  nz : ∀ g, g < n / 8 → s.character g ≠ 0
  pbuf : ∀ j, u.pbufRead j = if j < n / 8 then s.character j else s.pbufRead j
  wf : Memory.wf s.params.pbufBytes s.pbuf → Memory.wf s.params.pbufBytes u.pbuf

/-- EXTRACT_B from `s` stopped by the zero character `g` (R192). -/
structure ExtractBDone (s u : State) (g : Nat) : Prop where
  form : ExtractBForm s u
  slot : u.engine.slot = 8 * g + 8
  ol : u.engine.ol = g
  nz : ∀ i, i < g → s.character i ≠ 0
  zero : s.character g = 0
  pbuf : ∀ j, u.pbufRead j = if j < g then s.character j else s.pbufRead j
  wf : Memory.wf s.params.pbufBytes s.pbuf → Memory.wf s.params.pbufBytes u.pbuf

/-- A part of EXTRACT_B that ends at slot `n`, or at a zero character whose slots end at or before it. -/
def ExtractBTo (s : State) (n : Nat) (w : Flow) : Prop :=
  (∃ t, w = .go t ∧ ExtractBAt s t n) ∨ ∃ t g, w = .stop t ∧ ExtractBDone s t g ∧ 8 * g + 8 ≤ n

theorem ExtractBTo.andThen {s : State} {n m : Nat} {w : Flow} {f : State → Flow} (h : ExtractBTo s n w) (hm : n ≤ m)
    (hf : ∀ t, ExtractBAt s t n → ExtractBTo s m (f t)) : ExtractBTo s m (w.andThen f) := by
  rcases h with ⟨t, rfl, ht⟩ | ⟨t, g, rfl, ht, hg⟩
  · exact hf t ht
  · exact .inr ⟨t, g, rfl, ht, by omega⟩

/-- One slot of EXTRACT_B (R190 to R192). -/
theorem extractBSlot_to (s u : State) (P : Word) (k n : Nat) (hb : par (chan P (slotChannel k)) = s.slotBit n)
    (hp : (n + 1) / 8 ≤ s.params.pbufBytes) (h : ExtractBAt s u n) : ExtractBTo s (n + 1) (extractBSlot P k u) := by
  have h8 : Config.bSlotsPerChar = 8 := rfl
  obtain ⟨p, x, y, n', c, o, hf, hxy⟩ := h.form
  have hacc : (u.readSlot P k).engine.acc = accumulate (s.accumulated n) (s.slotBit n) := by
    rw [← h.acc, ← hb]; rfl
  have hslot : (u.readSlot P k).engine.slot = n + 1 := by rw [← h.slot]; rfl
  have hol : (u.readSlot P k).engine.ol = n / 8 := h.ol
  unfold extractBSlot State.endGroup
  rw [hslot, h8, hacc]
  by_cases hg : (n + 1) % 8 = 0
  · rw [if_pos hg, s.accumulated_last hg]
    by_cases hz : s.character (n / 8) = 0
    · rw [if_pos hz]
      refine .inr ⟨_, n / 8, rfl, ⟨⟨p, x, y, n + 1, 0, n / 8, ?_, hxy⟩, ?_, h.ol, h.nz, hz, h.pbuf, h.wf⟩, by omega⟩
      · simp only [State.readSlot, h.slot, h.ol]; rw [hf]
      · simp only [hslot]; omega
    · rw [if_neg hz]
      have hput : ∃ q, State.putChar { u.readSlot P k with engine := { (u.readSlot P k).engine with acc := 0 } } (s.character (n / 8)) =
          { s with pbuf := q, engine := { s.engine with x := x, y := y, slot := n + 1, acc := 0, ol := n / 8 + 1 } } ∧
          (∀ j, (if j < s.params.pbufBytes then (Memory.lookup q j).getD (Config.pbufDraw s.resets j) else 0) =
            if n / 8 = j ∧ j < s.params.pbufBytes then s.character (n / 8) else u.pbufRead j) ∧
          (Memory.wf s.params.pbufBytes u.pbuf → Memory.wf s.params.pbufBytes q) := by
        obtain ⟨q, hq⟩ := State.pbufWrite_form { u.readSlot P k with engine := { (u.readSlot P k).engine with acc := 0 } } (n / 8) (s.character (n / 8))
        refine ⟨q, ?_, fun j => ?_, fun hw => ?_⟩
        · unfold State.putChar
          rw [show ({ u.readSlot P k with engine := { (u.readSlot P k).engine with acc := 0 } } : State).engine.ol = n / 8 from h.ol, hq]
          simp only [State.readSlot, h.slot, h.ol]; rw [hf]
        · have := State.pbufRead_pbufWrite { u.readSlot P k with engine := { (u.readSlot P k).engine with acc := 0 } } (n / 8) j (s.character (n / 8))
          rw [hq] at this
          have hpar : u.params = s.params := by rw [hf]
          have hres : u.resets = s.resets := by rw [hf]
          simp only [State.pbufRead, State.pbufCell, State.readSlot, hpar, hres] at this ⊢
          exact this
        · have hpar : u.params = s.params := by rw [hf]
          have := State.pbufWrite_wf (s := { u.readSlot P k with engine := { (u.readSlot P k).engine with acc := 0 } }) (n / 8) (s.character (n / 8))
            (by simp only [State.readSlot, hpar]; exact hw)
          rw [hq] at this
          simpa only [State.readSlot, hpar] using this
      obtain ⟨q, hq, hr, hw⟩ := hput
      refine .inl ⟨_, by rw [hq], ⟨⟨_, _, _, _, _, _, rfl, hxy⟩, rfl, (s.accumulated_group hg).symm, by simp only; omega, fun g hgl => ?_,
        fun j => ?_, fun h0 => hw (h.wf h0)⟩⟩
      · rcases Nat.lt_or_ge g (n / 8) with h1 | h1
        · exact h.nz g h1
        · rwa [show g = n / 8 by omega]
      · refine (hr j).trans ?_
        by_cases hj : j = n / 8
        · subst hj
          rw [if_pos (by omega), if_pos (by omega)]
        · rw [if_neg (by omega), h.pbuf]
          by_cases hl : j < n / 8
          · rw [if_pos hl, if_pos (by omega)]
          · rw [if_neg hl, if_neg (by omega)]
  · rw [if_neg hg]
    have hd : (n + 1) / 8 = n / 8 := by omega
    refine .inl ⟨_, rfl, ⟨⟨p, x, y, n + 1, accumulate u.engine.acc (par (chan P (slotChannel k))), n / 8, ?_, hxy⟩, hslot, by rw [hacc, s.accumulated_succ hg], by rw [hd]; exact h.ol,
      by rw [hd]; exact h.nz, by rw [hd]; exact h.pbuf, h.wf⟩⟩
    simp only [State.readSlot, h.slot, h.ol]; rw [hf]

/-- One pixel of EXTRACT_B. -/
theorem extractBVisit_to (s u : State) (q : Nat) (hq : q < s.N) (hp : (3 * q + 3) / 8 ≤ s.params.pbufBytes) (h : ExtractBAt s u (3 * q)) :
    ExtractBTo s (3 * q + 3) (extractBVisit (q % s.W, q / s.W) u) := by
  obtain ⟨p, x, y, n', c, o, hf, hxy⟩ := h.form
  have hP : u.pixelRead (q % s.W) (q / s.W) = s.gridRead q := by
    rw [State.pixelRead, show u.W = s.W by rw [hf]; rfl, pixelIndex_rowMajor, hf]; rfl
  have hb : ∀ k, k < 3 → par (chan (s.gridRead q) (slotChannel k)) = s.slotBit (3 * q + k) := by
    intro k hk
    rw [State.slotBit, show (3 * q + k) / 3 = q by omega, show (3 * q + k) % 3 = k by omega]
  have h0 : ExtractBAt s (u.moveTo (q % s.W) (q / s.W)) (3 * q) :=
    ⟨⟨p, q % s.W, q / s.W, n', c, o, by rw [hf]; rfl, fun _ => s.cursor_lt hq⟩, h.slot, h.acc, h.ol, h.nz, h.pbuf, h.wf⟩
  unfold extractBVisit
  simp only [hP]
  refine ExtractBTo.andThen (ExtractBTo.andThen (extractBSlot_to s _ _ 0 (3 * q) (hb 0 (by decide)) (by omega) h0)
    (by omega) (fun t ht => extractBSlot_to s t _ 1 (3 * q + 1) (hb 1 (by decide)) (by omega) ht)) (by omega)
    (fun t ht => extractBSlot_to s t _ 2 (3 * q + 2) (hb 2 (by decide)) (by omega) ht)

theorem extractBVisits (s : State) (hp : 3 * s.N / 8 ≤ s.params.pbufBytes) (m : Nat) : ∀ (a : Nat) (u : State),
    a + m ≤ s.N → ExtractBAt s u (3 * a) → ExtractBTo s (3 * (a + m)) (visitAll extractBVisit (pixelsFrom s.W a m) u) := by
  induction m with
  | zero => exact fun a u _ h => .inl ⟨u, rfl, h⟩
  | succ m ih =>
    intro a u hN h
    rw [pixelsFrom_succ, visitAll]
    refine (extractBVisit_to s u a (by omega) (by omega) h).andThen (by omega) fun t ht => ?_
    have := ih (a + 1) t (by omega) ht
    rwa [show a + 1 + m = a + (m + 1) by omega] at this

/-- The characters before the first zero character, by where that character stands (R192, R193). -/
theorem takeWhile_range {f : Nat → Byte} {g K : Nat} (hg : g ≤ K) (hnz : ∀ i, i < g → f i ≠ 0)
    (hz : g = K ∨ f g = 0) :
    ((List.range K).map f).takeWhile (fun c => decide (c ≠ 0)) = (List.range g).map f := by
  obtain ⟨d, rfl⟩ := Nat.exists_eq_add_of_le hg
  rw [List.range_add, List.map_append, List.takeWhile_append_of_pos (by simpa using hnz)]
  cases d with
  | zero => simp
  | succ d =>
    have hz : f g = 0 := hz.resolve_left (by omega)
    simp [List.range_succ_eq_map, hz]

/-- The text of a grid is the characters before its first zero character, or all of them. -/
theorem State.text_eq (s : State) {g : Nat} (hg : g ≤ 3 * s.N / 8) (hnz : ∀ i, i < g → s.character i ≠ 0)
    (hz : g = 3 * s.N / 8 ∨ s.character g = 0) : s.text = (List.range g).map s.character :=
  takeWhile_range hg hnz hz

/-- What EXTRACT_B leaves when its check passes (R190 to R194, R198). -/
theorem State.finishExtractB_result (s : State) (hp : 3 * s.N / 8 ≤ s.params.pbufBytes) :
    ∃ t, finishExtractB s.extractBTraverse =
        t.complete (if (0 : Byte) ∈ s.characters then .ok else .missingTerminator) (decide ((0 : Byte) ∈ s.characters))
          (BitVec.ofNat 32 s.text.length) 0 ∧
      ExtractBForm s t ∧ t.engine.slot ≤ 3 * s.N ∧ t.engine.ol = s.text.length ∧ s.text.length ≤ 3 * s.N / 8 ∧
      (∀ j, t.pbufRead j = if j < s.text.length then s.text.getD j 0 else s.pbufRead j) ∧
      (Memory.wf s.params.pbufBytes s.pbuf → Memory.wf s.params.pbufBytes t.pbuf) := by
  have h := extractBVisits s hp s.N 0 s.startExtractB (by omega)
    ⟨⟨_, _, _, _, _, _, rfl, id⟩, rfl, rfl, rfl, fun g hg => by omega, fun j => (if_neg (by omega)).symm, id⟩
  rw [Nat.zero_add, show pixelsFrom s.W 0 s.N = rowMajor s.W s.H from (rowMajor_pixelsFrom s.W s.H).symm] at h
  have hread : ∀ g j : Nat, ((List.range g).map s.character).getD j 0 = if j < g then s.character j else 0 := by
    intro g j
    by_cases hj : j < g <;> simp [List.getD, hj]
  rcases h with ⟨t, ht, h⟩ | ⟨t, g, ht, h, hle⟩
  · have htext : s.text = (List.range (3 * s.N / 8)).map s.character := s.text_eq le_rfl h.nz (.inl rfl)
    have hno : (0 : Byte) ∉ s.characters := by
      rw [State.characters, List.mem_map]
      rintro ⟨g, hg, hz⟩
      exact h.nz g (List.mem_range.1 hg) hz
    have hlen : s.text.length = 3 * s.N / 8 := by rw [htext]; simp
    refine ⟨t, ?_, h.form, h.slot.le, by rw [hlen, h.ol], hlen.le, fun j => ?_, h.wf⟩
    · rw [show s.extractBTraverse = .go t from ht, if_neg hno, decide_eq_false hno, hlen, ← h.ol]; rfl
    · rw [h.pbuf, hlen]
      by_cases hj : j < 3 * s.N / 8
      · rw [if_pos hj, if_pos hj, htext, hread, if_pos hj]
      · rw [if_neg hj, if_neg hj]
  · have hg : g < 3 * s.N / 8 := by omega
    have htext : s.text = (List.range g).map s.character := s.text_eq hg.le h.nz (.inr h.zero)
    have hin : (0 : Byte) ∈ s.characters := by
      rw [State.characters, List.mem_map]
      exact ⟨g, List.mem_range.2 hg, h.zero⟩
    have hlen : s.text.length = g := by rw [htext]; simp
    refine ⟨t, ?_, h.form, by rw [h.slot]; exact hle, by rw [hlen, h.ol], by rw [hlen]; exact hg.le, fun j => ?_, h.wf⟩
    · rw [show s.extractBTraverse = .stop t from ht, if_pos hin, decide_eq_true hin, hlen, ← h.ol]; rfl
    · rw [h.pbuf, hlen]
      by_cases hj : j < g
      · rw [if_pos hj, if_pos hj, htext, hread, if_pos hj]
      · rw [if_neg hj, if_neg hj]

/-! ### The text frame, read and written (R78) -/

theorem State.N_lt (s : State) : s.N < 2 ^ 32 := by
  have h : s.width.toNat * s.height.toNat < 2 ^ 16 * 2 ^ 16 := Nat.mul_lt_mul'' s.width.isLt s.height.isLt
  exact h

theorem State.textPixel_upper (s : State) (p : Nat) : s.textPixel p &&& 0xFEFEFEFE = s.gridRead p &&& 0xFEFEFEFE := by
  refine and_lsbMask_eq fun c => ?_
  rw [State.textPixel, chan_pix]
  cases c <;> first | rfl | exact parityWrite_upper _ _

/-- A character depends on the words that hold its slots alone. -/
theorem State.character_congr {s s' : State} (g : Nat)
    (h : ∀ i, i < 8 → s'.gridRead ((8 * g + i) / 3) = s.gridRead ((8 * g + i) / 3)) : s'.character g = s.character g := by
  unfold State.character
  congr 1
  refine List.map_congr_left fun i hi => ?_
  unfold State.slotBit
  rw [h i (List.mem_range.1 hi)]

/-- The text of a grid depends on its words below W*H alone. -/
theorem State.characters_congr {s s' : State} (hN : s'.N = s.N) (h : ∀ p, p < s.N → s'.gridRead p = s.gridRead p) :
    s'.characters = s.characters := by
  unfold State.characters
  rw [hN]
  exact List.map_congr_left fun g hg => State.character_congr g fun i hi => h _ (by
    have := List.mem_range.1 hg; omega)

/-- A committed pixel carries its slots' bits. -/
theorem State.slotBit_textPixel {s s' : State} {n : Nat} (h : s'.gridRead (n / 3) = s.textPixel (n / 3)) :
    s'.slotBit n = s.textBit n := by
  unfold State.slotBit
  rw [h, State.textPixel, chan_pix]
  have hd := Nat.div_add_mod n 3
  rcases (show n % 3 = 0 ∨ n % 3 = 1 ∨ n % 3 = 2 by omega) with h | h | h <;> rw [h] at hd ⊢ <;>
    conv_rhs => rw [← hd]
  all_goals simp [slotChannel]

/-- Where the pixels of group `g` are committed, the character read is the text's, or the terminator's 0 (R78, R137). -/
theorem State.character_text {s s' : State} {g : Nat} (hg : g ≤ s.count)
    (h : ∀ i, i < 8 → s'.gridRead ((8 * g + i) / 3) = s.textPixel ((8 * g + i) / 3)) :
    s'.character g = if g < s.count then s.pbufRead g else 0 := by
  have hbits : ((List.range 8).map fun i => s'.slotBit (8 * g + i)) =
      (List.range 8).map fun i => (if g < s.count then s.pbufRead g else 0).getLsbD i := by
    refine List.map_congr_left fun i hi => ?_
    have hi := List.mem_range.1 hi
    rw [State.slotBit_textPixel (h i hi), State.textBit, show (8 * g + i) / 8 = g by omega, show (8 * g + i) % 8 = i by omega]
    by_cases hg : g < s.count
    · rw [if_pos (by omega), if_pos hg]
    · rw [if_neg (by omega), if_neg hg]; simp
  rw [State.character, hbits, charPack_bits]

end Sys2Proof.Machine
end

