-- ==== Sys2Proof/Laws/Exec.lean ====
section
/-! SUPPORT. What each command can do, said once per command: the cases of its checks, and the form of the state it
answers in each. -/

namespace Sys2Proof.Machine

/-! ### Every command -/

/-- The fields a command may write, at most (R39, R58): everything else of the state is as it was. -/
def CommandForm (s t : State) : Prop :=
  ∃ st ol h g p e, t = { s with status := st, outLen := ol, hdr := h, grid := g, pbuf := p, engine := e } ∧
    st.busy = false ∧ st.done = true

theorem State.complete_form (s : State) (g : Memory Word) (p : Memory Byte) (e : Engine) (c : Code) (b : Bool)
    (ol : BitVec 32) (h : BitVec 24) :
    CommandForm s (State.complete { s with grid := g, pbuf := p, engine := e } c b ol h) :=
  ⟨completedStatus c b, ol, h, g, p, e, rfl, rfl, rfl⟩

theorem CommandForm.same {s t : State} (h : CommandForm s t) : SameOutside s t := by
  obtain ⟨st, ol, hd, g, p, e, rfl, -, -⟩ := h
  exact ⟨rfl, rfl, rfl, rfl, rfl, rfl, rfl, rfl, rfl⟩

/-- A part of EMBED_B that leaves `s` but for GRID, in canonical form still, and the engine's variables. -/
def EmbedBTo (s : State) (w : Flow) : Prop :=
  ∃ g e, (w = .go { s with grid := g, engine := e } ∨ w = .stop { s with grid := g, engine := e }) ∧
    (Memory.wf s.params.gridWords s.grid → Memory.wf s.params.gridWords g)

theorem EmbedBTo.andThen {s : State} {w : Flow} {f : State → Flow} (h : EmbedBTo s w) (hf : ∀ t, EmbedBTo t (f t)) :
    EmbedBTo s (w.andThen f) := by
  obtain ⟨g, e, rfl | rfl, hw⟩ := h
  · obtain ⟨g', e', h, hw'⟩ := hf { s with grid := g, engine := e }
    exact ⟨g', e', h, fun h0 => hw' (hw h0)⟩
  · exact ⟨g, e, .inr rfl, hw⟩

theorem EmbedBTo.write (s : State) (e : Engine) (x y : Nat) (P : Word) :
    ∃ g, State.pixelWrite { s with engine := e } x y P = { s with grid := g, engine := e } ∧
      (Memory.wf s.params.gridWords s.grid → Memory.wf s.params.gridWords g) := by
  obtain ⟨g, h⟩ := State.pixelWrite_form' s e x y P
  refine ⟨g, h, fun h0 => ?_⟩
  have := State.gridWrite_wf (s := { s with engine := e }) (pixelIndex s.W x y) P h0
  rwa [show State.gridWrite { s with engine := e } (pixelIndex s.W x y) P = _ from h] at this

theorem embedBSlot_to (p : Nat × Nat) (P : Word) (k : Nat) (s : State) : EmbedBTo s (embedBSlot p P k s) := by
  have hgo : ∀ t : State, EmbedBTo t (.go (((t.writeSlot k).commitFull p P k).endSlot)) := by
    intro t
    have h1 : ∃ e, t.writeSlot k = { t with engine := e } := by
      unfold State.writeSlot State.addToChannel
      split <;> (try split) <;> (try split) <;> exact ⟨_, rfl⟩
    obtain ⟨e, h1⟩ := h1
    rw [h1]
    unfold State.commitFull
    split
    · obtain ⟨g, h2, hw⟩ := EmbedBTo.write t e p.1 p.2 (State.workingPixel { t with engine := e } P)
      rw [h2]; exact ⟨g, _, .inl rfl, hw⟩
    · exact ⟨t.grid, _, .inl rfl, id⟩
  unfold embedBSlot embedBGroupStart
  split
  · split
    · split
      · obtain ⟨g, h, hw⟩ := EmbedBTo.write s s.engine p.1 p.2 (s.workingPixel P)
        exact ⟨g, s.engine, .inr (congrArg Flow.stop h), hw⟩
      · exact ⟨s.grid, s.engine, .inr rfl, id⟩
    · split
      · exact hgo { s with engine := { s.engine with mode := .fillingZeros } }
      · exact hgo s.loadChar
  · exact hgo s

theorem embedBVisit_to (p : Nat × Nat) (s : State) : EmbedBTo s (embedBVisit p s) := by
  unfold embedBVisit
  refine EmbedBTo.andThen (EmbedBTo.andThen ?_ (embedBSlot_to p _ 1)) (embedBSlot_to p _ 2)
  exact embedBSlot_to p (s.pixelRead p.1 p.2) 0 ((s.moveTo p.1 p.2).loadWorking (s.pixelRead p.1 p.2))

/-- EMBED_B changes GRID, which keeps its canonical form, and the engine's variables alone. -/
theorem embedBVisits_to (ps : List (Nat × Nat)) (s : State) : EmbedBTo s (visitAll embedBVisit ps s) := by
  induction ps generalizing s with
  | nil => exact ⟨s.grid, s.engine, .inl rfl, id⟩
  | cons p ps ih => exact (embedBVisit_to p s).andThen ih

theorem extractBVisit_form (p : Nat × Nat) (s : State) :
    ∃ m e, extractBVisit p s = .go { s with pbuf := m, engine := e } ∨ extractBVisit p s = .stop { s with pbuf := m, engine := e } := by
  have hslot : ∀ (P : Word) (k : Nat) (s : State), ∃ m e, extractBSlot P k s = .go { s with pbuf := m, engine := e } ∨
      extractBSlot P k s = .stop { s with pbuf := m, engine := e } := by
    intro P k s
    unfold extractBSlot State.endGroup
    split
    · dsimp only
      split
      · exact ⟨_, _, .inr rfl⟩
      · unfold State.putChar State.pbufWrite
        dsimp only
        split <;> exact ⟨_, _, .inl rfl⟩
    · exact ⟨_, _, .inl rfl⟩
  unfold extractBVisit
  dsimp only
  obtain ⟨m, e, h | h⟩ := hslot (s.pixelRead p.1 p.2) 0 (s.moveTo p.1 p.2)
  · rw [h, Flow.andThen_go]
    obtain ⟨m', e', h' | h'⟩ := hslot (s.pixelRead p.1 p.2) 1 { s.moveTo p.1 p.2 with pbuf := m, engine := e }
    · rw [h', Flow.andThen_go]
      obtain ⟨m'', e'', h''⟩ := hslot (s.pixelRead p.1 p.2) 2 { s.moveTo p.1 p.2 with pbuf := m', engine := e' }
      exact ⟨m'', e'', h''⟩
    · rw [h', Flow.andThen_stop]; exact ⟨m', e', .inr rfl⟩
  · rw [h, Flow.andThen_stop, Flow.andThen_stop]; exact ⟨m, e, .inr rfl⟩

theorem extractBVisits_form (ps : List (Nat × Nat)) (s : State) :
    ∃ m e, visitAll extractBVisit ps s = .go { s with pbuf := m, engine := e } ∨
      visitAll extractBVisit ps s = .stop { s with pbuf := m, engine := e } := by
  induction ps generalizing s with
  | nil => exact ⟨_, _, .inl rfl⟩
  | cons p ps ih =>
    rw [visitAll]
    obtain ⟨m, e, h | h⟩ := extractBVisit_form p s
    · obtain ⟨m', e', h'⟩ := ih { s with pbuf := m, engine := e }
      rw [h, Flow.andThen_go]; exact ⟨m', e', h'⟩
    · rw [h, Flow.andThen_stop]; exact ⟨m, e, .inr rfl⟩

theorem extractAVisit_form (s : State) (p : Nat × Nat) : ∃ e, extractAVisit s p = { s with engine := e } := by
  unfold extractAVisit
  split
  · exact ⟨_, rfl⟩
  · split <;> exact ⟨_, rfl⟩

/-- EXTRACT_A's payload pass changes the engine's variables alone. -/
theorem State.extractATraverse_form (s : State) : ∃ e, s.extractATraverse = { s with engine := e } := by
  have h : ∀ (ps : List (Nat × Nat)) (t : State), ∃ e, ps.foldl extractAVisit t = { t with engine := e } := by
    intro ps
    induction ps with
    | nil => exact fun t => ⟨_, rfl⟩
    | cons p ps ih =>
      intro t
      obtain ⟨e, h⟩ := extractAVisit_form t p
      obtain ⟨e', h'⟩ := ih (extractAVisit t p)
      rw [List.foldl_cons, h', h]; exact ⟨_, rfl⟩
  obtain ⟨e, h⟩ := h (columnMajor s.W s.H) s.startExtractA
  exact ⟨e, h⟩

theorem State.raise_form (s : State) (c : Code) : CommandForm s (s.raise c) :=
  s.complete_form s.grid s.pbuf s.engine c false 0 0

/-- Every command, in every state, completes (R105, R107), and writes no more than the fields R39 and R58 give it. -/
theorem exec_form (i : Instr) (s : State) : ∃ t, exec i s = .next t ∧ CommandForm s t := by
  cases i with
  | embedA =>
    show ∃ t, execEmbedA s = _ ∧ _
    unfold execEmbedA
    split
    · exact ⟨_, rfl, s.raise_form _⟩
    · split
      · exact ⟨_, rfl, s.raise_form _⟩
      · obtain ⟨g, e, h⟩ := s.embedATraverse_form
        exact ⟨_, rfl, by rw [h]; exact s.complete_form g s.pbuf e _ _ _ _⟩
  | extractA =>
    show ∃ t, execExtractA s = _ ∧ _
    unfold execExtractA
    split
    · exact ⟨_, rfl, s.raise_form _⟩
    · split
      · exact ⟨_, rfl, s.raise_form _⟩
      · split
        · exact ⟨_, rfl, s.complete_form s.grid s.pbuf s.startExtractA.engine _ _ _ _⟩
        · obtain ⟨e, h⟩ := s.extractATraverse_form
          refine ⟨_, rfl, ?_⟩
          rw [State.pbufWriteFrom_eq, h]
          exact s.complete_form s.grid _ e _ _ _ _
  | embedB =>
    show ∃ t, execEmbedB s = _ ∧ _
    unfold execEmbedB
    split
    · exact ⟨_, rfl, s.raise_form _⟩
    · refine ⟨_, rfl, ?_⟩
      obtain ⟨g, e, h | h, -⟩ := embedBVisits_to (rowMajor s.W s.H) s.startEmbedB
      · rw [State.embedBTraverse, h]; exact s.complete_form g s.pbuf e _ _ _ _
      · rw [State.embedBTraverse, h]; exact s.complete_form g s.pbuf e _ _ _ _
  | extractB =>
    show ∃ t, execExtractB s = _ ∧ _
    unfold execExtractB
    split
    · exact ⟨_, rfl, s.raise_form _⟩
    · refine ⟨_, rfl, ?_⟩
      obtain ⟨m, e, h | h⟩ := extractBVisits_form (rowMajor s.W s.H) s.startExtractB
      · rw [State.extractBTraverse, h]; exact s.complete_form s.grid m e _ _ _ _
      · rw [State.extractBTraverse, h]; exact s.complete_form s.grid m e _ _ _ _
  | illegal op => exact ⟨_, rfl, s.raise_form _⟩

/-! ### The checks of each command, in R223's order -/

theorem exec_embedA_config {s : State} (h : s.embedTooBig) : exec .embedA s = .next (s.raise .configError) := if_pos h

theorem exec_embedA_capacity {s : State} (h : ¬ s.embedTooBig) (hc : ¬ capOK (8 * s.count) s.W s.H) :
    exec .embedA s = .next (s.raise .capacityExceeded) := (if_neg h).trans (if_pos hc)

theorem exec_embedA_ok {s : State} (h : ¬ s.embedTooBig) (hc : capOK (8 * s.count) s.W s.H) :
    exec .embedA s = .next (s.embedATraverse.complete .ok false 0 (BitVec.ofNat 24 (8 * s.count))) :=
  (if_neg h).trans (if_neg (not_not.2 hc))

theorem exec_extractA_config {s : State} (h : s.gridTooBig) : exec .extractA s = .next (s.raise .configError) := if_pos h

theorem exec_extractA_truncated {s : State} (h : ¬ s.gridTooBig) (ht : s.W < 6 ∨ s.H < 1) :
    exec .extractA s = .next (s.raise .truncatedStream) := (if_neg h).trans (if_pos ht)

theorem exec_extractA_invalid {s : State} (h : ¬ s.gridTooBig) (ht : ¬ (s.W < 6 ∨ s.H < 1))
    (hl : (s.N : Int) - 6 < pixelsForBits (headerDecode s.readHeader)) :
    exec .extractA s =
      .next (s.startExtractA.complete .invalidLength false 0 (BitVec.ofNat 24 (headerDecode s.readHeader))) :=
  (if_neg h).trans ((if_neg ht).trans (if_pos hl))

theorem State.headerDecode_readHeader_lt (s : State) : headerDecode s.readHeader < 2 ^ 24 :=
  headerDecode_lt (by rw [State.length_readHeader])

/-- The bytes EXTRACT_A puts out when its checks pass (R157, R158). -/
def State.outputBytes (s : State) : List Byte :=
  bitsToBytes ((s.payloadBits (pixelsForBits (headerDecode s.readHeader))).take (headerDecode s.readHeader))

theorem State.length_outputBytes (s : State) : s.outputBytes.length = headerDecode s.readHeader / 8 := by
  rw [State.outputBytes, length_bitsToBytes, List.length_take, State.length_payloadBits, Nat.min_eq_left]
  unfold pixelsForBits; omega

/-- The engine EXTRACT_A leaves when its checks pass. -/
theorem exec_extractA_ok {s : State} (h : ¬ s.gridTooBig) (ht : ¬ (s.W < 6 ∨ s.H < 1))
    (hl : ¬ (s.N : Int) - 6 < pixelsForBits (headerDecode s.readHeader)) :
    ∃ x y, x < 2 ^ 16 ∧ y < 2 ^ 16 ∧
      exec .extractA s = .next (State.complete (State.pbufWriteFrom { s with
        engine :=
          { s.engine with
            x := x
            y := y
            header := s.readHeader
            hc := 24
            len := headerDecode s.readHeader
            payload := s.payloadBits (pixelsForBits (headerDecode s.readHeader))
            pcA := 4 * pixelsForBits (headerDecode s.readHeader) } } 0 s.outputBytes) .ok false
        (BitVec.ofNat 32 (headerDecode s.readHeader / 8)) (BitVec.ofNat 24 (headerDecode s.readHeader))) := by
  obtain ⟨x, y, hx, hy, he⟩ := s.extractATraverse_eq (by omega) (by omega) (by omega)
  refine ⟨x, y, hx, hy, ?_⟩
  refine (if_neg h).trans ((if_neg ht).trans ((if_neg hl).trans ?_))
  dsimp only
  rw [he, ← s.length_outputBytes]
  rfl

/-- A legal PBUF holds every text of a grid that fits GRID (R5, R6). -/
theorem Params.Legal.text_fits {p : Params} (h : p.Legal) {n : Nat} (hn : n ≤ p.gridWords) : 3 * n / 8 ≤ p.pbufBytes :=
  le_trans (Nat.div_le_div_right (by omega)) (le_trans (le_max_right _ _) h.2)

/-- A legal PBUF holds every payload of a grid that fits GRID (R5, R6). -/
theorem Params.Legal.payload_fits {p : Params} (h : p.Legal) {n L : Nat} (hn : n ≤ p.gridWords) (hL : L < 2 ^ 24)
    (hl : pixelsForBits L ≤ n - 6) : L / 8 ≤ p.pbufBytes := by
  refine le_trans (le_min ?_ ?_) (le_trans (le_max_left _ _) h.2)
  · simp only [Config.maxPayloadBytes]; omega
  · unfold pixelsForBits at hl; omega

/-- What EXTRACT_A leaves in PBUF and the status outputs when its checks pass (R158, R160). -/
theorem exec_extractA_result {s : State} (hL : s.params.Legal) (hg : ¬ s.gridTooBig) (ht : ¬ (s.W < 6 ∨ s.H < 1))
    (hl : ¬ (s.N : Int) - 6 < pixelsForBits (headerDecode s.readHeader)) :
    ∃ t, exec .extractA s = .next t ∧
      CompletedWith t .ok false (headerDecode s.readHeader / 8) (headerDecode s.readHeader) ∧ SameGrid s t ∧
      ∀ j, t.pbufRead j = if j < headerDecode s.readHeader / 8 then s.outputBytes.getD j 0 else s.pbufRead j := by
  have hN : 6 ≤ s.N := State.six_le_N (by omega) (by omega)
  have hlt := s.headerDecode_readHeader_lt
  obtain ⟨x, y, -, -, h⟩ := exec_extractA_ok hg ht hl
  refine ⟨_, h, ⟨rfl, ?_, ?_⟩, ?_, fun j => ?_⟩
  · rw [State.complete_outLen, BitVec.toNat_ofNat]; omega
  · rw [State.complete_hdr, BitVec.toNat_ofNat]; omega
  · rw [State.pbufWriteFrom_eq]; exact fun _ => rfl
  · rw [State.complete_pbufRead, State.pbufRead_pbufWriteFrom]
    · rw [s.length_outputBytes]; simp; rfl
    · rw [s.length_outputBytes, Nat.zero_add]
      exact Params.Legal.payload_fits hL (Nat.le_of_not_lt hg) hlt (by omega)

theorem exec_embedB_config {s : State} (h : s.embedTooBig) : exec .embedB s = .next (s.raise .configError) := if_pos h

/-- EMBED_B when its check passes (R181 to R189). -/
theorem exec_embedB_ok {s : State} (h : ¬ s.embedTooBig) :
    ∃ t, exec .embedB s = .next (t.complete .ok (decide (8 * (s.count + 1) ≤ 3 * s.N)) 0 0) ∧
      EmbedBResult s s.startEmbedB t 0 s.N := by
  obtain ⟨t, ht, r⟩ := s.finishEmbedB_result (by simp only [State.embedTooBig, State.gridTooBig] at h; omega)
  exact ⟨t, (if_neg h).trans (by rw [ht]), r⟩

/-- What EMBED_B leaves in GRID, PBUF and the status outputs when its check passes (R182 to R189). -/
theorem exec_embedB_result {s : State} (h : ¬ s.embedTooBig) :
    ∃ t, exec .embedB s = .next t ∧ CompletedWith t .ok (decide (8 * (s.count + 1) ≤ 3 * s.N)) 0 0 ∧ SamePbuf s t ∧
      ∀ j, t.gridRead j = if j < s.N ∧ 3 * j < 8 * s.count + 8 then s.textPixel j else s.gridRead j := by
  obtain ⟨t, ht, r⟩ := exec_embedB_ok h
  refine ⟨_, ht, ⟨rfl, rfl, rfl⟩, ?_, fun j => ?_⟩
  · obtain ⟨g, e, rfl⟩ := r.form; exact fun _ => rfl
  · have := r.grid j
    simp only [Nat.zero_le, true_and, Nat.zero_add] at this
    exact this

/-- EMBED_B keeps GRID's canonical form, whatever its check says. -/
theorem exec_embedB_wf {s t : State} (h : exec .embedB s = .next t) (hw : Memory.wf s.params.gridWords s.grid) :
    Memory.wf s.params.gridWords t.grid := by
  by_cases hc : s.embedTooBig
  · rw [exec_embedB_config hc] at h; cases h; exact hw
  · have he : exec .embedB s = .next (finishEmbedB s.embedBTraverse) := if_neg hc
    rw [he] at h; cases h
    obtain ⟨g, e, h | h, hg⟩ := embedBVisits_to (rowMajor s.W s.H) s.startEmbedB
    · rw [State.embedBTraverse, h]; exact hg hw
    · rw [State.embedBTraverse, h]; exact hg hw

theorem exec_extractB_config {s : State} (h : s.gridTooBig) : exec .extractB s = .next (s.raise .configError) := if_pos h

/-! ### The cases of a command, all at once -/

theorem State.raise_eq (s : State) (c : Code) : s.raise c = s.complete c false 0 0 := rfl

/-- Which commands end by `raise c` with nothing set (R221). -/
def raises (i : Instr) (c : Code) : Prop :=
  (isEmbed i = true ∨ i = .extractA ∨ i = .extractB) ∧ c = .configError ∨ i = .embedA ∧ c = .capacityExceeded ∨
    i = .extractA ∧ c = .truncatedStream ∨ (∃ op, i = .illegal op) ∧ c = .illegalCommand

theorem raises_fatal {i : Instr} {c : Code} (h : raises i c) : codeFatal c = true := by
  rcases h with ⟨-, rfl⟩ | ⟨-, rfl⟩ | ⟨-, rfl⟩ | ⟨-, rfl⟩ <;> rfl

/-- EXTRACT_B when its check passes (R190 to R194, R198). -/
theorem exec_extractB_ok {s : State} (hp : s.params.Legal) (h : ¬ s.gridTooBig) :
    ∃ t, exec .extractB s = .next (t.complete (if (0 : Byte) ∈ s.characters then .ok else .missingTerminator)
        (decide ((0 : Byte) ∈ s.characters)) (BitVec.ofNat 32 s.text.length) 0) ∧
      ExtractBForm s t ∧ t.engine.slot ≤ 3 * s.N ∧ t.engine.ol = s.text.length ∧ s.text.length ≤ 3 * s.N / 8 ∧
      (∀ j, t.pbufRead j = if j < s.text.length then s.text.getD j 0 else s.pbufRead j) ∧
      (Memory.wf s.params.pbufBytes s.pbuf → Memory.wf s.params.pbufBytes t.pbuf) := by
  obtain ⟨t, ht, r⟩ := s.finishExtractB_result (Params.Legal.text_fits hp (Nat.le_of_not_lt h))
  exact ⟨t, (if_neg h).trans (by rw [ht]), r⟩

/-- What EXTRACT_B leaves in GRID, PBUF and the status outputs when its check passes (R190 to R194, R198). -/
theorem exec_extractB_result {s : State} (hL : s.params.Legal) (hg : ¬ s.gridTooBig) :
    ∃ t, exec .extractB s = .next t ∧
      CompletedWith t (if (0 : Byte) ∈ s.characters then .ok else .missingTerminator)
        (decide ((0 : Byte) ∈ s.characters)) s.text.length 0 ∧ SameGrid s t ∧ s.text.length ≤ 3 * s.N / 8 ∧
      ∀ j, t.pbufRead j = if j < s.text.length then s.text.getD j 0 else s.pbufRead j := by
  obtain ⟨t, ht, hf, -, -, hlen, hpb, -⟩ := exec_extractB_ok hL hg
  have hN := s.N_lt
  refine ⟨_, ht, ⟨rfl, ?_, rfl⟩, ?_, hlen, hpb⟩
  · rw [State.complete_outLen, BitVec.toNat_ofNat]; omega
  · obtain ⟨p, x, y, n, c, o, rfl, -⟩ := hf; exact fun _ => rfl

/-- What any command can do: raise an exception with nothing set, or one of the five other endings. -/
theorem exec_cases {i : Instr} {s t : State} (h : exec i s = .next t) :
    (∃ c, raises i c ∧ t = s.raise c) ∨
    (i = .embedA ∧ ¬ s.embedTooBig ∧ capOK (8 * s.count) s.W s.H ∧
      t = s.embedATraverse.complete .ok false 0 (BitVec.ofNat 24 (8 * s.count))) ∨
    (i = .extractA ∧ ¬ s.gridTooBig ∧ ¬ (s.W < 6 ∨ s.H < 1) ∧
      (s.N : Int) - 6 < pixelsForBits (headerDecode s.readHeader) ∧
      t = s.startExtractA.complete .invalidLength false 0 (BitVec.ofNat 24 (headerDecode s.readHeader))) ∨
    (i = .extractA ∧ ¬ s.gridTooBig ∧ ¬ (s.W < 6 ∨ s.H < 1) ∧
      ¬ (s.N : Int) - 6 < pixelsForBits (headerDecode s.readHeader)) ∨
    (i = .embedB ∧ ¬ s.embedTooBig) ∨ (i = .extractB ∧ ¬ s.gridTooBig) := by
  cases i with
  | embedA =>
    by_cases h1 : s.embedTooBig
    · rw [exec_embedA_config h1] at h; cases h
      exact .inl ⟨_, .inl ⟨.inl rfl, rfl⟩, rfl⟩
    · by_cases h2 : capOK (8 * s.count) s.W s.H
      · rw [exec_embedA_ok h1 h2] at h; cases h
        exact .inr (.inl ⟨rfl, h1, h2, rfl⟩)
      · rw [exec_embedA_capacity h1 h2] at h; cases h
        exact .inl ⟨_, .inr (.inl ⟨rfl, rfl⟩), rfl⟩
  | extractA =>
    by_cases h1 : s.gridTooBig
    · rw [exec_extractA_config h1] at h; cases h
      exact .inl ⟨_, .inl ⟨.inr (.inl rfl), rfl⟩, rfl⟩
    · by_cases h2 : s.W < 6 ∨ s.H < 1
      · rw [exec_extractA_truncated h1 h2] at h; cases h
        exact .inl ⟨_, .inr (.inr (.inl ⟨rfl, rfl⟩)), rfl⟩
      · by_cases h3 : (s.N : Int) - 6 < pixelsForBits (headerDecode s.readHeader)
        · rw [exec_extractA_invalid h1 h2 h3] at h; cases h
          exact .inr (.inr (.inl ⟨rfl, h1, h2, h3, rfl⟩))
        · exact .inr (.inr (.inr (.inl ⟨rfl, h1, h2, h3⟩)))
  | embedB =>
    by_cases h1 : s.embedTooBig
    · rw [exec_embedB_config h1] at h; cases h
      exact .inl ⟨_, .inl ⟨.inl rfl, rfl⟩, rfl⟩
    · exact .inr (.inr (.inr (.inr (.inl ⟨rfl, h1⟩))))
  | extractB =>
    by_cases h1 : s.gridTooBig
    · rw [exec_extractB_config h1] at h; cases h
      exact .inl ⟨_, .inl ⟨.inr (.inr rfl), rfl⟩, rfl⟩
    · exact .inr (.inr (.inr (.inr (.inr ⟨rfl, h1⟩))))
  | illegal op =>
    cases h
    exact .inl ⟨_, .inr (.inr (.inr ⟨⟨op, rfl⟩, rfl⟩)), rfl⟩

end Sys2Proof.Machine
end

