-- ==== Sys2Proof/Laws/Step.lean ====
section
/-! SUPPORT. What a step can do, said once: the engine's move, the outside world's, or waiting. -/

namespace Sys2Proof.Machine

@[simp] theorem State.heldCommand_accept (s : State) (v : Word) : (s.accept v).heldCommand = decodeWord v := by
  simp [State.heldCommand, State.accept]

/-- It is the outside world's turn while a command runs. -/
def hostTurn (s : State) : Prop := ∃ turns i is, s.schedule = .host :: turns ∧ s.inputs = i :: is

theorem step_engine {s : State} (hb : s.status.busy = true) (h : ¬ hostTurn s) :
    step s = exec s.heldCommand { s with schedule := s.schedule.tail } := by
  unfold step nextMove
  rw [if_pos hb]
  cases hs : s.schedule with
  | nil =>
    have : ({ s with schedule := [] } : State) = s := by rw [← hs]
    simp [this]
  | cons a turns =>
    cases a with
    | engine => simp [State.heldCommand]
    | host =>
      cases hi : s.inputs with
      | nil => simp [State.heldCommand]
      | cons i is => exact absurd ⟨turns, i, is, hs, hi⟩ h

theorem step_host {s : State} {turns : List Agent} {i : Input} {is : List Input} (hb : s.status.busy = true)
    (hs : s.schedule = .host :: turns) (hi : s.inputs = i :: is) :
    step s = inputMove i { s with schedule := turns, inputs := is } := by
  simp [step, nextMove, hb, hs, hi]

theorem step_input {s : State} {i : Input} {is : List Input} (hb : s.status.busy = false) (hi : s.inputs = i :: is) :
    step s = inputMove i { s with inputs := is } := by
  simp [step, nextMove, hb, hi]

theorem step_idle {s : State} (hb : s.status.busy = false) (hi : s.inputs = []) : step s = .next s := by
  simp [step, nextMove, hb, hi]

/-- What a step that answers a next state has done. -/
theorem step_cases {s t : State} (h : step s = .next t) :
    (s.status.busy = true ∧ ¬ hostTurn s ∧ exec s.heldCommand { s with schedule := s.schedule.tail } = .next t) ∨
    (∃ turns i is, s.status.busy = true ∧ s.schedule = .host :: turns ∧ s.inputs = i :: is ∧
      inputMove i { s with schedule := turns, inputs := is } = .next t) ∨
    (∃ i is, s.status.busy = false ∧ s.inputs = i :: is ∧ inputMove i { s with inputs := is } = .next t) ∨
    (s.status.busy = false ∧ s.inputs = [] ∧ t = s) := by
  cases hb : s.status.busy with
  | true =>
    by_cases hh : hostTurn s
    · obtain ⟨turns, i, is, hs, hi⟩ := hh
      rw [step_host hb hs hi] at h
      exact .inr (.inl ⟨turns, i, is, rfl, hs, hi, h⟩)
    · rw [step_engine hb hh] at h
      exact .inl ⟨rfl, hh, h⟩
  | false =>
    cases hi : s.inputs with
    | nil =>
      rw [step_idle hb hi] at h
      exact .inr (.inr (.inr ⟨rfl, rfl, by injection h with h; exact h.symm⟩))
    | cons i is =>
      rw [step_input hb hi] at h
      exact .inr (.inr (.inl ⟨i, is, rfl, rfl, h⟩))

/-- While a command runs, the outside world changes nothing in the block but by a reset (R101, R102, R255). -/
theorem inputMove_busy {s t : State} {i : Input} (hb : s.status.busy = true) (h : inputMove i s = .next t) :
    (i = .reset ∧ t = s.platformReset) ∨ ∃ r is, t = { s with replies := r, inputs := is } := by
  cases i with
  | reset => exact .inl ⟨rfl, by injection h with h; exact h.symm⟩
  | poll =>
    right
    simp only [inputMove, Host.Outcome.next.injEq] at h; subst h
    unfold State.pollOnce State.reply; dsimp only; split <;> exact ⟨_, _, rfl⟩
  | issue x =>
    right
    cases x <;> simp [inputMove, transact, hb, State.regWrite, State.reply] at h <;> subst h <;> exact ⟨_, _, rfl⟩

/-- While no command runs, a transaction writes one operand register, one cell of a memory, or accepts a command. -/
theorem inputMove_idle {s t : State} {i : Input} (hb : s.status.busy = false) (h : inputMove i s = .next t) :
    (i = .reset ∧ t = s.platformReset) ∨ (∃ v, i = .issue (.regWrite 0 v) ∧ t = s.accept v) ∨
    (∃ w h l g p r is, t = { s with width := w, height := h, inLen := l, grid := g, pbuf := p, replies := r, inputs := is } ∧
      (Memory.wf s.params.gridWords s.grid → Memory.wf s.params.gridWords g) ∧
      (Memory.wf s.params.pbufBytes s.pbuf → Memory.wf s.params.pbufBytes p)) := by
  cases i with
  | reset => exact .inl ⟨rfl, by injection h with h; exact h.symm⟩
  | poll =>
    right; right
    simp only [inputMove, Host.Outcome.next.injEq] at h; subst h
    unfold State.pollOnce State.reply; dsimp only; split <;> exact ⟨_, _, _, _, _, _, _, rfl, id, id⟩
  | issue x =>
    right
    cases x with
    | regRead i =>
      right
      simp only [inputMove, transact, Host.Outcome.next.injEq] at h; subst h
      exact ⟨_, _, _, _, _, _, _, rfl, id, id⟩
    | regWrite i v =>
      simp only [inputMove, transact, Host.Outcome.next.injEq] at h; subst h
      unfold State.regWrite
      rw [if_neg (by simp [hb])]
      split
      · next h0 => exact .inl ⟨v, by rw [h0], rfl⟩
      · right
        split
        · exact ⟨_, _, _, _, _, _, _, rfl, id, id⟩
        · split
          · exact ⟨_, _, _, _, _, _, _, rfl, id, id⟩
          · split <;> exact ⟨_, _, _, _, _, _, _, rfl, id, id⟩
    | gridRead i =>
      right
      simp only [inputMove, transact, hb, Bool.false_eq_true, if_false, Host.Outcome.next.injEq] at h; subst h
      exact ⟨_, _, _, _, _, _, _, rfl, id, id⟩
    | gridWrite i v =>
      right
      simp only [inputMove, transact, hb, Bool.false_eq_true, if_false, Host.Outcome.next.injEq] at h; subst h
      obtain ⟨g, hg⟩ := s.gridWrite_form i v
      have := s.gridWrite_wf i v
      rw [hg] at this ⊢
      exact ⟨_, _, _, _, _, _, _, rfl, this, id⟩
    | pbufRead i =>
      right
      simp only [inputMove, transact, hb, Bool.false_eq_true, if_false, Host.Outcome.next.injEq] at h; subst h
      exact ⟨_, _, _, _, _, _, _, rfl, id, id⟩
    | pbufWrite i v =>
      right
      simp only [inputMove, transact, hb, Bool.false_eq_true, if_false, Host.Outcome.next.injEq] at h; subst h
      obtain ⟨g, hg⟩ := s.pbufWrite_form i v
      have := s.pbufWrite_wf i v
      rw [hg] at this ⊢
      exact ⟨_, _, _, _, _, _, _, rfl, id, this⟩

/-! ### Runs -/

theorem run_zero (s : State) : Sys2Proof.core.run 0 s = .next s := rfl

theorem run_next {s t : State} (h : step s = .next t) (k : Nat) : Sys2Proof.core.run (k + 1) s = Sys2Proof.core.run k t := by
  have h' : Sys2Proof.core.step s = .next t := h
  simp only [Host.Core.run, h']

theorem statusWord_busy (t : Status) : (statusWord t).getLsbD 0 = t.busy := by
  obtain ⟨a, b, c, d⟩ := t
  revert a b c d; decide

theorem State.regRead_status_busy (s : State) : (s.regRead 1).getLsbD 0 = s.status.busy := statusWord_busy s.status

/-- One iteration of `poll` while a command runs: STATUS is read, and the `poll` goes on (R81). -/
theorem State.pollOnce_busy {s : State} (hb : s.status.busy = true) : s.pollOnce =
    { s with replies := .word (s.regRead 1) :: s.replies, inputs := .poll :: s.inputs } :=
  if_pos (s.regRead_status_busy.trans hb)

/-- One iteration of `poll` while no command runs: STATUS is read, and the `poll` ends (R81). -/
theorem State.pollOnce_idle {s : State} (hb : s.status.busy = false) : s.pollOnce =
    { s with replies := .word (s.regRead 1) :: s.replies } :=
  if_neg (by rw [s.regRead_status_busy, hb]; decide)

/-- A quiet input while a command runs changes at most what the host was told and what comes next (R62, R101, R102). -/
theorem inputMove_quiet {i : Input} {s : State} (hb : s.status.busy = true) (hq : quiet i = true) :
    ∃ r is, inputMove i s = .next { s with replies := r, inputs := is } ∧ (is = s.inputs ∨ is = .poll :: s.inputs) := by
  cases i with
  | reset => cases hq
  | poll => exact ⟨_, _, congrArg Host.Outcome.next (State.pollOnce_busy hb), .inr rfl⟩
  | issue x =>
    cases x with
    | regRead i => exact ⟨_, _, rfl, .inl rfl⟩
    | regWrite i v =>
      refine ⟨s.replies, s.inputs, ?_, .inl rfl⟩
      simp [inputMove, transact, State.regWrite, hb]
    | gridRead i => cases hq
    | gridWrite i v => cases hq
    | pbufRead i => cases hq
    | pbufWrite i v => cases hq

/-- A host turn while a command runs, with inputs quiet as far as the next `poll`, keeps them so: it changes nothing else
but what the host was told (R81, R101, R102). -/
theorem inputMove_quietUntilPoll {i : Input} {s : State} (hb : s.status.busy = true)
    (hq : quietUntilPoll (i :: s.inputs) = true) :
    ∃ r is, inputMove i s = .next { s with replies := r, inputs := is } ∧ quietUntilPoll is = true := by
  cases i with
  | reset => cases hq
  | poll => exact ⟨_, _, congrArg Host.Outcome.next (State.pollOnce_busy hb), rfl⟩
  | issue x =>
    obtain ⟨hx, hq⟩ := Bool.and_eq_true_iff.1 hq
    cases x with
    | regRead i => exact ⟨_, _, rfl, hq⟩
    | regWrite i v => exact ⟨s.replies, s.inputs, by simp [inputMove, transact, State.regWrite, hb], hq⟩
    | _ => cases hx

/-- A `poll` while no command runs ends (R81). -/
theorem step_poll_idle {s : State} {is : List Input} (hb : s.status.busy = false) (hi : s.inputs = .poll :: is) :
    step s = .next { s with inputs := is, replies := .word (statusWord s.status) :: s.replies } := by
  rw [step_input hb hi]
  exact congrArg Host.Outcome.next (State.pollOnce_idle (s := { s with inputs := is }) hb)

end Sys2Proof.Machine
end

