-- ==== Sys2Proof/Laws/Invariant.lean ====
section
/-! SUPPORT. What a command keeps of the machine's invariant: the memories' canonical form (R33, R34, R56), the engine's
widths (R36), and which codes go with which outputs (R221, R222, R6). -/

namespace Sys2Proof.Machine

theorem Engine.fits_reset : Engine.reset.Fits := by constructor <;> decide

theorem Engine.Fits.withOp {e : Engine} (h : e.Fits) (op : BitVec 4) : Engine.Fits { e with op := op } :=
  ⟨h.x, h.y, h.hc, h.pcA, h.len, h.header, h.payload, h.slot, h.zeros, h.ci, h.ol⟩

theorem codeValue_le (c : Code) (h : c ≠ .channelSaturation) : codeValue c ≤ 6 := by
  cases c <;> first | decide | exact absurd rfl h

/-- What a completed command leaves, for the sizes of `s`. -/
structure Keeps (s t : State) : Prop where
  grid : Memory.wf s.params.gridWords t.grid
  pbuf : Memory.wf s.params.pbufBytes t.pbuf
  engine : t.engine.Fits
  code : t.status.code ≤ 6
  term : t.status.term = true → t.status.code = codeValue .ok
  outLen : t.outLen.toNat ≤ s.params.pbufBytes
  fatal : t.status.code ≠ codeValue .ok → t.status.code ≠ codeValue .missingTerminator → t.outLen = 0

/-- What is left to show of a command that completed with `code`, `term` and `outLen`. -/
theorem Keeps.of_completed {s t : State} {c : Code} {b : Bool} {n h : Nat} (hg : Memory.wf s.params.gridWords t.grid)
    (hp : Memory.wf s.params.pbufBytes t.pbuf) (he : t.engine.Fits) (hc : CompletedWith t c b n h)
    (hn : n ≤ s.params.pbufBytes) (h7 : c ≠ .channelSaturation) (hb : b = true → c = .ok)
    (hf : codeFatal c = true → n = 0) : Keeps s t := by
  refine ⟨hg, hp, he, ?_, ?_, by rw [hc.outLen]; exact hn, fun h1 h2 => ?_⟩
  · rw [hc.status]; exact codeValue_le c h7
  · rw [hc.status]; intro h; rw [hb h]; rfl
  · refine BitVec.eq_of_toNat_eq ?_
    rw [hc.outLen]
    refine hf ?_
    rw [hc.status] at h1 h2
    cases c <;> first | rfl | exact absurd rfl h1 | exact absurd rfl h2

theorem raises_ne {i : Instr} {c : Code} (h : raises i c) : c ≠ .channelSaturation := by
  rcases h with ⟨-, rfl⟩ | ⟨-, rfl⟩ | ⟨-, rfl⟩ | ⟨-, rfl⟩ <;> decide

theorem exec_keeps {i : Instr} {s t : State} (hL : s.params.Legal) (hg : Memory.wf s.params.gridWords s.grid)
    (hp : Memory.wf s.params.pbufBytes s.pbuf) (he : s.engine.Fits) (h : exec i s = .next t) : Keeps s t := by
  have h0 := h
  have hlt := s.N_lt
  rcases exec_cases h with ⟨c, hc, rfl⟩ | ⟨rfl, h1, h2, rfl⟩ | ⟨rfl, h1, h2, h3, rfl⟩ | ⟨rfl, h1, h2, h3⟩ | ⟨rfl, h1⟩ | ⟨rfl, h1⟩
  · exact .of_completed hg hp he ⟨rfl, rfl, rfl⟩ (Nat.zero_le _) (raises_ne hc) (fun h => by cases h) fun _ => rfl
  · have hN : s.N ≤ s.params.gridWords := by have := not_or.1 h1; simp only [State.gridTooBig] at this; omega
    have r := s.embedATraverse_result hN
    have hhc := s.embedATraverse_engine hN h2
    obtain ⟨hW, hH, hcc, h6, hmax⟩ := capOK_count h2
    obtain ⟨g, e, hf⟩ := s.embedATraverse_form
    refine .of_completed (n := 0) (h := _) ?_ (by rw [hf]; exact hp) ?_ ⟨rfl, rfl, rfl⟩ (Nat.zero_le _) (by decide)
      (fun h => by cases h) fun _ => rfl
    · exact embedAFold_wf (s := s.startEmbedA) (columnMajor s.W s.H) hg
    · have hpc := r.pcA; have hx := r.x he.x; have hy := r.y he.y; have hr := r.rest
      simp only [State.complete_engine] at *
      rw [hr]
      exact ⟨hx, hy, by simp only [hhc]; omega, by simp only; omega, by simp only [State.startEmbedA]; omega,
        by simp [State.startEmbedA], by simp [State.startEmbedA, length_bytesToBits]; omega, he.slot, he.zeros, he.ci, he.ol⟩
  · have hh := s.headerDecode_readHeader_lt
    have hw := s.W_lt
    have hht := s.H_lt
    refine .of_completed (n := 0) (h := _) hg hp ?_ ⟨rfl, rfl, rfl⟩ (Nat.zero_le _) (by decide) (fun h => by cases h) fun _ => rfl
    exact ⟨by simp only [State.complete_engine, State.startExtractA]; omega,
      by simp only [State.complete_engine, State.startExtractA]; omega, le_rfl, by simp [State.startExtractA], hh,
      by simp [State.startExtractA], by simp [State.startExtractA], he.slot, he.zeros, he.ci, he.ol⟩
  · obtain ⟨x, y, hx, hy, hf⟩ := exec_extractA_ok h1 h2 h3
    obtain ⟨t', ht', hcw, -⟩ := exec_extractA_result hL h1 h2 h3
    have h6 := State.six_le_N (s := s) (by omega) (by omega)
    rw [h] at ht'; cases ht'
    rw [h] at hf
    have hh := s.headerDecode_readHeader_lt
    have hfit := Params.Legal.payload_fits hL (Nat.le_of_not_lt h1) hh (by omega)
    have hk : pixelsForBits (headerDecode s.readHeader) ≤ 4194304 := by unfold pixelsForBits; omega
    simp only [Host.Outcome.next.injEq] at hf
    refine .of_completed ?_ ?_ ?_ hcw hfit (by decide) (fun h => by cases h) fun h => by cases h
    · rw [hf, State.pbufWriteFrom_eq]; exact hg
    · rw [hf]; exact State.pbufWriteFrom_wf (s := { s with engine := _ }) 0 _ hp
    · rw [hf, State.pbufWriteFrom_eq]
      exact ⟨hx, hy, le_rfl, by simp only [State.complete_engine]; omega, hh, by simp,
        by simp [State.length_payloadBits]; omega, he.slot, he.zeros, he.ci, he.ol⟩
  · obtain ⟨u, hu, r⟩ := exec_embedB_ok h1
    rw [h] at hu; cases hu
    have hc : s.count < 2 ^ 32 := s.inLen.isLt
    have ha := r.at_
    have hk := r.kept
    rw [Nat.zero_add] at ha
    refine .of_completed (n := 0) (h := 0) (exec_embedB_wf h0 hg) (by obtain ⟨g, e, rfl⟩ := r.form; exact hp) ?_
      ⟨rfl, rfl, rfl⟩ (Nat.zero_le _) (by decide) (fun _ => rfl) fun _ => rfl
    refine ⟨r.x he.x, r.y he.y, ?_, ?_, ?_, ?_, ?_, ?_, ?_, ?_, ?_⟩
    · show u.engine.hc ≤ 24; rw [hk.hc]; exact he.hc
    · show u.engine.pcA ≤ _; rw [hk.pcA]; exact he.pcA
    · show u.engine.len < _; rw [hk.len]; exact he.len
    · show u.engine.header.length ≤ _; rw [hk.header]; exact he.header
    · show u.engine.payload.length ≤ _; rw [hk.payload]; exact he.payload
    · show u.engine.slot < _; rw [ha.slot]; omega
    · show u.engine.zeros ≤ _
      by_cases hm : min (3 * s.N) (8 * s.count + 8) ≤ 8 * s.count
      · rw [(ha.hide hm).2.1]; omega
      · rw [(ha.fill (by omega)).2.1]; omega
    · show u.engine.ci < _
      by_cases hm : min (3 * s.N) (8 * s.count + 8) ≤ 8 * s.count
      · rw [(ha.hide hm).2.2.1]; omega
      · rw [(ha.fill (by omega)).2.2]; omega
    · show u.engine.ol < _; rw [hk.ol]; exact he.ol
  · obtain ⟨u, hu, hf, hslot, hol, hlen, hpb, hwf⟩ := exec_extractB_ok hL h1
    obtain ⟨t', ht', hcw, -⟩ := exec_extractB_result hL h1
    rw [h] at hu ht'; cases ht'; cases hu
    have hfit := Params.Legal.text_fits hL (Nat.le_of_not_lt h1)
    refine .of_completed ?_ (hwf hp) ?_ hcw (by omega) ?_ ?_ ?_
    · obtain ⟨p, x, y, n, c, o, rfl, -⟩ := hf; exact hg
    · obtain ⟨p, x, y, n, c, o, rfl, hxy⟩ := hf
      obtain ⟨hx, hy⟩ := hxy ⟨he.x, he.y⟩
      simp only at hslot hol
      exact ⟨hx, hy, he.hc, he.pcA, he.len, he.header, he.payload, by simp only [State.complete_engine]; omega, he.zeros, he.ci,
        by simp only [State.complete_engine]; omega⟩
    · split <;> decide
    · intro h; rw [if_pos (by simpa using h)]
    · split <;> intro h <;> cases h

end Sys2Proof.Machine
end

