-- ==== Sys2Proof/Laws/PerInstr.lean ====
section
/-! SUPPORT. The statement family the host splits by constructor: what word each command is written as (R70 to R72). -/

namespace Sys2Proof.Laws.EncodeWord

/-- The word of a command has 0 in the reserved bits [31:4] and the command's code in OP. -/
def Statement (i : Instr) : Prop := (encode i).toNat < 16 ∧ opField (encode i) = encodeOp i

theorem embedA : Statement .embedA := ⟨by decide, opField_setWidth _⟩

theorem extractA : Statement .extractA := ⟨by decide, opField_setWidth _⟩

theorem embedB : Statement .embedB := ⟨by decide, opField_setWidth _⟩

theorem extractB : Statement .extractB := ⟨by decide, opField_setWidth _⟩

theorem illegal (op : BitVec 4) : Statement (.illegal op) :=
  ⟨by rw [encode, encodeOp, BitVec.toNat_setWidth]; omega, opField_setWidth _⟩

end Sys2Proof.Laws.EncodeWord
end

