-- ==== Sys2Proof/Laws/Registers.lean ====
section
/-! SUPPORT. The register port in terms of masks: the stored fields of R23 to R29. -/

namespace Sys2Proof.Machine

theorem regIndex_cases : ∀ j : BitVec 3, j = 0 ∨ j = 1 ∨ j = 2 ∨ j = 3 ∨ j = 4 ∨ j = 5 ∨ j = 6 ∨ j = 7 := by decide

/-- A field of the low `n` bits, read back in 32, is the mask of those bits. -/
theorem setWidth_setWidth_eq_and (v m : Word) {n : Nat} (hm : ∀ i, i < 32 → m.getLsbD i = decide (i < n)) :
    (v.setWidth n).setWidth 32 = v &&& m := by
  refine BitVec.eq_of_getLsbD_eq fun i hi => ?_
  simp only [BitVec.getLsbD_setWidth, BitVec.getLsbD_and, hm i hi, hi]
  cases decide (i < n) <;> simp

/-- Above a field of `n` bits everything reads 0. -/
theorem setWidth_and_zero {n : Nat} (v : BitVec n) (m : Word) (hm : ∀ i, i < 32 → m.getLsbD i = decide (n ≤ i)) :
    v.setWidth 32 &&& m = 0 := by
  refine BitVec.eq_of_getLsbD_eq fun i hi => ?_
  simp only [BitVec.getLsbD_setWidth, BitVec.getLsbD_and, hm i hi, hi]
  by_cases h : n ≤ i
  · simp [BitVec.getLsbD_of_ge _ _ h]
  · simp [h]

theorem opField_eq_setWidth (v : Word) : opField v = v.setWidth 4 := by
  refine BitVec.eq_of_getLsbD_eq fun i hi => ?_
  simp [opField, hi]

theorem statusWord_reserved (t : Status) : statusWord t &&& 0xFFFFFF08 = 0 := by
  obtain ⟨a, b, c, d⟩ := t
  revert a b c d; decide

@[simp] theorem State.regRead_platformReset (s : State) (i : BitVec 3) : s.platformReset.regRead i = 0 := by
  rcases regIndex_cases i with rfl | rfl | rfl | rfl | rfl | rfl | rfl | rfl
  · rfl
  · show statusWord Status.reset = 0
    decide
  all_goals rfl

end Sys2Proof.Machine
end

