-- ==== Sys2Proof/Tests/Slice0.lean ====
section
/-! SUPPORT. The model's own tests: words and vectors of the spec (30_encoding.md, 95_test_vectors.md), and for every
statement with hypotheses a witness that meets them. -/

namespace Sys2Proof.Tests

open Sys2Proof.Machine

/-! ### Helpers -/

/-- Values written from index 0 on. -/
def words (g : List Nat) : Memory Word := g.zipIdx.map fun p => (p.2, BitVec.ofNat 32 p.1)

/-- The same of bytes. -/
def bytes (d : List Nat) : Memory Byte := d.zipIdx.map fun p => (p.2, BitVec.ofNat 8 p.1)

/-- An idle block of 100 GRID words and 48 PBUF bytes (the vectors' GRID_WORDS), loaded. -/
def block (w h : Nat) (g d : List Nat) (n : Nat) : State :=
  { State.reset with
    width := BitVec.ofNat 16 w
    height := BitVec.ofNat 16 h
    inLen := BitVec.ofNat 32 n
    params := Params.mk 100 48
    grid := words g
    pbuf := bytes d }

/-- What holds of the next state. -/
def after (o : Host.Outcome State Fault Refusal) (p : State → Bool) : Bool :=
  match o with
  | .next t => p t
  | .fault _ => false
  | .refused _ => false

/-- One step that runs the command of OP `op`. -/
def runs (op : Nat) (s : State) (p : State → Bool) : Bool := after (step (s.withFetchWord 32 op)) p

/-- A block that has just accepted the word `v`. -/
def busy (v : Nat) (s : State) : State := s.withCommand (BitVec.ofNat 32 v)

/-- `n` times the value `v`. -/
def fill (n v : Nat) : List Nat := List.replicate n v

/-- The V-A1 block: 6 by 1, all FFFFFFFF. -/
def whiteRow : State := block 6 1 (fill 6 0xFFFFFFFF) [] 0

/-- The V-A2 inputs. -/
def greyGrid : State := block 6 2 (fill 12 0x80808080) [0x5A, 0xC3, 0x0F] 3

/-- The V-B5 inputs. -/
def hiGrid : State := block 3 3 (fill 9 0xFFFFFFFF) [0x48, 0x69] 2

/-- The V-B5 result, to extract from. -/
def hiResult : State :=
  block 3 3 [0xFFFEFEFE, 0xFFFFFEFE, 0xFFFFFEFF, 0xFFFEFEFF, 0xFFFEFFFF, 0xFFFEFEFE, 0xFFFEFEFE, 0xFFFEFEFE,
    0xFFFFFFFF] [] 2

/-- The V-X7 grid: 10 by 1, a header of 16 bits. -/
def header16 : State := block 10 1 [0, 0, 0, 0, 0, 0, 0, 0, 1, 0] [] 0

/-- The V-X8 grid: a header of 17 bits. -/
def header17 : State := block 10 1 [0, 0, 0, 0, 0, 0, 0, 0, 1, 1] [] 0

/-! ### Well-formedness -/

theorem test_wellFormed_refuses_assigned_ops :
    (Instr.illegal 1).wellFormed = false ∧ (Instr.illegal 2).wellFormed = false ∧
    (Instr.illegal 3).wellFormed = false ∧ (Instr.illegal 4).wellFormed = false := by decide

theorem test_wellFormed_accepts_reserved_ops :
    (Instr.illegal 0).wellFormed = true ∧ (Instr.illegal 5).wellFormed = true ∧
    (Instr.illegal 15).wellFormed = true ∧ Instr.embedA.wellFormed = true := by decide

/-! ### Decoding: words from R70 to R72, bit by bit -/

theorem test_decode_embedA :
    decodeTableWord 32 0b00000000000000000000000000000001 = some .embedA := by decide

theorem test_decode_extractA :
    decodeTableWord 32 0b00000000000000000000000000000010 = some .extractA := by decide

theorem test_decode_embedB :
    decodeTableWord 32 0b00000000000000000000000000000011 = some .embedB := by decide

theorem test_decode_extractB :
    decodeTableWord 32 0b00000000000000000000000000000100 = some .extractB := by decide

theorem test_decode_illegal :
    decodeTableWord 32 0b00000000000000000000000000000000 = some (.illegal 0) ∧
    decodeTableWord 32 0b00000000000000000000000000000101 = some (.illegal 5) ∧
    decodeTableWord 32 0b00000000000000000000000000001111 = some (.illegal 15) := by decide

/-- V-C3: bits [31:4] select nothing. -/
theorem test_decode_ignores_reserved_bits :
    decodeTableWord 32 0b11111111111111111111111111110001 = some .embedA := by decide

/-- R79: what is no 32-bit write is rejected by name. -/
theorem test_decode_rejects :
    decodeBits 33 1 = .error .longerThanOneWord ∧ decodeBits 4 16 = .error .bitsBeyondLength := by decide

/-! ### Datapath (V-P1 to V-P13, V-T1 to V-T7, V-F1 to V-F8, E1 to E8) -/

theorem test_packers :
    bytesToBits [] = [] ∧
    bytesToBits [0xA5, 0x3C] = [true, false, true, false, false, true, false, true,
      false, false, true, true, true, true, false, false] ∧
    bitsToBytes [true, false, true, false, false, true, false, true, false, false, true] = [0xA5] ∧
    bitsToBytes [true, true, true, true, false, true, false, true, true, true] = [0xF5] := by decide

theorem test_channels :
    parityWrite 128 false = 128 ∧ parityWrite 128 true = 129 ∧ parityWrite 255 false = 254 ∧
    parityWrite 255 true = 255 ∧ parityWritePixel 0xFFFFFFFF false false false false = 0xFEFEFEFE ∧
    parityWritePixel 0x80808080 true false true false = 0x81808180 ∧
    parPixel 0x81808180 = [true, false, true, false] ∧ lsbClear 0x81 = 0x80 := by decide

theorem test_characters :
    reverse8 0x82 = 0x41 ∧ reverse8 0x12 = 0x48 ∧
    charPack [true, false, false, true, false, true, true, false] = 0x69 := by decide

theorem test_orders :
    columnMajor 2 2 = [(0, 0), (0, 1), (1, 0), (1, 1)] ∧ rowMajor 2 2 = [(0, 0), (1, 0), (0, 1), (1, 1)] ∧
    (List.range 6).map (trailerPixel 7 2) = [(1, 1), (2, 1), (3, 1), (4, 1), (5, 1), (6, 1)] ∧
    (List.range 8).map (nt 7 2) = [(0, 0), (0, 1), (1, 0), (2, 0), (3, 0), (4, 0), (5, 0), (6, 0)] ∧
    nt 10 10 48 = (4, 8) ∧ nt 10 10 49 = (5, 0) ∧ nt 10 10 93 = (9, 8) ∧
    (rowMajor 5 3).filter (fun p => decide (trailer 5 3 p.1 p.2)) = [(0, 2), (1, 2), (2, 2), (3, 2), (4, 2)] := by
  decide

theorem test_framer :
    headerDecode (headerBits 17) = 17 ∧ headerBits 16777215 = List.replicate 24 true ∧
    capOK 24 6 2 ∧ ¬ capOK 25 6 2 ∧ capOK 0 6 1 ∧ ¬ capOK 1 6 1 ∧ ¬ capOK 0 5 5 ∧
    ¬ capOK 16777216 65535 65535 := by decide

/-! ### Commands, one step each -/

/-- V-A4. -/
theorem test_embedA_skips_the_trailer :
    runs 1 (block 7 2 (fill 14 0x80808080) [0xA5, 0x3C] 2) (fun t =>
      t.grid == words [0x81808180, 0x80808181, 0x81818080, 0x80808080, 0x80808080, 0x80808080, 0x80808080,
        0x80818081, 0x80808080, 0x80808080, 0x80808080, 0x80808080, 0x80808081, 0x80808080] &&
      t.regRead 1 == 0x2 && t.regRead 6 == 16) = true := by decide +kernel

/-- V-A3. -/
theorem test_embedA_over_capacity :
    runs 1 (block 6 2 (fill 12 0x80808080) [0x5A, 0xC3, 0x0F, 0x00] 4) (fun t =>
      t.grid == words (fill 12 0x80808080) && t.regRead 1 == 0x12 && t.regRead 6 == 0) = true := by decide

/-- V-X9. -/
theorem test_extractA_ten_bits :
    runs 2 (block 10 1 [0x01010101, 0x00010001, 0x01010101, 0, 0, 0, 0, 0, 0, 0x01000100] [] 0) (fun t =>
      t.pbuf == bytes [0xF5] && t.regRead 1 == 0x2 && t.regRead 6 == 10 && t.regRead 5 == 1) = true := by decide

/-- V-X8. -/
theorem test_extractA_invalid_length :
    runs 2 header17 (fun t =>
      t.pbuf == [] && t.regRead 1 == 0x22 && t.regRead 6 == 17 && t.regRead 5 == 0) = true := by decide

/-- V-B5. -/
theorem test_embedB_stop_without_commit :
    runs 3 hiGrid (fun t => t.grid == hiResult.grid && t.regRead 1 == 0x6) = true := by decide

/-- V-B9. -/
theorem test_embedB_keeps_alpha :
    runs 3 (block 3 2 (fill 6 0x12345678) [0x41] 1) (fun t =>
      t.grid == words [0x12355678, 0x12345678, 0x12355678, 0x12345678, 0x12345678, 0x12345678] &&
      t.regRead 1 == 0x6) = true := by decide

/-- V-Y4. -/
theorem test_extractB_text :
    runs 4 hiResult (fun t => t.pbuf == bytes [0x48, 0x69] && t.regRead 1 == 0x6 && t.regRead 5 == 2) = true := by
  decide

/-- V-Y7. -/
theorem test_extractB_missing_terminator :
    runs 4 (block 2 2 [0x80808080, 0x80818080, 0x80818081, 0x80808180] [] 0) (fun t =>
      t.pbuf == bytes [0x48] && t.regRead 1 == 0x42 && t.regRead 5 == 1) = true := by decide

/-- V-C1. -/
theorem test_illegal_op_0 :
    runs 0 greyGrid (fun t => t.regRead 1 == 0x52 && t.regRead 0 == 0 && t.regRead 5 == 0 && t.regRead 6 == 0 &&
      t.grid == greyGrid.grid && t.pbuf == greyGrid.pbuf) = true := by decide

/-- V-C2. -/
theorem test_illegal_op_F :
    runs 0xF greyGrid (fun t => t.regRead 1 == 0x52 && t.regRead 0 == 0xF) = true := by decide

/-! ### Ports, reset and the host notation -/

/-- V-C4, V-C5: register writes while busy. -/
theorem test_busy_writes_are_ignored :
    after (transact (.regWrite 2 3) (busy 1 (block 10 10 [] [] 0))) (fun t => t.regRead 2 == 10) = true ∧
    after (transact (.regWrite 0 4) (busy 1 greyGrid)) (fun t => t == busy 1 greyGrid) = true := by decide

/-- V-C6, V-C7, V-C8. -/
theorem test_register_writes :
    after (transact (.regWrite 1 0xFFFFFFFF) greyGrid) (fun t => t == greyGrid) = true ∧
    after (transact (.regWrite 7 0x12345678) greyGrid) (fun t => t.regRead 7 == 0) = true ∧
    after (transact (.regWrite 2 0x00030002) greyGrid) (fun t => t.regRead 2 == 2) = true := by decide

/-- V-C9. -/
theorem test_grid_out_of_range :
    after (transact (.gridRead 100) greyGrid) (fun t => t.replies == [.word 0]) = true ∧
    after (transact (.gridWrite 100 1) greyGrid) (fun t => t == greyGrid) = true := by decide

/-- V-C10. -/
theorem test_reset_registers :
    (List.range 8).all (fun i => State.reset.regRead (BitVec.ofNat 3 i) == 0) = true := by decide

/-- The start of P2, a `loadp` and an `embed.b` (R81). -/
theorem test_host_notation :
    expandProgram 0 0 [.wr .width 3, .wr .height 1, .fillg 0xFFFFFFFF, .loadp 0 [0x48, 0x69], .embedB] =
      [.issue (.regWrite 2 3), .issue (.regWrite 3 1), .issue (.gridWrite 0 0xFFFFFFFF),
        .issue (.gridWrite 1 0xFFFFFFFF), .issue (.gridWrite 2 0xFFFFFFFF), .issue (.pbufWrite 0 0x48),
        .issue (.pbufWrite 1 0x69), .issue (.regWrite 0 3), .poll] := by decide

/-! ### Witnesses: for each statement with hypotheses, a state and operands that meet them -/

theorem witness_decodingAnEncodedCommand : Instr.wellFormed .extractB = true ∧ Instr.wellFormed (.illegal 9) = true := by
  decide

theorem witness_everyWordDenotesOneCommand :
    Instr.wellFormed (.illegal 0) = true ∧ decodeWord 0xABCDEF00 = .illegal 0 := by decide

/-- A block that runs EMBED_A, with turns and inputs still to come. -/
def between (turns : List Agent) (is : List Input) : State := { busy 1 greyGrid with schedule := turns, inputs := is }

/-- An idle block with inputs to come. -/
def waiting (is : List Input) : State := { greyGrid with inputs := is }

theorem witness_stepIsOneMove :
    (∃ s : State, s.status.busy = true ∧ s.schedule = []) ∧
    (∃ s : State, s.status.busy = true ∧ s.schedule = .engine :: [.host]) ∧
    (∃ s : State, s.status.busy = true ∧ s.schedule = .host :: [] ∧ s.inputs = []) ∧
    (∃ s : State, s.status.busy = true ∧ s.schedule = .host :: [.engine] ∧ s.inputs = .poll :: []) ∧
    (∃ s : State, s.status.busy = false ∧ s.inputs = .issue (.regRead 1) :: []) ∧
    ∃ s : State, s.status.busy = false ∧ s.inputs = [] :=
  ⟨⟨between [] [], by decide⟩, ⟨between [.engine, .host] [], by decide⟩, ⟨between [.host] [], by decide⟩,
    ⟨between [.host, .engine] [.poll], by decide⟩, ⟨waiting [.issue (.regRead 1)], by decide⟩, ⟨waiting [], by decide⟩⟩

theorem witness_acceptedCommandRunsNext :
    ∃ s : State, s.status.busy = false ∧ s.inputs = .issue (.regWrite 0 0xFFFFFFF1) :: [.poll] :=
  ⟨waiting [.issue (.regWrite 0 0xFFFFFFF1), .poll], by decide⟩

theorem witness_ctrlWrite :
    (∃ s : State, s.status.busy = false) ∧ ∃ s : State, s.status.busy = true := ⟨⟨greyGrid, rfl⟩, ⟨busy 1 greyGrid, rfl⟩⟩

theorem witness_operandsAreConstantWhileBusy :
    ((busy 1 greyGrid).status.busy = true ∧ ((2 : BitVec 3) = 2 ∨ (2 : BitVec 3) = 3 ∨ (2 : BitVec 3) = 4)) ∧
    (∃ s t : State, s.status.busy = true ∧ step s = .next t ∧ t.status.busy = false) ∧
    ∃ s t : State, s.status.busy = true ∧ step s = .next t ∧ s.schedule = .host :: [] ∧ s.inputs = .reset :: [] :=
  ⟨by decide, ⟨busy 0 greyGrid, _, rfl, rfl, rfl⟩, ⟨between [.host] [.reset], _, rfl, rfl, rfl, rfl⟩⟩

theorem witness_readOnlyAndReservedBits :
    ∀ i : BitVec 3, i = 1 ∨ i = 5 ∨ i = 6 ∨ i = 7 → ∃ s t : State, s.status.busy = false ∧
      transact (.regWrite i 0xFFFFFFFF) s = .next t :=
  fun i h => ⟨greyGrid, _, rfl, by rcases h with rfl | rfl | rfl | rfl <;> rfl⟩

theorem witness_operandWritesWhileIdle :
    ∀ i : BitVec 3, i = 2 ∨ i = 3 ∨ i = 4 → ∃ (s : State) (kept : Word), s.status.busy = false ∧
      ((i = 2 ∧ kept = 0x0000FFFF) ∨ (i = 3 ∧ kept = 0x0000FFFF) ∨ (i = 4 ∧ kept = 0xFFFFFFFF)) :=
  fun i h => ⟨greyGrid, if i = 4 then 0xFFFFFFFF else 0x0000FFFF, rfl, by rcases h with rfl | rfl | rfl <;> decide⟩

theorem witness_registerSideEffects :
    (∃ (s t : State) (v : Word), transact (.regWrite 4 v) s = .next t ∧ ¬ ((4 : BitVec 3) = 0 ∧ s.status.busy = false) ∧
      t.inLen = 0xFFFFFFFF) ∧
    ∃ s t : State, transact (.regWrite 0 3) s = .next t ∧ ¬ ((0 : BitVec 3) = 0 ∧ s.status.busy = false) :=
  ⟨⟨greyGrid, _, 0xFFFFFFFF, rfl, by decide, rfl⟩, ⟨busy 1 greyGrid, _, rfl, by decide⟩⟩

theorem witness_whoWritesTheStatusOutputs :
    (∃ s t : State, step s = .next t ∧ s.status.busy = false ∧ ¬ t.status = s.status) ∧
    (∃ s t : State, step s = .next t ∧ s.status.busy = true ∧ ¬ t.status = s.status) ∧
    ∃ s t : State, step s = .next t ∧ s.inputs = .reset :: [] ∧ ¬ t.status = s.status :=
  ⟨⟨waiting [.issue (.regWrite 0 1)], _, rfl, by decide⟩, ⟨busy 0 greyGrid, _, rfl, by decide⟩,
    ⟨between [.host] [.reset], _, rfl, by decide⟩⟩

theorem witness_resetAbandonsTheCommand :
    ∃ s : State, s.status.busy = true ∧ s.schedule = .host :: [] ∧ s.inputs = .reset :: [] :=
  ⟨between [.host] [.reset], by decide⟩

theorem witness_ports :
    greyGrid.status.busy = false ∧ 0 < greyGrid.params.gridWords ∧ 99 < greyGrid.params.gridWords ∧
    greyGrid.params.gridWords ≤ 100 ∧ 47 < greyGrid.params.pbufBytes ∧ greyGrid.params.pbufBytes ≤ 48 := by decide

theorem witness_memoryAccessWhileBusyFaults :
    ((busy 1 greyGrid).status.busy = true ∧ Transaction.touchesMemory (.gridRead 0) = true) ∧
    greyGrid.status.busy = false ∧ Transaction.touchesMemory (.regRead 1) = false := by decide

theorem witness_addressMapIsUnambiguous :
    PortBases.disjoint ⟨0x100, 0x1000, 0x2000⟩ ⟨100, 48⟩ ∧ unitExists ⟨100, 48⟩ (.grid 99) = true ∧
    unitExists ⟨100, 48⟩ (.pbuf 47) = true ∧ unitExists ⟨100, 48⟩ (.reg 7) = true := by decide

theorem witness_pixelBits : parPixel 0x81808180 = [true, false, true, false] := by decide

theorem witness_packerClosedForms :
    (1 < ([0xA5, 0x3C] : List Byte).length ∧ 7 < 8) ∧ 0 < (List.replicate 11 true).length / 8 := by decide

theorem witness_lengthHeader : 16777215 ≤ 16777215 ∧ (List.replicate 24 true).length = 24 := by decide

theorem witness_characterPacking : ([true, false, false, true, false, true, true, false] : Bits).length = 8 := by decide

theorem witness_traversalOrders :
    1 < 2 ∧ 0 < 3 ∧ (columnMajor 2 3)[3]? = some (1, 0) ∧ (rowMajor 2 3)[1]? = some (1, 0) := by decide

theorem witness_trailerAndPayloadPixels : (6 ≤ 7 ∧ 1 ≤ 2 ∧ 5 < 7 ∧ 1 < 2) ∧ 6 ≤ 10 ∧ 1 ≤ 1 ∧ 3 < 10 - 6 := by decide

theorem witness_illegalCommandCompletes : ReservedOp 0 ∧ ReservedOp 5 ∧ ReservedOp 15 := by decide

theorem witness_configurationCheck :
    (∃ s : State, s.params.gridWords < s.width.toNat * s.height.toNat) ∧
    (∃ s : State, s.params.pbufBytes < s.inLen.toNat ∧ s.width.toNat * s.height.toNat = s.params.gridWords) ∧
    ∃ s t : State, exec .extractB s = .next t ∧ t.status.code = codeValue .configError :=
  ⟨⟨block 11 10 [] [] 0, by decide⟩, ⟨block 10 10 [] [] 49, by decide⟩, ⟨block 11 10 [] [] 0, _, rfl, by decide⟩⟩

/-- V-A12, V-A3, V-A8, V-X8 and V-X6: the checks of R223, one failing at a time, and none. -/
theorem witness_checkOrder :
    (block 11 10 [] [] 0).params.gridWords < (block 11 10 [] [] 0).N ∧
    (block 10 10 [] [] 49).params.pbufBytes < (block 10 10 [] [] 49).count ∧
    (block 5 5 [] [] 0).W < 6 ∧ ¬ (block 5 5 [] [] 0).embedTooBig ∧
    ((block 6 2 [] [] 4).N : Int) - 6 < pixelsForBits (8 * (block 6 2 [] [] 4).count) ∧
    (header17.N : Int) - 6 < pixelsForBits (headerDecode header17.readHeader) ∧
    ¬ greyGrid.embedTooBig ∧ capOK (8 * greyGrid.count) greyGrid.W greyGrid.H ∧
    (hiGrid.N ≤ hiGrid.params.gridWords ∧ hiGrid.params.Legal ∧ hiGrid.status.busy = false) ∧
    ∃ s : State, ¬ s.embedTooBig ∧ 16777215 < 8 * s.count :=
  ⟨by decide, by decide, by decide, by decide, by decide, by decide, by decide, by decide, by decide,
    ⟨{ block 6 2 [] [] 2097152 with params := Params.mk 100 2097152 }, by decide⟩⟩

theorem witness_codesByCommand :
    (∃ t, exec .embedA (block 5 5 [] [] 0) = .next t ∧ t.status.code = codeValue .capacityExceeded) ∧
    (∃ t, exec .extractA header17 = .next t ∧ t.status.code = codeValue .invalidLength) ∧
    (∃ t, exec .extractA (block 5 5 [] [] 0) = .next t ∧ t.status.code = codeValue .truncatedStream) ∧
    (∃ t, exec .extractB (block 0 0 [] [] 0) = .next t ∧ t.status.code = codeValue .missingTerminator) ∧
    ∃ t, exec (.illegal 7) greyGrid = .next t ∧ t.status.code = codeValue .illegalCommand :=
  ⟨⟨_, rfl, by decide⟩, ⟨_, rfl, by decide⟩, ⟨_, rfl, by decide⟩, ⟨_, rfl, by decide⟩, ⟨_, rfl, by decide⟩⟩

theorem witness_fatalCodesLeaveNoOutput :
    (∃ t, exec .embedA (block 5 5 [] [] 0) = .next t ∧ t.status.code = codeValue .capacityExceeded ∧
      codeFatal .capacityExceeded = true ∧ Code.capacityExceeded ≠ .invalidLength) ∧
    ∃ t, exec .extractA header17 = .next t ∧ t.status.code = codeValue .invalidLength ∧
      codeFatal .invalidLength = true :=
  ⟨⟨_, rfl, by decide⟩, ⟨_, rfl, by decide⟩⟩

theorem witness_whatCommandsNeverWrite :
    greyGrid.params.Legal ∧ isEmbed .extractA = false ∧ greyGrid.N ≤ 12 ∧ greyGrid.N ≤ 99 := by decide

theorem witness_embedASucceeds :
    (¬ greyGrid.embedTooBig ∧ capOK (8 * greyGrid.count) greyGrid.W greyGrid.H) ∧
    ¬ whiteRow.embedTooBig ∧ capOK (8 * whiteRow.count) whiteRow.W whiteRow.H := by decide

theorem witness_embedAIsAllOrNothing :
    (block 10 10 [] [] 49).embedTooBig ∧
    ¬ capOK (8 * (block 6 2 [] [] 4).count) (block 6 2 [] [] 4).W (block 6 2 [] [] 4).H := by decide

/-- V-A9: at the boundary, and one byte above it. -/
theorem witness_capacityBoundary :
    (6 ≤ 6 ∧ 1 ≤ 2 ∧ 4 * (6 * 2 - 6) ≤ 16777215) ∧
    ∀ n, n = 2 ∨ n = 3 → ∃ s : State, 6 ≤ s.W ∧ 1 ≤ s.H ∧ 4 * (s.N - 6) ≤ 16777215 ∧ ¬ s.embedTooBig ∧ s.count = n ∧
      (s.N - 6) / 2 = 2 := by
  refine ⟨by decide, fun n hn => ⟨block 10 1 (fill 10 0) [] n, ?_⟩⟩
  rcases hn with rfl | rfl <;> decide

/-- V-X7, and V-X3 with an empty payload. -/
theorem witness_extractASucceeds :
    (header16.params.Legal ∧ ¬ header16.gridTooBig ∧ 6 ≤ header16.W ∧ 1 ≤ header16.H ∧
      pixelsForBits (headerDecode header16.readHeader) = header16.N - 6 ∧
      0 < headerDecode header16.readHeader / 8) ∧
    6 ≤ (block 6 1 (fill 6 0xFEFEFEFE) [] 0).W ∧
    pixelsForBits (headerDecode (block 6 1 (fill 6 0xFEFEFEFE) [] 0).readHeader) ≤
      (block 6 1 (fill 6 0xFEFEFEFE) [] 0).N - 6 := by decide

theorem witness_extractAErrors :
    (block 11 10 [] [] 0).gridTooBig ∧
    (¬ (block 5 5 [] [] 0).gridTooBig ∧ (block 5 5 [] [] 0).W < 6) ∧
    (¬ (block 6 0 [] [] 0).gridTooBig ∧ ¬ (block 6 0 [] [] 0).W < 6 ∧ (block 6 0 [] [] 0).H < 1) ∧
    ¬ header17.gridTooBig ∧ ¬ (header17.W < 6 ∨ header17.H < 1) ∧
    ¬ pixelsForBits (headerDecode header17.readHeader) ≤ header17.N - 6 := by decide

/-- The host writes IN_LEN between the two commands. -/
theorem witness_extractAIsIdempotent :
    ∃ s t : State, s.params.Legal ∧ exec .extractA s = .next t ∧ t.outLen = 2 ∧ SameImage t { t with inLen := 7 } :=
  ⟨header16, _, by decide, rfl, by decide, ⟨rfl, rfl, rfl, fun _ => rfl⟩⟩

theorem witness_variantARoundTrip :
    greyGrid.params.Legal ∧ 8 * greyGrid.count ≤ 16777215 ∧ 6 ≤ greyGrid.W ∧ 1 ≤ greyGrid.H ∧
    2 * greyGrid.count = greyGrid.N - 6 ∧ greyGrid.N ≤ greyGrid.params.gridWords ∧
    greyGrid.count ≤ greyGrid.params.pbufBytes ∧ SameImage greyGrid { greyGrid with inLen := 0 } :=
  ⟨by decide, by decide, by decide, by decide, by decide, by decide, by decide, ⟨rfl, rfl, rfl, fun _ => rfl⟩⟩

/-- V-B7, V-B4 and V-B5: k = 2, 1 and 0; V-B6: the terminator ends the grid; V-B12: nothing fits. -/
theorem witness_embedBResultShape :
    (∃ s : State, ¬ s.embedTooBig ∧ 8 * (s.count + 1) < 3 * s.N ∧ s.count % 3 = 0) ∧
    (∃ s : State, ¬ s.embedTooBig ∧ 8 * (s.count + 1) < 3 * s.N ∧ s.count % 3 = 1) ∧
    (∃ s : State, ¬ s.embedTooBig ∧ 8 * (s.count + 1) < 3 * s.N ∧ s.count % 3 = 2) ∧
    (∃ s : State, ¬ s.embedTooBig ∧ 3 * s.N = 8 * (s.count + 1)) ∧
    ∃ s : State, ¬ s.embedTooBig ∧ 3 * s.N < 8 * (s.count + 1) ∧ 0 < s.N :=
  ⟨⟨block 4 3 [] [] 3, by decide⟩, ⟨block 2 3 [] [] 1, by decide⟩, ⟨hiGrid, by decide⟩, ⟨block 4 2 [] [] 2, by decide⟩,
    ⟨block 1 1 [] [] 1, by decide⟩⟩

theorem witness_embedsChangeOnlyLsbs : ∃ t, exec .embedB hiGrid = .next t ∧ ¬ t.grid = hiGrid.grid :=
  ⟨_, rfl, by decide⟩

/-- V-Y4 with a terminator, V-Y12 without. -/
theorem witness_extractBCompletes :
    (hiResult.params.Legal ∧ ¬ hiResult.gridTooBig ∧ (0 : Byte) ∈ hiResult.characters ∧ hiResult.text = [0x48, 0x69]) ∧
    ¬ hiGrid.gridTooBig ∧ (0 : Byte) ∉ hiGrid.characters ∧ hiGrid.text.length = 3 := by decide

theorem witness_extractBIsIdempotent :
    ∃ s t : State, s.params.Legal ∧ exec .extractB s = .next t ∧ t.outLen = 2 ∧ SameImage t { t with inLen := 7 } :=
  ⟨hiResult, _, by decide, rfl, by decide, ⟨rfl, rfl, rfl, fun _ => rfl⟩⟩

theorem witness_variantBRoundTrip :
    hiGrid.params.Legal ∧ (∀ j, j < hiGrid.count → hiGrid.pbufRead j ≠ 0) ∧
    8 * (hiGrid.count + 1) ≤ 3 * hiGrid.N ∧ hiGrid.N ≤ hiGrid.params.gridWords ∧
    hiGrid.count ≤ hiGrid.params.pbufBytes ∧ SameImage hiGrid { hiGrid with inLen := 0 } :=
  ⟨by decide, by decide, by decide, by decide, by decide, ⟨rfl, rfl, rfl, fun _ => rfl⟩⟩

/-- V-B11: the zero character fits, although the text's end does not. -/
theorem witness_terminatorTruncation :
    ∃ s : State, s.params.Legal ∧ 2 < s.count ∧ s.pbufRead 2 = 0 ∧ (∀ j, j < 2 → s.pbufRead j ≠ 0) ∧
      8 * (2 + 1) ≤ 3 * s.N ∧ ¬ s.embedTooBig :=
  ⟨block 5 3 (fill 15 0xFFFFFFFF) [0x41, 0x42, 0, 0x43, 0x44] 5, by decide⟩

/-- The engine's variables differ. -/
theorem witness_resultIsAFunctionOfTheInputs :
    greyGrid.params.Legal ∧ SameInputs greyGrid { greyGrid with engine := { Engine.reset with acc := 1 } } :=
  ⟨by decide, ⟨rfl, rfl, rfl, fun _ => rfl⟩, rfl, fun _ => rfl⟩

/-- GRID[99] and IN_LEN differ. -/
theorem witness_commandsReadOnlyTheirOperands :
    ∃ s s' : State, s.params.Legal ∧ s'.params = s.params ∧ s'.width = s.width ∧ s'.height = s.height ∧
      (∀ p, p < s.N → s'.gridRead p = s.gridRead p) ∧ isEmbed .extractA = false ∧ ¬ s'.grid = s.grid ∧
      ¬ s'.inLen = s.inLen :=
  ⟨greyGrid, { greyGrid with inLen := 0, grid := Memory.store greyGrid.grid 99 1 }, by decide⟩

/-- Both embeds, with PBUF[10] different. -/
theorem witness_embedsReadOnlyTheirOperands :
    ∃ s s' : State, s'.params = s.params ∧ isEmbed .embedA = true ∧ s'.inLen = s.inLen ∧
      (∀ j, j < s.count → s'.pbufRead j = s.pbufRead j) ∧ ¬ s'.pbuf = s.pbuf :=
  ⟨greyGrid, { greyGrid with pbuf := Memory.store greyGrid.pbuf 10 1 }, by decide⟩

theorem witness_everyStepKeepsTheInvariant : Inv (busy 1 greyGrid) ∧ ∃ t, step (busy 1 greyGrid) = .next t :=
  ⟨⟨by decide, by decide, by decide, ⟨by decide, by decide, by decide, by decide, by decide, by decide, by decide,
      by decide, by decide, by decide, by decide⟩, by decide, by decide, by decide, by decide, by decide, by decide⟩,
    _, rfl⟩

theorem witness_invariantHoldsAtReset : Params.Legal ⟨1, 0⟩ ∧ Params.Legal ⟨100, 47⟩ := by decide

theorem witness_everyCommandCompletes :
    (∃ s : State, s.status.busy = true ∧ quietUntilPoll s.inputs = true ∧ s.schedule.length = 2 ∧
      s.inputs = [.issue (.regRead 1), .issue (.regWrite 0 3), .poll, .issue (.gridRead 0), .reset]) ∧
    ∃ s : State, s.status.busy = true ∧ quietUntilPoll s.inputs = true ∧ s.inputs = [.issue (.regRead 5)] :=
  ⟨⟨between [.host, .host] [.issue (.regRead 1), .issue (.regWrite 0 3), .poll, .issue (.gridRead 0), .reset],
      by decide⟩,
    ⟨between [] [.issue (.regRead 5)], by decide⟩⟩

theorem witness_everyPollEnds :
    (∃ s : State, s.inputs = .poll :: [] ∧ s.status.busy = true ∧ s.schedule = [.host, .host]) ∧
    ∃ s : State, s.inputs = .poll :: [] ∧ s.status.busy = false :=
  ⟨⟨between [.host, .host] [.poll], by decide⟩, ⟨waiting [.poll], by decide⟩⟩

theorem witness_firstStatusReadIsNeverStale :
    (∃ s : State, s.status.busy = false ∧ s.status.code = codeValue .missingTerminator ∧
      s.inputs = .issue (.regWrite 0 3) :: .issue (.regRead 1) :: []) ∧
    (busy 1 greyGrid).status.busy = true :=
  ⟨⟨{ waiting [.issue (.regWrite 0 3), .issue (.regRead 1)] with
      status := completedStatus .missingTerminator false }, by decide⟩, rfl⟩

theorem witness_disciplinedHostsNeverFault :
    ∃ s : State, disciplined s.status.busy s.inputs = true ∧ s.inputs.length = 5 :=
  ⟨waiting [.issue (.gridWrite 0 1), .issue (.regWrite 0 1), .issue (.regRead 5), .poll, .issue (.gridRead 0)],
    by decide⟩

theorem witness_everyStepKeepsTheDiscipline :
    ∃ s : State, s.status.busy = true ∧ disciplined s.status.busy s.inputs = true ∧ s.inputs.length = 3 :=
  ⟨between [.host, .engine] [.issue (.regRead 1), .poll, .issue (.gridRead 0)], by decide⟩

theorem witness_pseudoCommandProgramsNeverFault :
    ∃ (s : State) (p : List Line), s.status.busy = false ∧ (∀ v, Line.wr .ctrl v ∉ p) ∧ p.length = 3 :=
  ⟨greyGrid, [.wrp 0 0x41, .embedA, .rdg 0], rfl, fun v => by simp, rfl⟩

end Sys2Proof.Tests
end

section
/-! PROOFS. The machine's invariant: it holds after reset, and the engine's move and the outside world's each keep it
(00_scope.md R5, R6; 10_state.md R36, R39; 60_exceptions.md R221, R222; 70_reset_and_hazards.md R250, R256). -/

namespace Sys2Proof.Machine

/-- The sizes of the block at hand meet R5. -/
theorem sizes_legal : Config.sizes.Legal := ⟨Nat.le_add_left _ _, Nat.le_add_right _ _⟩

/-- A block as reset leaves it meets the invariant, whatever its sizes and whatever stands outside it (R250). -/
theorem inv_of_reset {s : State} (hparams : s.params.Legal) (hgrid : s.grid = []) (hpbuf : s.pbuf = [])
    (hengine : s.engine = Engine.reset) (hstatus : s.status = Status.reset) (houtLen : s.outLen = 0)
    (hhdr : s.hdr = 0) : Inv s where
  params := hparams
  grid := hgrid ▸ Memory.nil_wf _
  pbuf := hpbuf ▸ Memory.nil_wf _
  engine := hengine ▸ Engine.fits_reset
  running hb := by rw [hstatus] at hb; cases hb
  fresh _ _ := ⟨hstatus, houtLen, hhdr⟩
  code := by rw [hstatus]; decide
  term ht := by rw [hstatus] at ht; cases ht
  outLen := by rw [houtLen]; exact Nat.zero_le _
  fatal _ _ := houtLen

theorem Inv.platformReset {s : State} (h : Inv s) : Inv s.platformReset :=
  inv_of_reset h.params rfl rfl rfl rfl rfl rfl

/-- The invariant does not depend on the operands of R25 to R27 nor on what stands outside the block, and on the memories
only through their canonical form. -/
theorem Inv.withOperands {s : State} (h : Inv s) {g : Memory Word} {p : Memory Byte}
    (hg : Memory.wf s.params.gridWords g) (hp : Memory.wf s.params.pbufBytes p) (w ht : BitVec 16) (l : BitVec 32)
    (sc : List Agent) (is : List Input) (r : List Reply) :
    Inv { s with width := w, height := ht, inLen := l, grid := g, pbuf := p, schedule := sc, inputs := is, replies := r } :=
  { h with grid := hg, pbuf := hp }

/-- The invariant does not depend on what stands outside the block. -/
theorem Inv.withOutside {s : State} (h : Inv s) (sc : List Agent) (is : List Input) (r : List Reply) :
    Inv { s with schedule := sc, inputs := is, replies := r } :=
  h.withOperands h.grid h.pbuf _ _ _ _ _ _

/-- Acceptance starts a command with every status output as R100 leaves it. -/
theorem Inv.accept {s : State} (h : Inv s) (v : Word) : Inv (s.accept v) where
  params := h.params
  grid := h.grid
  pbuf := h.pbuf
  engine := h.engine.withOp _
  running _ := ⟨rfl, rfl, rfl, rfl⟩
  fresh hb := by cases hb
  code := by rw [State.accept_status]; decide
  term ht := by cases ht
  outLen := Nat.zero_le _
  fatal _ _ := rfl

/-- The engine's move: a completed command leaves what `Keeps` says, idle and with DONE = 1 (R105). -/
theorem exec_inv {i : Instr} {s t : State} (h : Inv s) (he : exec i s = .next t) : Inv t := by
  have k := exec_keeps h.params h.grid h.pbuf h.engine he
  obtain ⟨t', ht', hform⟩ := exec_form i s
  obtain rfl : t = t' := by rw [he] at ht'; injection ht'
  obtain ⟨st, ol, hd, g, p, e, rfl, hbusy, hdone⟩ := hform
  exact { params := h.params, grid := k.grid, pbuf := k.pbuf, engine := k.engine, code := k.code, term := k.term
          outLen := k.outLen, fatal := k.fatal
          running := fun hb => absurd (hbusy.symm.trans hb) (by decide)
          fresh := fun _ hnd => absurd (hdone.symm.trans hnd) (by decide) }

/-- The outside world's move: a reset, or, while idle, an acceptance or a write of operands or memory (R100 to R102,
R250). -/
theorem inputMove_inv {i : Input} {s t : State} (h : Inv s) (hm : inputMove i s = .next t) : Inv t := by
  cases hb : s.status.busy with
  | true =>
    obtain ⟨-, rfl⟩ | ⟨r, is, rfl⟩ := inputMove_busy hb hm
    · exact h.platformReset
    · exact h.withOutside _ _ _
  | false =>
    obtain ⟨-, rfl⟩ | ⟨v, -, rfl⟩ | ⟨w, ht, l, g, p, r, is, rfl, hg, hp⟩ := inputMove_idle hb hm
    · exact h.platformReset
    · exact h.accept v
    · exact h.withOperands (hg h.grid) (hp h.pbuf) _ _ _ _ _ _

/-- Settles O52: each of the moves a step can be keeps the invariant. -/
theorem everyStepKeepsTheInvariant : Obligations.EveryStepKeepsTheInvariant := by
  intro s t h hstep
  obtain ⟨-, -, hexec⟩ | ⟨turns, i, is, -, -, -, hmove⟩ | ⟨i, is, -, -, hmove⟩ | ⟨-, -, rfl⟩ := step_cases hstep
  · exact exec_inv (h.withOutside _ _ _) hexec
  · exact inputMove_inv (h.withOutside _ _ _) hmove
  · exact inputMove_inv (h.withOutside _ _ _) hmove
  · exact h

/-- Settles O53: the block's own sizes are legal, and any legal sizes may stand in their place. -/
theorem invariantHoldsAtReset : Obligations.InvariantHoldsAtReset :=
  ⟨inv_of_reset sizes_legal rfl rfl rfl rfl rfl rfl, fun _ hp => inv_of_reset hp rfl rfl rfl rfl rfl rfl⟩

end Sys2Proof.Machine
end

section
/-! PROOFS. What the host's transactions do to the block: the register port (10_state.md section 3, R23 to R32), the
memory ports while idle (R33, R34, R56, R57), and whose move a step is (R20, R59, R103, R259, R260). -/

namespace Sys2Proof.Machine

/-! ### Register writes, one equation per register -/

theorem State.regWrite_busy {s : State} (hb : s.status.busy = true) (i : BitVec 3) (v : Word) : s.regWrite i v = s :=
  if_pos hb

theorem State.regWrite_ctrl (s : State) (v : Word) : s.regWrite 0 v = if s.status.busy then s else s.accept v := rfl

theorem State.regWrite_width (s : State) (v : Word) :
    s.regWrite 2 v = if s.status.busy then s else { s with width := v.setWidth 16 } := rfl

theorem State.regWrite_height (s : State) (v : Word) :
    s.regWrite 3 v = if s.status.busy then s else { s with height := v.setWidth 16 } := rfl

theorem State.regWrite_inLen (s : State) (v : Word) :
    s.regWrite 4 v = if s.status.busy then s else { s with inLen := v } := rfl

/-- Read-only registers and index 7 ignore every write (R30, R31). -/
theorem State.regWrite_readOnly (s : State) {i : BitVec 3} (hi : i = 1 ∨ i = 5 ∨ i = 6 ∨ i = 7) (v : Word) :
    s.regWrite i v = s := by
  rcases hi with rfl | rfl | rfl | rfl <;> exact ite_self s

theorem regIndex_writable_or_readOnly :
    ∀ i : BitVec 3, i = 0 ∨ i = 2 ∨ i = 3 ∨ i = 4 ∨ (i = 1 ∨ i = 5 ∨ i = 6 ∨ i = 7) := by decide

/-- `t` is `s` but for the register of index `i`. -/
structure OnlyRegister (i : BitVec 3) (s t : State) : Prop where
  others : ∀ j, j ≠ i → t.regRead j = s.regRead j
  grid : SameGrid s t
  pbuf : SamePbuf s t
  engine : t.engine = s.engine
  params : t.params = s.params
  resets : t.resets = s.resets
  inputs : t.inputs = s.inputs
  replies : t.replies = s.replies
  schedule : t.schedule = s.schedule

theorem OnlyRegister.refl (i : BitVec 3) (s : State) : OnlyRegister i s s :=
  ⟨fun _ _ => rfl, fun _ => rfl, fun _ => rfl, rfl, rfl, rfl, rfl, rfl, rfl⟩

theorem onlyRegister_width (s : State) (w : BitVec 16) : OnlyRegister 2 s { s with width := w } :=
  ⟨fun j hj => by simp only [State.regRead, if_neg hj], fun _ => rfl, fun _ => rfl, rfl, rfl, rfl, rfl, rfl, rfl⟩

theorem onlyRegister_height (s : State) (h : BitVec 16) : OnlyRegister 3 s { s with height := h } :=
  ⟨fun j hj => by simp only [State.regRead, if_neg hj], fun _ => rfl, fun _ => rfl, rfl, rfl, rfl, rfl, rfl, rfl⟩

theorem onlyRegister_inLen (s : State) (n : BitVec 32) : OnlyRegister 4 s { s with inLen := n } :=
  ⟨fun j hj => by simp only [State.regRead, if_neg hj], fun _ => rfl, fun _ => rfl, rfl, rfl, rfl, rfl, rfl, rfl⟩

/-- Every register write but an accepting CTRL write changes its own register alone (R32). -/
theorem State.regWrite_onlyRegister {s : State} {i : BitVec 3} (h : ¬ (i = 0 ∧ s.status.busy = false)) (v : Word) :
    OnlyRegister i s (s.regWrite i v) := by
  by_cases hb : s.status.busy = true
  · rw [State.regWrite_busy hb]; exact .refl i s
  · rcases regIndex_writable_or_readOnly i with rfl | rfl | rfl | rfl | hi
    · exact absurd ⟨rfl, Bool.eq_false_of_not_eq_true hb⟩ h
    · rw [State.regWrite_width, if_neg hb]; exact onlyRegister_width s _
    · rw [State.regWrite_height, if_neg hb]; exact onlyRegister_height s _
    · rw [State.regWrite_inLen, if_neg hb]; exact onlyRegister_inLen s _
    · rw [s.regWrite_readOnly hi]; exact .refl i s

/-- A field of the low `n` bits does not see what a mask of at least those bits drops. -/
theorem setWidth_and_mask (v m : Word) {n : Nat} (hm : ∀ i, i < n → m.getLsbD i = true) :
    (v &&& m).setWidth n = v.setWidth n := by
  refine BitVec.eq_of_getLsbD_eq fun i hi => ?_
  simp only [BitVec.getLsbD_setWidth, BitVec.getLsbD_and, hm i hi, Bool.and_true]

/-- Bits that a register does not store make no difference to a write of it (R23, R25, R26, R31). -/
theorem State.regWrite_reserved (s : State) (v : Word) :
    s.regWrite 0 v = s.regWrite 0 (v &&& 0x0000000F) ∧ s.regWrite 2 v = s.regWrite 2 (v &&& 0x0000FFFF) ∧
      s.regWrite 3 v = s.regWrite 3 (v &&& 0x0000FFFF) := by
  have hop : opField (v &&& 0x0000000F) = opField v := by
    rw [opField_eq_setWidth, opField_eq_setWidth, setWidth_and_mask v _ (by decide)]
  have h16 : (v &&& 0x0000FFFF).setWidth 16 = v.setWidth 16 := setWidth_and_mask v _ (by decide)
  simp only [State.regWrite_ctrl, State.regWrite_width, State.regWrite_height, State.accept, hop, h16, and_self]

/-! ### The register port: what the host sees -/

/-- Settles O9: read-only indices by `regWrite_readOnly`, reserved bits by the width of each stored field. -/
theorem readOnlyAndReservedBits : Obligations.ReadOnlyAndReservedBits := by
  refine ⟨fun s i v hi => congrArg Host.Outcome.next (s.regWrite_readOnly hi v), fun s => ?_, State.regWrite_reserved⟩
  exact ⟨rfl, setWidth_and_zero s.ctrl _ (by decide), statusWord_reserved s.status,
    setWidth_and_zero s.width _ (by decide), setWidth_and_zero s.height _ (by decide),
    setWidth_and_zero s.hdr _ (by decide)⟩

/-- What an operand register reads after a write while idle: the bits it keeps of the value written (R25 to R27). -/
theorem State.regRead_regWrite_operand {s : State} (hb : s.status.busy = false) {i : BitVec 3} {kept : Word} (v : Word)
    (h : (i = 2 ∧ kept = 0x0000FFFF) ∨ (i = 3 ∧ kept = 0x0000FFFF) ∨ (i = 4 ∧ kept = 0xFFFFFFFF)) :
    (s.regWrite i v).regRead i = v &&& kept := by
  have hidle : ¬ s.status.busy = true := by simp [hb]
  rcases h with ⟨rfl, rfl⟩ | ⟨rfl, rfl⟩ | ⟨rfl, rfl⟩
  · rw [State.regWrite_width, if_neg hidle]
    exact setWidth_setWidth_eq_and v 0x0000FFFF (n := 16) (by decide)
  · rw [State.regWrite_height, if_neg hidle]
    exact setWidth_setWidth_eq_and v 0x0000FFFF (n := 16) (by decide)
  · rw [State.regWrite_inLen, if_neg hidle]
    exact BitVec.and_allOnes.symm

/-- Settles O10: the register written reads the bits it keeps, and nothing else changes. -/
theorem operandWritesWhileIdle : Obligations.OperandWritesWhileIdle := by
  intro s i kept v hb hi
  have hctrl : ¬ (i = 0 ∧ s.status.busy = false) := by
    rintro ⟨rfl, -⟩
    rcases hi with ⟨h0, -⟩ | ⟨h0, -⟩ | ⟨h0, -⟩ <;> cases h0
  have only := State.regWrite_onlyRegister hctrl v
  exact ⟨_, rfl, State.regRead_regWrite_operand hb v hi, only.others, only.grid, only.pbuf, only.engine, only.params,
    only.resets, only.inputs, only.replies, only.schedule⟩

/-- Settles O11: a read is a reply, and a write that is not accepted changes its own register alone. -/
theorem registerSideEffects : Obligations.RegisterSideEffects := by
  refine ⟨fun _ _ => rfl, fun s t i v h hctrl => ?_⟩
  obtain rfl : s.regWrite i v = t := by injection h
  have only := State.regWrite_onlyRegister hctrl v
  exact ⟨only.others, only.grid, only.pbuf, only.engine⟩

theorem statusWord_toNat (t : Status) :
    (statusWord t).toNat = 16 * t.code.toNat + 4 * t.term.toNat + 2 * t.done.toNat + t.busy.toNat := by
  obtain ⟨busy, done, term, code⟩ := t
  revert busy done term code; decide

/-- Settles O13: a STATUS read is the STATUS word. -/
theorem statusWordLayout : Obligations.StatusWordLayout := fun s => statusWord_toNat s.status

/-! ### The memory ports -/

theorem State.gridWrite_beyond (s : State) {i : Nat} (h : s.params.gridWords ≤ i) (v : Word) : s.gridWrite i v = s :=
  if_neg (by omega)

theorem State.pbufWrite_beyond (s : State) {i : Nat} (h : s.params.pbufBytes ≤ i) (v : Byte) : s.pbufWrite i v = s :=
  if_neg (by omega)

theorem State.pbufRead_beyond (s : State) {i : Nat} (h : s.params.pbufBytes ≤ i) : s.pbufRead i = 0 :=
  if_neg (by omega)

/-- Settles O16: read after write, and a GRID write changes the list of GRID's cells alone. -/
theorem gridPort : Obligations.GridPort := by
  intro s i v hb
  have hwrite : transact (.gridWrite i v) s = .next (s.gridWrite i v) := if_neg (by simp [hb])
  refine ⟨⟨_, hwrite, fun j => ?_, ?_⟩, fun hi => ⟨?_, s.gridRead_beyond hi⟩, if_neg (by simp [hb])⟩
  · rw [State.gridRead_gridWrite]
    exact if_congr (by omega) rfl rfl
  · obtain ⟨g, hg⟩ := s.gridWrite_form i v
    rw [hg]
    exact ⟨fun _ => rfl, fun _ => rfl, ⟨rfl, rfl, rfl, rfl, rfl, rfl, rfl, rfl, rfl⟩, rfl⟩
  · rw [hwrite, s.gridWrite_beyond hi]

/-- Settles O17: read after write, and a PBUF write changes the list of PBUF's cells alone. -/
theorem pbufPort : Obligations.PbufPort := by
  intro s i v hb
  have hwrite : transact (.pbufWrite i v) s = .next (s.pbufWrite i v) := if_neg (by simp [hb])
  refine ⟨⟨_, hwrite, fun j => ?_, ?_⟩, fun hi => ⟨?_, s.pbufRead_beyond hi⟩, if_neg (by simp [hb])⟩
  · rw [State.pbufRead_pbufWrite]
    exact if_congr (by omega) rfl rfl
  · obtain ⟨m, hm⟩ := s.pbufWrite_form i v
    rw [hm]
    exact ⟨fun _ => rfl, fun _ => rfl, ⟨rfl, rfl, rfl, rfl, rfl, rfl, rfl, rfl, rfl⟩, rfl⟩
  · rw [hwrite, s.pbufWrite_beyond hi]

/-! ### Whose move a step is -/

/-- Settles O4: the engine's turn by `step_engine`, the outside world's by `step_host` and `step_input`. -/
theorem stepIsOneMove : Obligations.StepIsOneMove := by
  refine fun s => ⟨fun hb hs => ?_, fun turns hb hs => ?_, fun turns hb hs hi => ?_, fun _ _ _ => step_host,
    fun _ _ => step_input, step_idle⟩
  · have hsame : { s with schedule := s.schedule.tail } = s := by rw [hs, List.tail_nil, ← hs]
    rw [step_engine hb (by simp [hostTurn, hs]), hsame]; rfl
  · rw [step_engine hb (by simp [hostTurn, hs]), hs]; rfl
  · rw [step_engine hb (by simp [hostTurn, hi]), hs]; rfl

end Sys2Proof.Machine
end

section
/-! PROOFS. What a command writes and reads: the status outputs and who writes them (10_state.md R39), the memory no
command writes (R33, R34, R58, R188), and the memory and operands it does not read (R27, R33, R58). -/

namespace Sys2Proof.Machine

/-! ### The status outputs of a completion (R39) -/

/-- Command `i` has completed in `t`, and has set no status output but those R39 gives it. -/
structure CompletionOutputs (i : Instr) (t : State) : Prop where
  busy : t.status.busy = false
  done : t.status.done = true
  term : t.status.term = true → i = .embedB ∨ i = .extractB
  hdr : t.hdr ≠ 0 → (i = .embedA ∧ t.status.code = codeValue .ok) ∨
    (i = .extractA ∧ (t.status.code = codeValue .ok ∨ t.status.code = codeValue .invalidLength))
  outLen : t.outLen ≠ 0 → (i = .extractA ∧ t.status.code = codeValue .ok) ∨ i = .extractB

theorem finishExtractB_hdr (w : Flow) : (finishExtractB w).hdr = 0 := by cases w <;> rfl

/-- Every command, in every state, sets no status output but those R39 gives it. -/
theorem exec_completionOutputs {i : Instr} {s t : State} (h : exec i s = .next t) : CompletionOutputs i t := by
  obtain ⟨hbusy, hdone⟩ : t.status.busy = false ∧ t.status.done = true := by
    obtain ⟨t', ht', st, ol, hd, g, p, e, rfl, hb, hd⟩ := exec_form i s
    rw [h] at ht'; cases ht'
    exact ⟨hb, hd⟩
  obtain ⟨c, -, rfl⟩ | ⟨rfl, -, -, rfl⟩ | ⟨rfl, -, -, -, rfl⟩ | ⟨rfl, hg, ht, hl⟩ | ⟨rfl, hc⟩ | ⟨rfl, hg⟩ := exec_cases h
  · exact ⟨hbusy, hdone, nofun, fun hne => absurd rfl hne, fun hne => absurd rfl hne⟩
  · exact ⟨hbusy, hdone, nofun, fun _ => .inl ⟨rfl, rfl⟩, fun hne => absurd rfl hne⟩
  · exact ⟨hbusy, hdone, nofun, fun _ => .inr ⟨rfl, .inr rfl⟩, fun hne => absurd rfl hne⟩
  · obtain ⟨x, y, -, -, hx⟩ := exec_extractA_ok hg ht hl
    rw [h] at hx; cases hx
    exact ⟨hbusy, hdone, nofun, fun _ => .inr ⟨rfl, .inl rfl⟩, fun _ => .inl ⟨rfl, rfl⟩⟩
  · obtain ⟨u, hu, -⟩ := exec_embedB_ok hc
    rw [h] at hu; cases hu
    exact ⟨hbusy, hdone, fun _ => .inl rfl, fun hne => absurd rfl hne, fun hne => absurd rfl hne⟩
  · have hfin : exec .extractB s = .next (finishExtractB s.extractBTraverse) := if_neg hg
    rw [h] at hfin; cases hfin
    exact ⟨hbusy, hdone, fun _ => .inr rfl, fun hne => absurd (finishExtractB_hdr _) hne, fun _ => .inr rfl⟩

/-- Settles O12: the engine's move completes a command, and of the outside world's moves only a reset or an acceptance
writes a status output. -/
theorem whoWritesTheStatusOutputs : Obligations.WhoWritesTheStatusOutputs := by
  intro s t hstep hchanged
  obtain ⟨hb, -, hexec⟩ | ⟨turns, i, is, hb, -, hin, hmove⟩ | ⟨i, is, hb, hin, hmove⟩ | ⟨-, -, rfl⟩ := step_cases hstep
  · obtain ⟨hbusy, hdone, hterm, hhdr, hout⟩ := exec_completionOutputs hexec
    exact .inr (.inl ⟨hb, hbusy, hdone, hterm, hhdr, hout⟩)
  · obtain ⟨rfl, rfl⟩ | ⟨r, is', rfl⟩ := inputMove_busy (s := { s with schedule := turns, inputs := is }) hb hmove
    · exact .inr (.inr ⟨⟨is, hin⟩, rfl, rfl, rfl⟩)
    · exact absurd ⟨rfl, rfl, rfl⟩ hchanged
  · obtain ⟨rfl, rfl⟩ | ⟨v, rfl, rfl⟩ | ⟨w, ht, l, g, p, r, is', rfl, -, -⟩ :=
      inputMove_idle (s := { s with inputs := is }) hb hmove
    · exact .inr (.inr ⟨⟨is, hin⟩, rfl, rfl, rfl⟩)
    · exact .inl ⟨hb, ⟨v, is, hin⟩, rfl, rfl, rfl⟩
    · exact absurd ⟨rfl, rfl, rfl⟩ hchanged
  · exact absurd ⟨rfl, rfl, rfl⟩ hchanged

/-! ### The memory no command writes (R33, R34, R58, R188) -/

/-- Command `i`, run from `s` to `t`, has written GRID only if it is an embed, and then below W*H alone, and PBUF only if
it is an extract, and then below OUT_LEN alone. -/
structure WritesWithin (i : Instr) (s t : State) : Prop where
  extract : isEmbed i = false → SameGrid s t
  grid : ∀ j, s.N ≤ j → t.gridRead j = s.gridRead j
  embed : i ≠ .extractA → i ≠ .extractB → SamePbuf s t
  pbuf : ∀ j, t.outLen.toNat ≤ j → t.pbufRead j = s.pbufRead j

theorem WritesWithin.ofSamePbuf {i : Instr} {s t : State} (he : isEmbed i = true)
    (hg : ∀ j, s.N ≤ j → t.gridRead j = s.gridRead j) (hp : SamePbuf s t) : WritesWithin i s t :=
  ⟨fun h => absurd (he.symm.trans h) (by decide), hg, fun _ _ => hp, fun j _ => hp j⟩

theorem WritesWithin.ofSameGrid {i : Instr} {s t : State} (he : i = .extractA ∨ i = .extractB) (hg : SameGrid s t)
    (hp : ∀ j, t.outLen.toNat ≤ j → t.pbufRead j = s.pbufRead j) : WritesWithin i s t :=
  ⟨fun _ => hg, fun j _ => hg j, fun hA hB => absurd he (not_or.2 ⟨hA, hB⟩), hp⟩

theorem WritesWithin.ofSame (i : Instr) {s t : State} (hg : SameGrid s t) (hp : SamePbuf s t) : WritesWithin i s t :=
  ⟨fun _ => hg, fun j _ => hg j, fun _ _ => hp, fun j _ => hp j⟩

theorem exec_writesWithin {i : Instr} {s t : State} (hL : s.params.Legal) (h : exec i s = .next t) :
    WritesWithin i s t := by
  obtain ⟨c, -, rfl⟩ | ⟨rfl, hc, -, rfl⟩ | ⟨rfl, -, -, -, rfl⟩ | ⟨rfl, hg, ht, hl⟩ | ⟨rfl, hc⟩ | ⟨rfl, hg⟩ := exec_cases h
  · exact .ofSame i (fun _ => rfl) fun _ => rfl
  · have hN : s.N ≤ s.params.gridWords := Nat.le_of_not_lt (not_or.1 hc).1
    refine .ofSamePbuf rfl (fun j hj => s.embedATraverse_beyond hN hj) ?_
    obtain ⟨g, e, hform⟩ := s.embedATraverse_form
    rw [hform]; exact fun _ => rfl
  · exact .ofSame _ (fun _ => rfl) fun _ => rfl
  · obtain ⟨u, hu, hdone, hgrid, hpbuf⟩ := exec_extractA_result hL hg ht hl
    rw [h] at hu; cases hu
    exact .ofSameGrid (.inl rfl) hgrid fun j hj => (hpbuf j).trans (if_neg (by rw [hdone.outLen] at hj; omega))
  · obtain ⟨u, hu, -, hpbuf, hgrid⟩ := exec_embedB_result hc
    rw [h] at hu; cases hu
    exact .ofSamePbuf rfl (fun j hj => (hgrid j).trans (if_neg (by omega))) hpbuf
  · obtain ⟨u, hu, hdone, hgrid, -, hpbuf⟩ := exec_extractB_result hL hg
    rw [h] at hu; cases hu
    exact .ofSameGrid (.inr rfl) hgrid fun j hj => (hpbuf j).trans (if_neg (by rw [hdone.outLen] at hj; omega))

/-- Settles O35: a command's fields by `exec_form`, its memory accesses by `exec_writesWithin`. -/
theorem whatCommandsNeverWrite : Obligations.WhatCommandsNeverWrite := by
  intro i s hL
  obtain ⟨t, ht, hform⟩ := exec_form i s
  obtain ⟨hextract, hgrid, hembed, hpbuf⟩ := exec_writesWithin hL ht
  exact ⟨t, ht, hform.same, hextract, hgrid, hembed, hpbuf⟩

/-! ### What a command reads (R27, R33, R58) -/

/-- The two states agree on what a command may read: the sizes, WIDTH, HEIGHT and the GRID words below W*H, and, if it is
an embed, IN_LEN and the PBUF bytes below it. -/
structure SameOperands (i : Instr) (s s' : State) : Prop where
  params : s'.params = s.params
  W : s'.W = s.W
  H : s'.H = s.H
  grid : ∀ p, p < s.N → s'.gridRead p = s.gridRead p
  count : isEmbed i = true → s'.count = s.count
  pbuf : isEmbed i = true → ∀ j, j < s.count → s'.pbufRead j = s.pbufRead j

/-- The two states agree on what a command run from `s` has put out: the status outputs, the pixels and the output
bytes. -/
structure SameOutputs (s t t' : State) : Prop where
  status : t'.status = t.status
  outLen : t'.outLen = t.outLen
  hdr : t'.hdr = t.hdr
  grid : ∀ p, p < s.N → t'.gridRead p = t.gridRead p
  pbuf : ∀ j, j < t.outLen.toNat → t'.pbufRead j = t.pbufRead j

/-- Two completions with the same status outputs, where the memories agree as far as they are results. -/
theorem CompletedWith.sameOutputs {s t t' : State} {c : Code} {b : Bool} {n hd : Nat} (h : CompletedWith t c b n hd)
    (h' : CompletedWith t' c b n hd) (hg : ∀ p, p < s.N → t'.gridRead p = t.gridRead p)
    (hp : ∀ j, j < n → t'.pbufRead j = t.pbufRead j) : SameOutputs s t t' where
  status := h'.status.trans h.status.symm
  outLen := BitVec.eq_of_toNat_eq (h'.outLen.trans h.outLen.symm)
  hdr := BitVec.eq_of_toNat_eq (h'.hdr.trans h.hdr.symm)
  grid := hg
  pbuf j hj := hp j (h.outLen ▸ hj)

theorem State.raise_completedWith (s : State) (c : Code) : CompletedWith (s.raise c) c false 0 0 := ⟨rfl, rfl, rfl⟩

/-- Both runs of `i` complete, and agree on what they put out. -/
def RunsAgree (i : Instr) (s s' : State) : Prop :=
  ∃ t t', exec i s = .next t ∧ exec i s' = .next t' ∧ SameOutputs s t t'

namespace SameOperands

variable {i : Instr} {s s' : State} (h : SameOperands i s s')
include h

theorem N : s'.N = s.N := by rw [State.N, h.W, h.H, State.N]

theorem gridTooBig_iff : s'.gridTooBig ↔ s.gridTooBig := by
  rw [State.gridTooBig, h.params, h.N]

theorem embedTooBig_iff (he : isEmbed i = true) : s'.embedTooBig ↔ s.embedTooBig := by
  rw [State.embedTooBig, h.gridTooBig_iff, h.params, h.count he]

theorem raises_agree {c : Code} (hs : exec i s = .next (s.raise c)) (hs' : exec i s' = .next (s'.raise c)) :
    RunsAgree i s s' :=
  ⟨_, _, hs, hs', (s.raise_completedWith c).sameOutputs (s'.raise_completedWith c) h.grid
    fun j hj => absurd hj (Nat.not_lt_zero j)⟩

theorem pbufBytes (he : isEmbed i = true) : s'.pbufBytes s'.count = s.pbufBytes s.count := by
  rw [h.count he]
  exact List.map_congr_left fun j hj => h.pbuf he j (List.mem_range.1 hj)

theorem textBit (he : isEmbed i = true) (n : Nat) : s'.textBit n = s.textBit n := by
  rw [State.textBit, State.textBit, h.count he]
  by_cases hn : n < 8 * s.count
  · rw [if_pos hn, if_pos hn, h.pbuf he _ (by omega)]
  · rw [if_neg hn, if_neg hn]

theorem textPixel (he : isEmbed i = true) {p : Nat} (hp : p < s.N) : s'.textPixel p = s.textPixel p := by
  simp only [State.textPixel, h.grid p hp, h.textBit he]

theorem readHeader (hW : 6 ≤ s.W) (hH : 1 ≤ s.H) : s'.readHeader = s.readHeader :=
  State.readHeader_congr h.W h.H h.grid hW hH

theorem outputBytes (hW : 6 ≤ s.W) (hH : 1 ≤ s.H) (hl : pixelsForBits (headerDecode s.readHeader) ≤ s.N - 6) :
    s'.outputBytes = s.outputBytes := by
  rw [State.outputBytes, h.readHeader hW hH, State.payloadBits_congr h.W h.H h.grid hW hH hl, State.outputBytes]

theorem characters : s'.characters = s.characters := State.characters_congr h.N h.grid

theorem text : s'.text = s.text := by rw [State.text, h.characters, State.text]

end SameOperands

/-- EMBED_A leaves the same pixels where it found the same pixels, IN_LEN and payload. -/
theorem SameOperands.embedATraverse {s s' : State} (h : SameOperands .embedA s s') (hN : s.N ≤ s.params.gridWords)
    (hc : capOK (8 * s.count) s.W s.H) {p : Nat} (hp : p < s.N) :
    s'.embedATraverse.gridRead p = s.embedATraverse.gridRead p := by
  have hN' : s'.N ≤ s'.params.gridWords := by rw [h.N, h.params]; exact hN
  have hc' : capOK (8 * s'.count) s'.W s'.H := by rw [h.count rfl, h.W, h.H]; exact hc
  obtain ⟨hW, hH, -⟩ := capOK_count hc
  obtain ⟨j, hj, rfl⟩ | ⟨q, hq, rfl⟩ := s.trailer_or_nt hW hH hp
  · have hhead := s'.embedATraverse_header hN' hc' hj
    rw [h.W, h.H, h.count rfl, h.grid _ hp] at hhead
    exact hhead.trans (s.embedATraverse_header hN hc hj).symm
  · have hpay := s'.embedATraverse_payload hN' hc' (h.N.symm ▸ hq)
    rw [h.W, h.H, h.pbufBytes rfl, h.count rfl, h.grid _ hp] at hpay
    exact hpay.trans (s.embedATraverse_payload hN hc hq).symm

theorem SameOperands.embedA_agree {s s' : State} (h : SameOperands .embedA s s') : RunsAgree .embedA s s' := by
  by_cases hbig : s.embedTooBig
  · exact h.raises_agree (exec_embedA_config hbig) (exec_embedA_config ((h.embedTooBig_iff rfl).2 hbig))
  have hbig' : ¬ s'.embedTooBig := mt (h.embedTooBig_iff rfl).1 hbig
  have hcap_iff : capOK (8 * s'.count) s'.W s'.H ↔ capOK (8 * s.count) s.W s.H := by rw [h.count rfl, h.W, h.H]
  by_cases hcap : capOK (8 * s.count) s.W s.H
  · have hN : s.N ≤ s.params.gridWords := Nat.le_of_not_lt (not_or.1 hbig).1
    have hok' := exec_embedA_ok hbig' (hcap_iff.2 hcap)
    rw [h.count rfl] at hok'
    exact ⟨_, _, exec_embedA_ok hbig hcap, hok', rfl, rfl, rfl, fun p hp => h.embedATraverse hN hcap hp,
      fun j hj => absurd hj (Nat.not_lt_zero j)⟩
  · exact h.raises_agree (exec_embedA_capacity hbig hcap) (exec_embedA_capacity hbig' (mt hcap_iff.1 hcap))

theorem SameOperands.extractA_agree {s s' : State} (h : SameOperands .extractA s s') (hL : s.params.Legal) :
    RunsAgree .extractA s s' := by
  by_cases hbig : s.gridTooBig
  · exact h.raises_agree (exec_extractA_config hbig) (exec_extractA_config (h.gridTooBig_iff.2 hbig))
  have hbig' : ¬ s'.gridTooBig := mt h.gridTooBig_iff.1 hbig
  have htrunc_iff : s'.W < 6 ∨ s'.H < 1 ↔ s.W < 6 ∨ s.H < 1 := by rw [h.W, h.H]
  by_cases htrunc : s.W < 6 ∨ s.H < 1
  · exact h.raises_agree (exec_extractA_truncated hbig htrunc) (exec_extractA_truncated hbig' (htrunc_iff.2 htrunc))
  have htrunc' := mt htrunc_iff.1 htrunc
  have hW : 6 ≤ s.W := by omega
  have hH : 1 ≤ s.H := by omega
  have hhead := h.readHeader hW hH
  have hinv_iff : (s'.N : Int) - 6 < pixelsForBits (headerDecode s'.readHeader) ↔
      (s.N : Int) - 6 < pixelsForBits (headerDecode s.readHeader) := by rw [h.N, hhead]
  by_cases hinv : (s.N : Int) - 6 < pixelsForBits (headerDecode s.readHeader)
  · have hex' := exec_extractA_invalid hbig' htrunc' (hinv_iff.2 hinv)
    rw [hhead] at hex'
    exact ⟨_, _, exec_extractA_invalid hbig htrunc hinv, hex', rfl, rfl, rfl, h.grid,
      fun j hj => absurd hj (Nat.not_lt_zero j)⟩
  · obtain ⟨t, ht, hdone, hgrid, hpbuf⟩ := exec_extractA_result hL hbig htrunc hinv
    obtain ⟨t', ht', hdone', hgrid', hpbuf'⟩ :=
      exec_extractA_result (h.params ▸ hL) hbig' htrunc' (mt hinv_iff.1 hinv)
    have hbytes := h.outputBytes hW hH (by have := State.six_le_N hW hH; omega)
    rw [hhead] at hdone' hpbuf'
    refine ⟨t, t', ht, ht', hdone.sameOutputs hdone' (fun p hp => ?_) fun j hj => ?_⟩
    · rw [hgrid' p, hgrid p, h.grid p hp]
    · rw [hpbuf' j, hpbuf j, if_pos hj, if_pos hj, hbytes]

theorem SameOperands.embedB_agree {s s' : State} (h : SameOperands .embedB s s') : RunsAgree .embedB s s' := by
  by_cases hbig : s.embedTooBig
  · exact h.raises_agree (exec_embedB_config hbig) (exec_embedB_config ((h.embedTooBig_iff rfl).2 hbig))
  obtain ⟨t, ht, hdone, -, hgrid⟩ := exec_embedB_result hbig
  obtain ⟨t', ht', hdone', -, hgrid'⟩ := exec_embedB_result (mt (h.embedTooBig_iff rfl).1 hbig)
  rw [h.count rfl, h.N] at hdone'
  refine ⟨t, t', ht, ht', hdone.sameOutputs hdone' (fun p hp => ?_) fun j hj => absurd hj (Nat.not_lt_zero j)⟩
  rw [hgrid' p, hgrid p, h.count rfl, h.N, h.textPixel rfl hp, h.grid p hp]

theorem SameOperands.extractB_agree {s s' : State} (h : SameOperands .extractB s s') (hL : s.params.Legal) :
    RunsAgree .extractB s s' := by
  by_cases hbig : s.gridTooBig
  · exact h.raises_agree (exec_extractB_config hbig) (exec_extractB_config (h.gridTooBig_iff.2 hbig))
  obtain ⟨t, ht, hdone, hgrid, -, hpbuf⟩ := exec_extractB_result hL hbig
  obtain ⟨t', ht', hdone', hgrid', -, hpbuf'⟩ :=
    exec_extractB_result (h.params ▸ hL) (mt h.gridTooBig_iff.1 hbig)
  rw [h.characters, h.text] at hdone'
  rw [h.text] at hpbuf'
  refine ⟨t, t', ht, ht', hdone.sameOutputs hdone' (fun p hp => ?_) fun j hj => ?_⟩
  · rw [hgrid' p, hgrid p, h.grid p hp]
  · rw [hpbuf' j, hpbuf j, if_pos hj, if_pos hj]

/-- Settles O51: command by command, each check and each result is a function of the operands. -/
theorem commandsReadOnlyTheirOperands : Obligations.CommandsReadOnlyTheirOperands := by
  intro i s s' hL hparams hwidth hheight hgrid hembed
  have h : SameOperands i s s' :=
    ⟨hparams, congrArg BitVec.toNat hwidth, congrArg BitVec.toNat hheight, hgrid,
      fun he => congrArg BitVec.toNat (hembed he).1, fun he => (hembed he).2⟩
  obtain ⟨t, t', ht, ht', hstatus, houtLen, hhdr, hpixels, hbytes⟩ : RunsAgree i s s' := by
    cases i with
    | embedA => exact h.embedA_agree
    | extractA => exact h.extractA_agree hL
    | embedB => exact h.embedB_agree
    | extractB => exact h.extractB_agree hL
    | illegal op => exact h.raises_agree rfl rfl
  exact ⟨t, t', ht, ht', hstatus, houtLen, hhdr, hpixels, hbytes⟩

end Sys2Proof.Machine
end

section
/-! PROOFS. Where the units of memory lie: the byte addresses of the three ports (20_memory.md R67, 10_state.md R22) and
the channels of a pixel word (R52). -/

namespace Sys2Proof.Machine

/-! ### The unit at each unit's address (R67) -/

theorem PortBases.unitAt_addressOf_reg (b : PortBases) (p : Params) (i : BitVec 3) :
    b.unitAt p (b.addressOf (.reg i)) = some (.reg i) := by
  have hi : i.toNat < 8 := i.isLt
  have hindex : (b.regBase + 4 * i.toNat - b.regBase) / 4 = i.toNat := by omega
  rw [addressOf, unitAt, if_pos (by omega), hindex, BitVec.ofNat_toNat, BitVec.setWidth_eq]

theorem PortBases.unitAt_addressOf_grid {b : PortBases} {p : Params} {i : Nat} (hi : i < p.gridWords)
    (hreg : apart b.regBase 32 b.gridBase (4 * p.gridWords)) :
    b.unitAt p (b.addressOf (.grid i)) = some (.grid i) := by
  have hnotReg : b.gridBase + 4 * i < b.regBase ∨ b.regBase + 32 ≤ b.gridBase + 4 * i := by omega
  have hindex : (b.gridBase + 4 * i - b.gridBase) / 4 = i := by omega
  rw [addressOf, unitAt, if_neg (by omega), if_pos (by omega), hindex]

theorem PortBases.unitAt_addressOf_pbuf {b : PortBases} {p : Params} {i : Nat} (hi : i < p.pbufBytes)
    (hreg : apart b.regBase 32 b.pbufBase p.pbufBytes)
    (hgrid : apart b.gridBase (4 * p.gridWords) b.pbufBase p.pbufBytes) :
    b.unitAt p (b.addressOf (.pbuf i)) = some (.pbuf i) := by
  have hnotReg : b.pbufBase + i < b.regBase ∨ b.regBase + 32 ≤ b.pbufBase + i := by omega
  have hnotGrid : b.pbufBase + i < b.gridBase ∨ b.gridBase + 4 * p.gridWords ≤ b.pbufBase + i := by omega
  rw [addressOf, unitAt, if_neg (by omega), if_neg (by omega), if_pos (by omega), Nat.add_sub_cancel_left]

/-- Settles O19: port by port, the ranges of the ports asked before it end before or begin after the address. -/
theorem addressMapIsUnambiguous : Obligations.AddressMapIsUnambiguous := by
  intro b p u ⟨hregGrid, hregPbuf, hgridPbuf⟩ hu
  cases u with
  | reg i => exact b.unitAt_addressOf_reg p i
  | grid i => exact PortBases.unitAt_addressOf_grid (of_decide_eq_true hu) hregGrid
  | pbuf i => exact PortBases.unitAt_addressOf_pbuf (of_decide_eq_true hu) hregPbuf hgridPbuf

/-! ### The channels of a pixel word (R52) -/

theorem append_toNat {m n : Nat} (x : BitVec m) (y : BitVec n) : (x ++ y).toNat = x.toNat * 2 ^ n + y.toNat := by
  rw [BitVec.toNat_append, ← Nat.shiftLeft_add_eq_or_of_lt y.isLt, Nat.shiftLeft_eq]

theorem pix_toNat (a r g b : Byte) :
    (pix a r g b).toNat = 16777216 * a.toNat + 65536 * r.toNat + 256 * g.toNat + b.toNat := by
  simp only [pix, append_toNat]
  omega

theorem chan_withChan (P : Word) (c d : Channel) (v : Byte) :
    chan (withChan P c v) d = if d = c then v else chan P d := by
  cases c <;> cases d <;> simp [withChan]

/-- Settles O20: a pixel word is put together from its channels, and so is the word with one of them replaced. -/
theorem channelsOfAPixelWord : Obligations.ChannelsOfAPixelWord := by
  refine fun P v => ⟨?_, fun c d => chan_withChan P c d v⟩
  calc P.toNat = (pix (chan P .A) (chan P .R) (chan P .G) (chan P .B)).toNat := by rw [pix_chan]
    _ = _ := pix_toNat ..

end Sys2Proof.Machine
end

section
/-! PROOFS. The encoding of the commands: the decoders and the encoder are inverse to each other on the well-formed
commands (30_encoding.md section 1, R70 to R72, R79, R103). -/

namespace Sys2Proof

/-- A command's word, reserved bits at any value, denotes the command (R70, R71, R72). -/
theorem decodeWord_append_encodeOp (reserved : BitVec 28) {i : Instr} (h : i.wellFormed = true) :
    decodeWord (reserved ++ encodeOp i) = i := by
  rw [decodeWord, opField_append, decodeOp_encodeOp i h]

/-- What word each command is written as, one lemma per command (R70 to R72). -/
theorem encodeWord_statement (i : Instr) : Laws.EncodeWord.Statement i := by
  cases i with
  | embedA => exact Laws.EncodeWord.embedA
  | extractA => exact Laws.EncodeWord.extractA
  | embedB => exact Laws.EncodeWord.embedB
  | extractB => exact Laws.EncodeWord.extractB
  | illegal op => exact Laws.EncodeWord.illegal op

theorem decodeWord_encode {i : Instr} (h : i.wellFormed = true) : decodeWord (encode i) = i := by
  obtain ⟨-, hop⟩ := encodeWord_statement i
  rw [decodeWord, hop, decodeOp_encodeOp i h]

/-- Every word is a 32-bit number, so the table decoder reads it as the word decoder does (R79). -/
theorem decodeTableWord_toNat (w : Word) : decodeTableWord 32 w.toNat = some (decodeWord w) := by
  have hfits : ¬ 2 ^ 32 ≤ w.toNat := Nat.not_le_of_lt w.isLt
  have hbits : decodeBits 32 w.toNat = .ok (decodeWord w) := by
    rw [decodeBits, if_neg (Nat.lt_irrefl 32), if_neg hfits, BitVec.ofNat_toNat, BitVec.setWidth_eq]
  rw [decodeTableWord, hbits]

/-- The encoder writes a number below 16, so nothing stands in bits [31:4] (R70). -/
theorem encode_reserved (i : Instr) : (encode i).extractLsb' 4 28 = 0 := by
  obtain ⟨hsmall, -⟩ := encodeWord_statement i
  refine BitVec.eq_of_toNat_eq ?_
  rw [BitVec.extractLsb'_toNat, Nat.shiftRight_eq_div_pow, Nat.div_eq_of_lt hsmall]
  rfl

/-- The OP field of a word is the code of the command it denotes (R70, R103). -/
theorem encodeOp_decodeWord (w : Word) : encodeOp (decodeWord w) = opField w := (decodeOp_spec (opField w)).2

/-- A word denotes the well-formed command whose code is its OP field, and no other (R70, R103). -/
theorem decodeWord_eq_iff (w : Word) {i : Instr} (h : i.wellFormed = true) :
    decodeWord w = i ↔ encodeOp i = opField w := by
  constructor
  · rintro rfl
    exact encodeOp_decodeWord w
  · intro hop
    rw [decodeWord, ← hop, decodeOp_encodeOp i h]

/-- Settles O1: the word decoder sees the OP field alone, and the table decoder is the word decoder on every word. -/
theorem decodingAnEncodedCommandGivesItBack : Obligations.DecodingAnEncodedCommandGivesItBack := by
  intro i reserved h
  have hword := decodeWord_append_encodeOp reserved h
  exact ⟨hword, by rw [decodeTableWord_toNat, hword], decodeWord_encode h, encode_reserved i⟩

/-- Settles O2: the opcode map gives a well-formed command, and the code tells well-formed commands apart. -/
theorem everyWordDenotesOneCommand : Obligations.EveryWordDenotesOneCommand :=
  fun w => ⟨(decodeOp_spec (opField w)).1, fun _ => decodeWord_eq_iff w⟩

/-- Settles O3: the seventeen words of the statement, each evaluated. -/
theorem opcodeTableWordsDecode : Obligations.OpcodeTableWordsDecode := by
  unfold Obligations.OpcodeTableWordsDecode
  decide

end Sys2Proof
end

section
/-! PROOFS. Host programs (30_encoding.md section 6): every `poll` ends (R81, R107, R260), and a program that starts
commands by pseudo-instructions alone never faults (R80, R81, R255). -/

namespace Sys2Proof.Machine

/-! ### How a `poll` ends (R81) -/

/-- In `t` the `poll` that stood first in the inputs of `s` is over, `is` the inputs after it: the last STATUS read found
the block idle, and the `m` reads before it found the command of `s` running. -/
structure PollOver (s : State) (is : List Input) (m : Nat) (t : State) : Prop where
  inputs : t.inputs = is
  idle : t.status.busy = false
  replies : t.replies = .word (t.regRead 1) :: (List.replicate m (.word (s.regRead 1)) ++ s.replies)
  running : m ≠ 0 → s.status.busy = true

/-- While no command runs, one STATUS read ends the `poll`. -/
theorem step_pollOver {s : State} {is : List Input} (hb : s.status.busy = false) (hi : s.inputs = .poll :: is) :
    ∃ t, step s = .next t ∧ PollOver s is 0 t :=
  ⟨_, step_poll_idle hb hi, rfl, hb, rfl, fun h => absurd rfl h⟩

/-- On the engine's turn the running command completes (R105, R107), and the read after it ends the `poll`. -/
theorem run_two_pollOver {s : State} {is : List Input} (hb : s.status.busy = true) (hturn : ¬ hostTurn s)
    (hi : s.inputs = .poll :: is) : ∃ t, core.run 2 s = .next t ∧ PollOver s is 0 t := by
  obtain ⟨u, hexec, st, ol, hd, g, p, e, rfl, hidle, -⟩ :=
    exec_form s.heldCommand { s with schedule := s.schedule.tail }
  obtain ⟨t, hstep, hinputs, hbusy, hreplies, -⟩ := step_pollOver (s := { s with
    status := st, outLen := ol, hdr := hd, grid := g, pbuf := p, engine := e, schedule := s.schedule.tail }) hidle hi
  refine ⟨t, ?_, hinputs, hbusy, hreplies, fun h => absurd rfl h⟩
  rw [run_next ((step_engine hb hturn).trans hexec), run_next hstep, run_zero]

/-- A host turn while a command runs: the `poll` reads STATUS and goes on. -/
theorem step_poll_hostTurn {s : State} {turns : List Agent} {is : List Input} (hb : s.status.busy = true)
    (hs : s.schedule = .host :: turns) (hi : s.inputs = .poll :: is) :
    step s = .next { s with
      schedule := turns, inputs := .poll :: is, replies := .word (s.regRead 1) :: s.replies } := by
  rw [step_host hb hs hi]
  exact congrArg Host.Outcome.next (State.pollOnce_busy (s := { s with schedule := turns, inputs := is }) hb)

/-- A `poll` that reads STATUS once while the command of `s` runs, and is over `m` such reads later, has read it
`m + 1` times. -/
theorem PollOver.afterRead {s : State} {turns : List Agent} {is js : List Input} {m : Nat} {t : State}
    (hb : s.status.busy = true)
    (h : PollOver { s with schedule := turns, inputs := js, replies := .word (s.regRead 1) :: s.replies } is m t) :
    PollOver s is (m + 1) t where
  inputs := h.inputs
  idle := h.idle
  replies := by
    rw [List.replicate_succ', List.append_assoc]
    exact h.replies
  running _ := hb

/-- A `poll` ends within two steps more than the schedule has turns: each turn of the host is one more STATUS read, and
the first turn that is not the host's completes the command. -/
theorem run_pollOver_busy (turns : List Agent) : ∀ (s : State) (is : List Input), s.schedule = turns →
    s.status.busy = true → s.inputs = .poll :: is →
    ∃ k m t, k ≤ turns.length + 2 ∧ core.run k s = .next t ∧ PollOver s is m t := by
  induction turns with
  | nil =>
    intro s is hs hb hi
    obtain ⟨t, hrun, hover⟩ := run_two_pollOver hb (by simp [hostTurn, hs]) hi
    exact ⟨2, 0, t, Nat.le_add_left _ _, hrun, hover⟩
  | cons turn turns ih =>
    intro s is hs hb hi
    cases turn with
    | engine =>
      obtain ⟨t, hrun, hover⟩ := run_two_pollOver hb (by simp [hostTurn, hs]) hi
      exact ⟨2, 0, t, Nat.le_add_left _ _, hrun, hover⟩
    | host =>
      obtain ⟨k, m, t, hk, hrun, hover⟩ := ih
        { s with schedule := turns, inputs := .poll :: is, replies := .word (s.regRead 1) :: s.replies } is rfl hb rfl
      exact ⟨k + 1, m + 1, t, Nat.succ_le_succ hk, (run_next (step_poll_hostTurn hb hs hi) k).trans hrun,
        hover.afterRead hb⟩

theorem run_pollOver {s : State} {is : List Input} (hi : s.inputs = .poll :: is) :
    ∃ k m t, k ≤ s.schedule.length + 2 ∧ core.run k s = .next t ∧ PollOver s is m t := by
  cases hb : s.status.busy with
  | true => exact run_pollOver_busy s.schedule s is rfl hb hi
  | false =>
    obtain ⟨t, hstep, hover⟩ := step_pollOver hb hi
    exact ⟨1, 0, t, by omega, run_next hstep 0, hover⟩

/-- Settles O55: by induction on the schedule, and bit 0 of every STATUS word read is BUSY. -/
theorem everyPollEnds : Obligations.EveryPollEnds := by
  intro s is hi
  obtain ⟨k, m, t, hk, hrun, hinputs, hidle, hreplies, hrunning⟩ := run_pollOver hi
  exact ⟨k, m, t, hk, hrun, hinputs, hidle, hreplies, t.regRead_status_busy.trans hidle,
    fun hm => s.regRead_status_busy.trans (hrunning hm)⟩

/-! ### The discipline of R255 to R257, step by step -/

/-- Inputs that are disciplined while a command may run are so when none runs. -/
theorem disciplined_of_pending {is : List Input} (h : disciplined true is = true) : disciplined false is = true := by
  induction is with
  | nil => rfl
  | cons i is ih =>
    cases i with
    | poll => exact h
    | reset => exact h
    | issue x =>
      cases hx : x.touchesMemory with
      | true => simp [disciplined, hx] at h
      | false =>
        simp only [disciplined, hx, Bool.false_eq_true, if_false, Bool.true_or, Bool.false_or] at h ⊢
        cases x.mayStart with
        | true => exact h
        | false => exact ih h

/-- After a register write a command runs if one ran before or the write is to CTRL (R100 to R102). -/
theorem State.regWrite_busyAfter (s : State) (i : BitVec 3) (v : Word) :
    (s.regWrite i v).status.busy = (s.status.busy || Transaction.mayStart (.regWrite i v)) ∧
      (s.regWrite i v).inputs = s.inputs := by
  cases hb : s.status.busy with
  | true => rw [State.regWrite_busy hb]; exact ⟨hb, rfl⟩
  | false =>
    rcases regIndex_writable_or_readOnly i with rfl | rfl | rfl | rfl | hi
    · rw [State.regWrite_ctrl, hb]; exact ⟨rfl, rfl⟩
    · rw [State.regWrite_width, hb]; exact ⟨hb, rfl⟩
    · rw [State.regWrite_height, hb]; exact ⟨hb, rfl⟩
    · rw [State.regWrite_inLen, hb]; exact ⟨hb, rfl⟩
    · rw [s.regWrite_readOnly hi]
      exact ⟨by rcases hi with rfl | rfl | rfl | rfl <;> exact hb, rfl⟩

/-- A transaction that is no memory access while a command runs is answered; it takes no input, and a command runs after
it if one ran before or it may start one (R50, R62, R100 to R102). -/
theorem transact_next {t : Transaction} {s : State} (h : t.touchesMemory = true → s.status.busy = false) :
    ∃ u, transact t s = .next u ∧ u.status.busy = (s.status.busy || t.mayStart) ∧ u.inputs = s.inputs := by
  cases t with
  | regRead i => exact ⟨_, rfl, (Bool.or_false _).symm, rfl⟩
  | regWrite i v => exact ⟨_, rfl, s.regWrite_busyAfter i v⟩
  | gridRead i => exact ⟨_, if_neg (by simp [h rfl]), (Bool.or_false _).symm, rfl⟩
  | gridWrite i v =>
    exact ⟨_, if_neg (by simp [h rfl]), by simp [Transaction.mayStart], s.gridWrite_inputs i v⟩
  | pbufRead i => exact ⟨_, if_neg (by simp [h rfl]), (Bool.or_false _).symm, rfl⟩
  | pbufWrite i v =>
    exact ⟨_, if_neg (by simp [h rfl]), by simp [Transaction.mayStart], s.pbufWrite_inputs i v⟩

theorem Transaction.mayStart_of_touchesMemory {t : Transaction} (h : t.touchesMemory = true) : t.mayStart = false := by
  cases t with
  | regRead i => cases h
  | regWrite i v => cases h
  | _ => rfl

/-- A disciplined move of the outside world is answered, and leaves disciplined inputs. -/
theorem inputMove_disciplined {i : Input} {s : State} (h : disciplined s.status.busy (i :: s.inputs) = true) :
    ∃ t, inputMove i s = .next t ∧ disciplined t.status.busy t.inputs = true := by
  cases i with
  | reset => exact ⟨_, rfl, h⟩
  | poll =>
    refine ⟨s.pollOnce, rfl, ?_⟩
    cases hb : s.status.busy with
    | true => rw [State.pollOnce_busy hb]; exact h
    | false =>
      rw [State.pollOnce_idle hb]
      show disciplined s.status.busy s.inputs = true
      rw [hb]
      exact h
  | issue x =>
    cases hx : x.touchesMemory with
    | true =>
      simp only [disciplined, hx, if_true, Bool.and_eq_true, Bool.not_eq_true'] at h
      obtain ⟨hb, his⟩ := h
      obtain ⟨u, hu, hbusy, hinputs⟩ := transact_next (t := x) fun _ => hb
      exact ⟨u, hu, by rw [hbusy, hinputs, x.mayStart_of_touchesMemory hx, Bool.or_false]; exact his⟩
    | false =>
      simp only [disciplined, hx, Bool.false_eq_true, if_false] at h
      obtain ⟨u, hu, hbusy, hinputs⟩ := transact_next (t := x) (s := s) fun hm => absurd (hx.symm.trans hm) (by decide)
      exact ⟨u, hu, by rw [hbusy, hinputs]; exact h⟩

/-- The discipline is an invariant: a step from disciplined inputs is answered, and leaves disciplined inputs. -/
theorem step_disciplined {s : State} (h : disciplined s.status.busy s.inputs = true) :
    ∃ t, step s = .next t ∧ disciplined t.status.busy t.inputs = true := by
  cases hb : s.status.busy with
  | true =>
    by_cases hturn : hostTurn s
    · obtain ⟨turns, i, is, hs, hi⟩ := hturn
      rw [step_host hb hs hi]
      exact inputMove_disciplined (s := { s with schedule := turns, inputs := is }) (hi ▸ h)
    · rw [step_engine hb hturn]
      obtain ⟨t, hexec, st, ol, hd, g, p, e, rfl, hidle, -⟩ :=
        exec_form s.heldCommand { s with schedule := s.schedule.tail }
      exact ⟨_, hexec, hidle ▸ disciplined_of_pending (hb ▸ h)⟩
  | false =>
    cases hi : s.inputs with
    | nil => exact ⟨s, step_idle hb hi, h⟩
    | cons i is =>
      rw [step_input hb hi]
      exact inputMove_disciplined (s := { s with inputs := is }) (hi ▸ h)

/-- From disciplined inputs no number of steps meets a fault or a refusal. -/
theorem safeFor_of_disciplined (k : Nat) : ∀ {s : State}, disciplined s.status.busy s.inputs = true → SafeFor k s := by
  induction k with
  | zero => exact fun {s} _ => ⟨s, run_zero s⟩
  | succ k ih =>
    intro s h
    obtain ⟨t, hstep, ht⟩ := step_disciplined h
    obtain ⟨u, hrun⟩ := ih ht
    exact ⟨u, (run_next hstep k).trans hrun⟩

/-! ### The inputs of a host program (R80, R81) -/

/-- The input starts no command. -/
def startsNothing : Input → Bool
  | .issue t => !t.mayStart
  | .poll => true
  | .reset => true

/-- Inputs that start no command may stand before disciplined ones while none runs. -/
theorem disciplined_append_of_startsNothing {js : List Input} (h : ∀ i ∈ js, startsNothing i = true) (is : List Input) :
    disciplined false (js ++ is) = disciplined false is := by
  induction js with
  | nil => rfl
  | cons i js ih =>
    obtain ⟨hi, hjs⟩ := List.forall_mem_cons.1 h
    refine Eq.trans ?_ (ih hjs)
    cases i with
    | poll => rfl
    | reset => rfl
    | issue t =>
      have hstart : t.mayStart = false := by simpa [startsNothing] using hi
      simp [disciplined, hstart]

theorem loadpInputs_startsNothing (vs : List Byte) : ∀ j, ∀ i ∈ loadpInputs j vs, startsNothing i = true := by
  induction vs with
  | nil => exact fun _ => List.forall_mem_nil _
  | cons v vs ih => exact fun j => List.forall_mem_cons.2 ⟨rfl, ih (j + 1)⟩

theorem regWrite_startsNothing {r : RegName} (hr : r ≠ .ctrl) (v : Word) :
    startsNothing (.issue (.regWrite (regIndex r) v)) = true := by
  cases r with
  | ctrl => exact absurd rfl hr
  | _ => rfl

/-- A line that is no raw write of CTRL keeps the discipline: a command's pseudo-instruction ends with the `poll` that
waits for the command, and every other line starts none. -/
theorem disciplined_expandLine {l : Line} (hl : ∀ v, Line.wr .ctrl v ≠ l) (w h : Nat) (is : List Input) :
    disciplined false (expandLine w h l ++ is) = disciplined false is := by
  cases l with
  | embedA => rfl
  | extractA => rfl
  | embedB => rfl
  | extractB => rfl
  | wr r v =>
    have hr : r ≠ .ctrl := fun hr => hl v (by rw [hr])
    exact disciplined_append_of_startsNothing (List.forall_mem_singleton.2 (regWrite_startsNothing hr v)) is
  | fillg v =>
    exact disciplined_append_of_startsNothing (List.forall_mem_map.2 fun _ _ => rfl) is
  | loadp j vs => exact disciplined_append_of_startsNothing (loadpInputs_startsNothing vs j) is
  | _ => exact disciplined_append_of_startsNothing (List.forall_mem_singleton.2 rfl) is

theorem disciplined_expandProgram {p : List Line} (hp : ∀ v, Line.wr .ctrl v ∉ p) :
    ∀ w h, disciplined false (expandProgram w h p) = true := by
  induction p with
  | nil => exact fun _ _ => rfl
  | cons l ls ih =>
    intro w h
    rw [expandProgram, disciplined_expandLine fun v hv => hp v (hv ▸ List.mem_cons_self)]
    exact ih (fun v hv => hp v (List.mem_cons_of_mem l hv)) _ _

/-- Settles O58: the program's inputs are disciplined, and a disciplined host never meets a fault. -/
theorem pseudoCommandProgramsNeverFault : Obligations.PseudoCommandProgramsNeverFault := by
  intro s p hb hp k
  refine safeFor_of_disciplined k ?_
  show disciplined s.status.busy (expandProgram s.W s.H p) = true
  rw [hb]
  exact disciplined_expandProgram hp _ _

end Sys2Proof.Machine
end

section
/-! PROOFS. The life of a command (40_command.md): its acceptance (R100 to R103), the operands while it runs (R102), its
configuration check (R106), its completion (R104, R107, R260), and that its result is a function of its inputs (R108). -/

namespace Sys2Proof.Machine

/-! ### Acceptance (R100 to R103) -/

theorem transact_regWrite_busy {s : State} (hb : s.status.busy = true) (i : BitVec 3) (v : Word) :
    transact (.regWrite i v) s = .next s :=
  congrArg Host.Outcome.next (State.regWrite_busy hb i v)

theorem transact_ctrlWrite_idle {s : State} (hb : s.status.busy = false) (v : Word) :
    transact (.regWrite 0 v) s = .next (s.accept v) :=
  congrArg Host.Outcome.next ((s.regWrite_ctrl v).trans (if_neg (by simp [hb])))

/-- CTRL reads back the OP field of the word accepted, reserved bits 0 (R23, R100). -/
theorem State.regRead_ctrl_accept (s : State) (v : Word) : (s.accept v).regRead 0 = v &&& 0x0000000F := by
  show (opField v).setWidth 32 = _
  rw [opField_eq_setWidth]
  exact setWidth_setWidth_eq_and v 0x0000000F (n := 4) (by decide)

/-- STATUS reads exactly BUSY right after acceptance (R24, R100). -/
theorem statusWord_acceptedStatus : statusWord acceptedStatus = 0x00000001 := by decide

/-- When the schedule leaves the turn to the engine, it runs the command just accepted (R103). -/
theorem step_accept {s : State} (hs : s.schedule = []) (v : Word) :
    step (s.accept v) = exec (decodeWord v) (s.accept v) := by
  obtain ⟨hengine, -⟩ := stepIsOneMove (s.accept v)
  rw [hengine rfl hs]
  exact congrArg (exec · (s.accept v)) (s.heldCommand_accept v)

/-- Settles O7: no register write changes a busy block. -/
theorem ctrlWriteWhileBusyIsIgnored : Obligations.CtrlWriteWhileBusyIsIgnored :=
  fun _ v hb => transact_regWrite_busy hb 0 v

/-- Settles O6: while idle the write is `State.accept`, field by field; while busy it is ignored. -/
theorem ctrlWriteIsAccepted : Obligations.CtrlWriteIsAccepted := by
  refine fun s v => ⟨fun hb => ?_, fun hb => transact_regWrite_busy hb 0 v⟩
  exact ⟨s.accept v, transact_ctrlWrite_idle hb v, s.regRead_ctrl_accept v, statusWord_acceptedStatus,
    rfl, rfl, rfl, rfl, rfl, rfl, s.heldCommand_accept v, fun _ => rfl, fun _ => rfl, rfl, rfl, rfl, rfl, rfl⟩

/-- Settles O5: the step of the write is acceptance, and `step_accept` is the step after it. -/
theorem acceptedCommandRunsNext : Obligations.AcceptedCommandRunsNext := by
  refine ⟨fun s v is hb hi => ?_, fun s nbits w => step_accept (s := { s with schedule := [] }) rfl _⟩
  refine ⟨State.accept { s with inputs := is } v, ?_, rfl, rfl, rfl, ?_⟩
  · rw [step_input hb hi]
    exact transact_ctrlWrite_idle (s := { s with inputs := is }) hb v
  · exact step_accept (s := { s with inputs := is, schedule := [] }) rfl v

/-! ### The operands of a running command (R102) -/

/-- Settles O8: of the moves of a busy block the engine's keeps what `CommandForm` says, and the outside world's, but for
a reset, all of the block. -/
theorem operandsAreConstantWhileBusy : Obligations.OperandsAreConstantWhileBusy := by
  refine ⟨fun s i v hb _ => transact_regWrite_busy hb i v, fun s t hb hstep => ?_, fun s i v hi => ?_⟩
  · obtain ⟨-, -, hexec⟩ | ⟨turns, i, is, -, hs, hin, hmove⟩ | ⟨_, _, hidle, -⟩ | ⟨hidle, -⟩ := step_cases hstep
    · obtain ⟨t', ht', hform⟩ := exec_form s.heldCommand { s with schedule := s.schedule.tail }
      rw [hexec] at ht'; cases ht'
      exact .inl ⟨hform.same.width, hform.same.height, hform.same.inLen⟩
    · obtain ⟨rfl, -⟩ | ⟨r, is', rfl⟩ := inputMove_busy (s := { s with schedule := turns, inputs := is }) hb hmove
      · exact .inr ⟨turns, is, hs, hin⟩
      · exact .inl ⟨rfl, rfl, rfl⟩
    · rw [hb] at hidle; cases hidle
    · rw [hb] at hidle; cases hidle
  · have hro : i = 1 ∨ i = 5 ∨ i = 6 ∨ i = 7 := hi.imp_right (Or.imp_right .inl)
    exact congrArg Host.Outcome.next (s.regWrite_readOnly hro v)

/-! ### The configuration check (R104, R106) -/

/-- Command `i` fails R106's check in `s`: W*H is above GRID_WORDS or, in an embed, IN_LEN above PBUF_BYTES. -/
def ConfigFails (i : Instr) (s : State) : Prop :=
  s.gridTooBig ∨ (i = .embedA ∨ i = .embedB) ∧ s.params.pbufBytes < s.count

theorem exec_configFails {i : Instr} {s : State} (hi : i = .embedA ∨ i = .extractA ∨ i = .embedB ∨ i = .extractB)
    (h : ConfigFails i s) : exec i s = .next (s.raise .configError) := by
  have hembed : s.embedTooBig := h.imp_right And.right
  have hextract (hA : i ≠ .embedA) (hB : i ≠ .embedB) : s.gridTooBig :=
    h.resolve_right fun ⟨he, _⟩ => he.elim hA hB
  rcases hi with rfl | rfl | rfl | rfl
  · exact exec_embedA_config hembed
  · exact exec_extractA_config (hextract nofun nofun)
  · exact exec_embedB_config hembed
  · exact exec_extractB_config (hextract nofun nofun)

theorem not_embedTooBig {i : Instr} {s : State} (h : ¬ ConfigFails i s) (hi : i = .embedA ∨ i = .embedB) :
    ¬ s.embedTooBig :=
  fun hbig => h (hbig.imp_right fun hcount => ⟨hi, hcount⟩)

/-- A command whose configuration check passes, or that has none, completes with another code than CONFIG_ERROR. -/
theorem exec_code_of_not_configFails {i : Instr} {s t : State} (h : ¬ ConfigFails i s) (he : exec i s = .next t) :
    ∃ c, c ≠ .configError ∧ t.status.code = codeValue c := by
  have hgrid : ¬ s.gridTooBig := fun hbig => h (.inl hbig)
  cases i with
  | embedA =>
    have hbig := not_embedTooBig h (.inl rfl)
    by_cases hcap : capOK (8 * s.count) s.W s.H
    · rw [exec_embedA_ok hbig hcap] at he; cases he
      exact ⟨.ok, nofun, rfl⟩
    · rw [exec_embedA_capacity hbig hcap] at he; cases he
      exact ⟨.capacityExceeded, nofun, rfl⟩
  | extractA =>
    by_cases htrunc : s.W < 6 ∨ s.H < 1
    · rw [exec_extractA_truncated hgrid htrunc] at he; cases he
      exact ⟨.truncatedStream, nofun, rfl⟩
    by_cases hinv : (s.N : Int) - 6 < pixelsForBits (headerDecode s.readHeader)
    · rw [exec_extractA_invalid hgrid htrunc hinv] at he; cases he
      exact ⟨.invalidLength, nofun, rfl⟩
    · obtain ⟨x, y, -, -, hok⟩ := exec_extractA_ok hgrid htrunc hinv
      rw [hok] at he; cases he
      exact ⟨.ok, nofun, rfl⟩
  | embedB =>
    obtain ⟨u, hu, -⟩ := exec_embedB_ok (not_embedTooBig h (.inr rfl))
    rw [hu] at he; cases he
    exact ⟨.ok, nofun, rfl⟩
  | extractB =>
    have hfin : exec .extractB s = .next (finishExtractB s.extractBTraverse) := if_neg hgrid
    rw [hfin] at he; cases he
    cases s.extractBTraverse with
    | stop u => exact ⟨.ok, nofun, rfl⟩
    | go u => exact ⟨.missingTerminator, nofun, rfl⟩
  | illegal op =>
    cases he
    exact ⟨.illegalCommand, nofun, rfl⟩

theorem codeValue_eq_configError {c : Code} (h : codeValue c = codeValue .configError) : c = .configError := by
  revert h
  cases c <;> decide

/-- Settles O31: a failed check is an error completion, and no other completion has its code. -/
theorem configurationCheck : Obligations.ConfigurationCheck := by
  intro i s hi
  obtain ⟨t, ht, -⟩ := exec_form i s
  refine ⟨t, ht, fun hfails => ?_, fun hcode => ?_⟩
  · rw [exec_configFails hi hfails] at ht; cases ht
    exact ⟨s.raise_completedWith _, (s.raise_form _).same, fun _ => rfl, fun _ => rfl⟩
  · show ConfigFails i s
    by_contra hpasses
    obtain ⟨c, hc, hcode'⟩ := exec_code_of_not_configFails hpasses ht
    exact hc (codeValue_eq_configError (hcode'.symm.trans hcode))

/-- STATUS reads DONE and the code alone after ILLEGAL (R24, R73, R104). -/
theorem statusWord_illegalCommand : statusWord (completedStatus .illegalCommand false) = 0x00000052 := by decide

/-- Settles O30: ILLEGAL is an error completion and nothing else. -/
theorem illegalCommandCompletes : Obligations.IllegalCommandCompletes :=
  fun _ s _ => ⟨s.raise .illegalCommand, rfl, s.raise_completedWith _, statusWord_illegalCommand, rfl,
    (s.raise_form _).same, fun _ => rfl, fun _ => rfl⟩

/-! ### The result of a command (R108) -/

/-- Settles O50: below W*H and OUT_LEN the results agree because the operands do, and above them they are the contents at
acceptance. -/
theorem resultIsAFunctionOfTheInputs : Obligations.ResultIsAFunctionOfTheInputs := by
  intro i s s' hL h
  obtain ⟨t, t', ht, ht', hstatus, houtLen, hhdr, hpixels, hbytes⟩ :=
    commandsReadOnlyTheirOperands i s s' hL h.params h.width h.height (fun p _ => h.grid p)
      fun _ => ⟨h.inLen, fun j _ => h.pbuf j⟩
  have hw := exec_writesWithin hL ht
  have hw' := exec_writesWithin (h.params ▸ hL) ht'
  have hN : s'.N = s.N := by rw [State.N, State.W, State.H, h.width, h.height]; rfl
  refine ⟨t, t', ht, ht', hstatus, houtLen, hhdr, fun p => ?_, fun j => ?_⟩
  · rcases Nat.lt_or_ge p s.N with hp | hp
    · exact hpixels p hp
    · rw [hw'.grid p (hN ▸ hp), hw.grid p hp, h.grid p]
  · rcases Nat.lt_or_ge j t.outLen.toNat with hj | hj
    · exact hbytes j hj
    · rw [hw'.pbuf j (houtLen ▸ hj), hw.pbuf j hj, h.pbuf j]

/-! ### Completion (R107, R260) -/

/-- The command running in `s` completes in `t`, `k` steps of the outside world later: those lead to `u` and leave the
command's inputs and the engine alone, and the step from `u` is the command's. -/
structure CompletesAfter (s : State) (k : Nat) (u t : State) : Prop where
  reached : core.run k s = .next u
  completed : core.run (k + 1) s = .next t
  exec_eq : exec s.heldCommand { u with schedule := u.schedule.tail } = .next t
  inputs : SameInputs s u
  engine : u.engine = s.engine
  idle : t.status.busy = false
  done : t.status.done = true

theorem SameInputs.refl (s : State) : SameInputs s s := ⟨⟨rfl, rfl, rfl, fun _ => rfl⟩, rfl, fun _ => rfl⟩

/-- On the engine's turn the running command completes (R105, R107). -/
theorem completesAfter_engineTurn {s : State} (hb : s.status.busy = true) (hturn : ¬ hostTurn s) :
    ∃ t, CompletesAfter s 0 s t := by
  obtain ⟨t, hexec, hform⟩ := exec_form s.heldCommand { s with schedule := s.schedule.tail }
  have hcompleted : core.run 1 s = .next t := run_next ((step_engine hb hturn).trans hexec) 0
  obtain ⟨st, ol, hd, g, p, e, rfl, hidle, hdone⟩ := hform
  exact ⟨_, run_zero s, hcompleted, hexec, .refl s, rfl, hidle, hdone⟩

/-- A step that changes only what stands outside the block puts the completion off by one step. -/
theorem CompletesAfter.afterHostTurn {s : State} {sc : List Agent} {is : List Input} {r : List Reply} {k : Nat}
    {u t : State} (h : CompletesAfter { s with schedule := sc, inputs := is, replies := r } k u t)
    (hstep : step s = .next { s with schedule := sc, inputs := is, replies := r }) : CompletesAfter s (k + 1) u t where
  reached := (run_next hstep k).trans h.reached
  completed := (run_next hstep (k + 1)).trans h.completed
  exec_eq := h.exec_eq
  inputs := ⟨⟨h.inputs.params, h.inputs.width, h.inputs.height, h.inputs.grid⟩, h.inputs.inLen, h.inputs.pbuf⟩
  engine := h.engine
  idle := h.idle
  done := h.done

/-- A running command completes after at most as many host turns as the schedule has turns. -/
theorem completesAfter_within (turns : List Agent) : ∀ s : State, s.schedule = turns → s.status.busy = true →
    quietUntilPoll s.inputs = true → ∃ k u t, k ≤ turns.length ∧ CompletesAfter s k u t := by
  induction turns with
  | nil =>
    intro s hs hb _
    obtain ⟨t, h⟩ := completesAfter_engineTurn hb (by simp [hostTurn, hs])
    exact ⟨0, s, t, Nat.zero_le _, h⟩
  | cons turn turns ih =>
    intro s hs hb hq
    by_cases hturn : hostTurn s
    · obtain ⟨turns', i, is, hs', hi⟩ := hturn
      obtain ⟨rfl, rfl⟩ : turn = .host ∧ turns = turns' := List.cons_eq_cons.1 (hs.symm.trans hs')
      obtain ⟨r, is', hmove, hq'⟩ :=
        inputMove_quietUntilPoll (s := { s with schedule := turns, inputs := is }) hb (hi ▸ hq)
      obtain ⟨k, u, t, hk, h⟩ := ih { s with schedule := turns, inputs := is', replies := r } rfl hb hq'
      exact ⟨k + 1, u, t, Nat.succ_le_succ hk, h.afterHostTurn ((step_host hb hs hi).trans hmove)⟩
    · obtain ⟨t, h⟩ := completesAfter_engineTurn hb hturn
      exact ⟨0, s, t, Nat.zero_le _, h⟩

/-- Settles O54: by induction on the schedule, each turn being the host's, which is quiet, or the engine's. -/
theorem everyCommandCompletes : Obligations.EveryCommandCompletes := by
  intro s hb hq
  obtain ⟨k, u, t, hk, hreached, hcompleted, hexec, hinputs, hengine, hidle, hdone⟩ :=
    completesAfter_within s.schedule s rfl hb hq
  exact ⟨k, u, t, hk, hreached, hcompleted, hexec, hinputs, hengine, hidle, hdone⟩

end Sys2Proof.Machine
end

section
/-! PROOFS. The datapath of 41_bit_packing.md: the parity write and a pixel's four bits (R125 to R127), the bit-packer and
the bit-unpacker (R120 to R122), the Variant B characters (R129 to R131, R137), the traversal orders and the trailer (R132
to R136), and the bits of GRID that no command changes (R125, R182). -/

namespace Sys2Proof.Machine

/-! ### The parity write and the four bits of a pixel (R125 to R127) -/

theorem setWidth_ofBool : ∀ b : Bit, (BitVec.ofBool b).setWidth 8 = if b then (1 : Byte) else 0 := by decide

/-- The parity write keeps `v div 2`, whatever the bit written. -/
theorem parityWrite_toNat : ∀ (v : Byte) (b : Bit), (parityWrite v b).toNat = 2 * (v.toNat / 2) + b.toNat := by
  decide +kernel

/-- Settles O21: the mask by `parityWrite_eq`, the range of change because `v div 2` is kept. -/
theorem parityWriteClosedForm : Obligations.ParityWriteClosedForm := by
  intro v b
  have hvalue := parityWrite_toNat v b
  have hbit : b.toNat ≤ 1 := b.toNat_le
  exact ⟨setWidth_ofBool b ▸ parityWrite_eq v b, par_parityWrite v b, by omega, by omega⟩

/-- A channel that carries the bit already stays as it is (R124). -/
theorem parityWrite_par (v : Byte) : parityWrite v (par v) = v := by
  unfold parityWrite
  cases par v <;> rfl

/-- Four bits in the LSBs of the four channels are R126's mask. -/
theorem pix_bits : ∀ b0 b1 b2 b3 : Bit,
    pix ((BitVec.ofBool b0).setWidth 8) ((BitVec.ofBool b1).setWidth 8) ((BitVec.ofBool b2).setWidth 8)
        ((BitVec.ofBool b3).setWidth 8) =
      ((if b0 then 0x01000000 else 0) ||| (if b1 then 0x00010000 else 0) ||| (if b2 then 0x00000100 else 0) |||
        (if b3 then 0x00000001 else 0)) := by
  decide

theorem parityWritePixel_mask (P : Word) (b0 b1 b2 b3 : Bit) :
    parityWritePixel P b0 b1 b2 b3 = (P &&& 0xFEFEFEFE) |||
      ((if b0 then 0x01000000 else 0) ||| (if b1 then 0x00010000 else 0) ||| (if b2 then 0x00000100 else 0) |||
        (if b3 then 0x00000001 else 0)) := by
  refine word_ext fun c => ?_
  rw [← pix_bits, parityWritePixel_eq, chan_or, chan_and, chan_lsbMask, chan_pix, chan_pix]
  cases c <;> exact parityWrite_eq _ _

theorem parPixel_eq (P : Word) : parPixel P = [P.getLsbD 24, P.getLsbD 16, P.getLsbD 8, P.getLsbD 0] := by
  simp [parPixel, par, chan]

/-- A pixel that carries the four bits already stays as it is (R126). -/
theorem parityWritePixel_same {P : Word} {b0 b1 b2 b3 : Bit} (h : parPixel P = [b0, b1, b2, b3]) :
    parityWritePixel P b0 b1 b2 b3 = P := by
  obtain ⟨rfl, rfl, rfl, rfl⟩ :
      par (chan P .A) = b0 ∧ par (chan P .R) = b1 ∧ par (chan P .G) = b2 ∧ par (chan P .B) = b3 := by
    simpa [parPixel] using h
  rw [parityWritePixel_eq]
  simp only [parityWrite_par, pix_chan]

/-- Settles O22: channel by channel, each channel by the rules of the parity write. -/
theorem pixelBits : Obligations.PixelBits :=
  ⟨parityWritePixel_mask, parPixel_eq, fun P b0 b1 b2 b3 =>
    ⟨parPixel_parityWritePixel P b0 b1 b2 b3, parityWritePixel_same⟩⟩

/-! ### The bit-packer and the bit-unpacker (R120 to R122) -/

/-- The number eight bits spell, as a sum. -/
theorem bitsToNat_eight (f : Nat → Bit) :
    bitsToNat ((List.range 8).map f) = ((List.range 8).map fun i => (f i).toNat * 2 ^ (7 - i)).sum := by
  rw [bitsToNat_sum]; rfl

theorem bitsToBytes_getD_toNat {p : Bits} {j : Nat} (hj : j < p.length / 8) :
    ((bitsToBytes p).getD j 0).toNat =
      ((List.range 8).map fun i => (p.getD (8 * j + i) false).toNat * 2 ^ (7 - i)).sum := by
  have hlt : bitsToNat ((List.range 8).map fun i => p.getD (8 * j + i) false) < 2 ^ 8 := bitsToNat_lt _
  rw [bitsToBytes_getD p j hj, BitVec.toNat_ofNat, Nat.mod_eq_of_lt hlt, bitsToNat_eight]

/-- Settles O23: the lengths, and bit by bit and byte by byte. -/
theorem packerClosedForms : Obligations.PackerClosedForms := by
  refine ⟨fun d => ⟨length_bytesToBits d, fun j i hj hi => ?_⟩,
    fun p => ⟨length_bitsToBytes p, fun j => bitsToBytes_getD_toNat⟩⟩
  rw [bytesToBits_getD d _ (by omega), show (8 * j + i) / 8 = j by omega, show (8 * j + i) % 8 = i by omega]

/-- Settles O24, by the two laws of the datapath. -/
theorem packerLaws : Obligations.PackerLaws := ⟨bitsToBytes_bytesToBits_eq, bytesToBits_bitsToBytes_eq⟩

/-! ### The characters of Variant B (R129 to R131, R137) -/

theorem byte_div_two (c : Byte) : c / 2 = c >>> 1 :=
  BitVec.eq_of_toNat_eq (by simp [Nat.shiftRight_succ])

/-- `k` NextBits leave the character shifted by `k` (R129). -/
theorem State.dropBit_iterate_cv (s : State) (k : Nat) : (State.dropBit^[k] s).engine.cv = s.engine.cv >>> k := by
  induction k with
  | zero => rfl
  | succ k ih =>
    rw [Function.iterate_succ_apply', BitVec.shiftRight_add, ← ih]
    exact byte_div_two _

/-- Settles O26: after `k` NextBits the character is shifted by `k`, and its low bit is its bit `k`. -/
theorem characterUnpacking : Obligations.CharacterUnpacking := by
  intro s
  have hload : s.loadChar.engine.cv = s.pbufRead s.engine.ci := rfl
  refine ⟨fun k hk => ?_, ?_⟩
  · rw [State.dropBit_iterate_cv, hload, (nextBit_value _ ⟨k, hk⟩).1, setWidth_ofBool]
  · rw [State.dropBit_iterate_cv]
    exact BitVec.ushiftRight_eq_zero le_rfl

theorem getLsbD_reverse8 (v : Byte) {i : Nat} (hi : i < 8) : (reverse8 v).getLsbD i = v.getLsbD (7 - i) := by
  rw [reverse8, BitVec.getLsbD_reverse, BitVec.getMsbD_eq_getLsbD]
  simp [hi]

theorem accumulate_toNat (a : Byte) (e : Bit) : (accumulate a e).toNat = (2 * a.toNat + e.toNat) % 2 ^ 8 := by
  cases e <;> simp [accumulate]

/-- The accumulator holds the number that the bits so far spell, cut to its 8 bits (R130). -/
theorem foldl_accumulate_toNat (e : Bits) : (e.foldl accumulate 0).toNat = bitsToNat e % 2 ^ 8 := by
  induction e using List.reverseRecOn with
  | nil => rfl
  | append_singleton e b ih =>
    rw [List.foldl_append, List.foldl_cons, List.foldl_nil, accumulate_toNat, ih, bitsToNat_append]
    omega

theorem foldl_accumulate_toNat_eight {e : Bits} (he : e.length = 8) : (e.foldl accumulate 0).toNat = bitsToNat e := by
  rw [foldl_accumulate_toNat, Nat.mod_eq_of_lt (he ▸ bitsToNat_lt e)]

/-- Bit `i` of the character formed is the bit that came `i`-th (R137). -/
theorem getLsbD_charPack {e : Bits} (he : e.length = 8) {i : Nat} (hi : i < 8) :
    (charPack e).getLsbD i = e.getD i false := by
  have hbit := testBit_bitsToNat e i (by omega)
  rw [he] at hbit
  rw [charPack, getLsbD_reverse8 _ hi, BitVec.getLsbD, foldl_accumulate_toNat_eight he]
  exact hbit

theorem byte_toNat_sum : ∀ c : Byte, c.toNat = ((List.range 8).map fun i => (c.getLsbD i).toNat * 2 ^ i).sum := by
  decide +kernel

theorem charPack_toNat {e : Bits} (he : e.length = 8) :
    (charPack e).toNat = ((List.range 8).map fun i => (e.getD i false).toNat * 2 ^ i).sum := by
  rw [byte_toNat_sum]
  refine congrArg List.sum (List.map_congr_left fun i hi => ?_)
  rw [getLsbD_charPack he (List.mem_range.1 hi)]

theorem charPack_eq_iff {e : Bits} (he : e.length = 8) (c : Byte) :
    charPack e = c ↔ ∀ i, i < 8 → e.getD i false = c.getLsbD i := by
  constructor
  · rintro rfl i hi
    exact (getLsbD_charPack he hi).symm
  · exact fun h => BitVec.eq_of_getLsbD_eq fun i hi => (getLsbD_charPack he hi).trans (h i hi)

/-- Settles O27: the accumulator spells its bits most significant first, and the reversal puts the first in bit 0. -/
theorem characterPacking : Obligations.CharacterPacking := by
  refine ⟨fun v i => getLsbD_reverse8 v, fun e he => ⟨charPack_toNat he, ?_, charPack_eq_iff he⟩⟩
  rw [foldl_accumulate_toNat_eight he, bitsToNat_sum, he]

/-! ### The traversal orders and the trailer (R132 to R136) -/

/-- A number below `a*b` and its quotient and remainder by `b`. -/
theorem lt_mul_divMod_iff {a b n q r : Nat} : (n < a * b ∧ n / b = q ∧ n % b = r) ↔ q < a ∧ r < b ∧ n = q * b + r := by
  constructor
  · rintro ⟨hn, rfl, rfl⟩
    have hb : 0 < b := Nat.pos_of_mul_pos_left (Nat.zero_lt_of_lt hn)
    exact ⟨Nat.div_lt_of_lt_mul (Nat.mul_comm a b ▸ hn), Nat.mod_lt _ hb, (Nat.div_add_mod' n b).symm⟩
  · rintro ⟨hq, hr, rfl⟩
    refine ⟨Nat.mul_comm b a ▸ pixelIndex_lt hr hq, ?_, ?_⟩
    · rw [Nat.mul_comm, Nat.mul_add_div (Nat.zero_lt_of_lt hr), Nat.div_eq_of_lt hr, Nat.add_zero]
    · rw [Nat.mul_add_mod', Nat.mod_eq_of_lt hr]

/-- Visit `n` of the column-major order is pixel (x, y) exactly when n = x*H + y (R132). -/
theorem columnMajor_getElem?_iff {W H n x y : Nat} :
    (columnMajor W H)[n]? = some (x, y) ↔ x < W ∧ y < H ∧ n = x * H + y := by
  rw [← lt_mul_divMod_iff, columnMajor_eq]
  simp [List.getElem?_eq_some_iff]

/-- Visit `n` of the row-major order is pixel (x, y) exactly when n = y*W + x (R133). -/
theorem rowMajor_getElem?_iff {W H n x y : Nat} :
    (rowMajor W H)[n]? = some (x, y) ↔ y < H ∧ x < W ∧ n = y * W + x := by
  rw [← lt_mul_divMod_iff, rowMajor_eq, Nat.mul_comm W H]
  simp [List.getElem?_eq_some_iff, and_comm]

/-- Settles O28: each order by its visit numbers. -/
theorem traversalOrders : Obligations.TraversalOrders := by
  refine fun W H => ⟨by simp [columnMajor_eq], by simp [rowMajor_eq],
    fun x y hx hy => columnMajor_getElem?_iff.2 ⟨hx, hy, rfl⟩, fun x y hx hy => rowMajor_getElem?_iff.2 ⟨hy, hx, rfl⟩,
    fun n x y => columnMajor_getElem?_iff.1, fun n x y h => ?_⟩
  obtain ⟨hy, hx, hn⟩ := rowMajor_getElem?_iff.1 h
  exact ⟨hx, hy, hn, hn.symm⟩

/-- In a grid of one row the payload pixels are the first W - 6, in order (R136). -/
theorem nt_oneRow {W q : Nat} (hq : q < W - 6) : nt W 1 q = (q, 0) := by
  simp [nt, hq, Nat.mod_one]

/-- Settles O29: the visits that `trailer_iff` picks, and the rest. -/
theorem trailerAndPayloadPixels : Obligations.TrailerAndPayloadPixels := by
  refine fun W H hW hH => ⟨fun x y _ hy => trailer_iff hW hH hy, filter_trailer hW hH, fun j hj => ?_,
    filter_nonTrailer hW hH, ?_⟩
  · exact columnMajor_getElem?_iff.2 ⟨by omega, by omega, rfl⟩
  · rintro rfl q hq
    exact nt_oneRow hq

/-! ### The bits of GRID that no command changes (R125, R182) -/

/-- EMBED_A keeps all bits of a GRID word but the four channel LSBs, whether it is a trailer pixel, a payload pixel or
none of the grid's. -/
theorem State.embedATraverse_upper {s : State} (hN : s.N ≤ s.params.gridWords) (hc : capOK (8 * s.count) s.W s.H)
    (p : Nat) : s.embedATraverse.gridRead p &&& 0xFEFEFEFE = s.gridRead p &&& 0xFEFEFEFE := by
  obtain ⟨hW, hH, -⟩ := capOK_count hc
  by_cases hp : p < s.N
  · obtain ⟨j, hj, rfl⟩ | ⟨q, hq, rfl⟩ := s.trailer_or_nt hW hH hp
    · rw [s.embedATraverse_header hN hc hj, writeFour_upper]
    · rw [s.embedATraverse_payload hN hc hq]
      split
      · rw [writeFour_upper]
      · rfl
  · rw [s.embedATraverse_beyond hN (Nat.le_of_not_lt hp)]

theorem State.textPixel_alpha (s : State) (p : Nat) : chan (s.textPixel p) .A = chan (s.gridRead p) .A := by
  rw [State.textPixel, chan_pix]

/-- EXTRACT_B writes no GRID word, whatever the sizes. -/
theorem State.finishExtractB_sameGrid (s : State) : SameGrid s (finishExtractB s.extractBTraverse) := by
  obtain ⟨m, e, h | h⟩ := extractBVisits_form (rowMajor s.W s.H) s.startExtractB
  · rw [State.extractBTraverse, h]; exact fun _ => rfl
  · rw [State.extractBTraverse, h]; exact fun _ => rfl

/-- Every command, in every state, keeps all bits of every GRID word but the four channel LSBs. -/
theorem exec_upper {i : Instr} {s t : State} (h : exec i s = .next t) (p : Nat) :
    t.gridRead p &&& 0xFEFEFEFE = s.gridRead p &&& 0xFEFEFEFE := by
  obtain ⟨c, -, rfl⟩ | ⟨rfl, hbig, hcap, rfl⟩ | ⟨rfl, -, -, -, rfl⟩ | ⟨rfl, hg, ht, hl⟩ | ⟨rfl, hbig⟩ | ⟨rfl, hg⟩ :=
    exec_cases h
  · rfl
  · exact State.embedATraverse_upper (Nat.le_of_not_lt (not_or.1 hbig).1) hcap p
  · rfl
  · obtain ⟨x, y, -, -, hx⟩ := exec_extractA_ok hg ht hl
    rw [h, State.pbufWriteFrom_eq] at hx; cases hx
    rfl
  · obtain ⟨u, hu, -, -, hgrid⟩ := exec_embedB_result hbig
    rw [h] at hu; cases hu
    rw [hgrid p]
    split
    · exact s.textPixel_upper p
    · rfl
  · have hfin : exec .extractB s = .next (finishExtractB s.extractBTraverse) := if_neg hg
    rw [h] at hfin; cases hfin
    rw [s.finishExtractB_sameGrid p]

/-- EMBED_B keeps every alpha channel (R182). -/
theorem exec_embedB_alpha {s t : State} (h : exec .embedB s = .next t) (p : Nat) :
    chan (t.gridRead p) .A = chan (s.gridRead p) .A := by
  by_cases hbig : s.embedTooBig
  · rw [exec_embedB_config hbig] at h; cases h
    rfl
  · obtain ⟨u, hu, -, -, hgrid⟩ := exec_embedB_result hbig
    rw [h] at hu; cases hu
    rw [hgrid p]
    split
    · exact s.textPixel_alpha p
    · rfl

/-- Settles O45: every command by `exec_upper`, and EMBED_B's alpha channels. -/
theorem embedsChangeOnlyLsbs : Obligations.EmbedsChangeOnlyLsbs := by
  refine fun i s t h => ⟨exec_upper h, ?_⟩
  rintro rfl
  exact exec_embedB_alpha h

end Sys2Proof.Machine
end

section
/-! PROOFS. Variant A (42_variant_a.md): the length header (R151, R155), which command raises which code (R164), the
capacity boundary (R162), what EMBED_A and EXTRACT_A leave on success and on an exception (R152 to R160, R163, R165), and
the round trip (R161). -/

namespace Sys2Proof.Machine

/-! ### The length header (R151, R155) -/

theorem headerBits_getD (L : Nat) {i : Nat} (hi : i < 24) : (headerBits L).getD i false = L.testBit (23 - i) := by
  simp [headerBits, hi]

/-- The 24 bits of a header are the header of the number they spell. -/
theorem headerBits_headerDecode {h : Bits} (hl : h.length = 24) : headerBits (headerDecode h) = h := by
  refine List.ext_getElem (by rw [length_headerBits, hl]) fun i _ hi => ?_
  have hbit := testBit_bitsToNat h i hi
  rw [hl, List.getD_eq_getElem _ _ hi] at hbit
  simpa [headerBits, headerDecode] using hbit

/-- Settles O25: the header of `L` spells `L` below 2^24, and 24 bits spell a number below 2^24. -/
theorem lengthHeader : Obligations.LengthHeader := by
  refine ⟨fun L hL => ⟨length_headerBits L, fun i => headerBits_getD L, headerDecode_headerBits (by omega)⟩,
    fun h hl => ⟨?_, ?_, headerBits_headerDecode hl⟩⟩
  · rw [headerDecode, bitsToNat_sum, hl]
  · exact Nat.le_of_lt_succ (headerDecode_lt hl.le)

/-! ### Which command raises which code (R164, R221) -/

/-- The codes command `i` may complete with (R164, R221). -/
@[simp] def completionCodes : Instr → List Code
  | .embedA => [.ok, .configError, .capacityExceeded]
  | .extractA => [.ok, .configError, .truncatedStream, .invalidLength]
  | .embedB => [.ok, .configError]
  | .extractB => [.ok, .configError, .missingTerminator]
  | .illegal _ => [.illegalCommand]

theorem codeValue_injective : Function.Injective codeValue := by
  intro c c'
  cases c <;> cases c' <;> decide

theorem mem_completionCodes_of_raises {i : Instr} {c : Code} (h : raises i c) : c ∈ completionCodes i := by
  obtain ⟨hi, rfl⟩ | ⟨rfl, rfl⟩ | ⟨rfl, rfl⟩ | ⟨⟨op, rfl⟩, rfl⟩ := h
  · cases i with
    | illegal op => simp [isEmbed] at hi
    | _ => simp
  all_goals simp

/-- Every command, in every state, completes with one of its codes. -/
theorem exec_completionCode {i : Instr} {s t : State} (h : exec i s = .next t) :
    ∃ c, c ∈ completionCodes i ∧ t.status.code = codeValue c := by
  obtain ⟨c, hc, rfl⟩ | ⟨rfl, -, -, rfl⟩ | ⟨rfl, -, -, -, rfl⟩ | ⟨rfl, hg, ht, hl⟩ | ⟨rfl, hbig⟩ | ⟨rfl, hg⟩ := exec_cases h
  · exact ⟨c, mem_completionCodes_of_raises hc, rfl⟩
  · exact ⟨.ok, by simp, rfl⟩
  · exact ⟨.invalidLength, by simp, rfl⟩
  · obtain ⟨x, y, -, -, hok⟩ := exec_extractA_ok hg ht hl
    rw [h] at hok; cases hok
    exact ⟨.ok, by simp, rfl⟩
  · obtain ⟨u, hu, -⟩ := exec_embedB_ok hbig
    rw [h] at hu; cases hu
    exact ⟨.ok, by simp, rfl⟩
  · have hfin : exec .extractB s = .next (finishExtractB s.extractBTraverse) := if_neg hg
    rw [h] at hfin; cases hfin
    cases s.extractBTraverse with
    | stop u => exact ⟨.ok, by simp, rfl⟩
    | go u => exact ⟨.missingTerminator, by simp, rfl⟩

/-- The codes of one command alone, and the code of none. -/
theorem completionCodes_owner (i : Instr) :
    .channelSaturation ∉ completionCodes i ∧ (.capacityExceeded ∈ completionCodes i → i = .embedA) ∧
    (.invalidLength ∈ completionCodes i → i = .extractA) ∧ (.truncatedStream ∈ completionCodes i → i = .extractA) ∧
    (.missingTerminator ∈ completionCodes i → i = .extractB) ∧
    (.illegalCommand ∈ completionCodes i → ∃ op, i = .illegal op) := by
  cases i <;> simp

/-- Settles O33: a completion's code is one of its command's, and each code but OK and CONFIG_ERROR is one command's. -/
theorem codesByCommand : Obligations.CodesByCommand := by
  intro i s t h
  obtain ⟨c, hmem, hcode⟩ := exec_completionCode h
  obtain ⟨hsat, hcap, hinv, htrunc, hterm, hill⟩ := completionCodes_owner i
  have hof {c' : Code} (h' : t.status.code = codeValue c') : c' ∈ completionCodes i :=
    codeValue_injective (hcode.symm.trans h') ▸ hmem
  refine ⟨fun h' => hsat (hof h'), ?_, fun h' => hcap (hof h'), fun h' => hinv (hof h'), fun h' => htrunc (hof h'),
    fun h' => hterm (hof h'), fun h' => hill (hof h'), ?_⟩
  · rw [hcode]
    exact codeValue_le c (ne_of_mem_of_not_mem hmem hsat)
  · rintro ⟨op, rfl⟩
    cases h
    rfl

/-! ### The capacity predicate (R150, R162) -/

/-- For a grid with a trailer, the capacity predicate is its two bounds on the number of bits. -/
theorem capOK_iff {bits W H : Nat} (hW : 6 ≤ W) (hH : 1 ≤ H) :
    capOK bits W H ↔ bits ≤ 16777215 ∧ pixelsForBits bits ≤ W * H - 6 := by
  have hN : 6 ≤ W * H := le_trans hW (Nat.le_mul_of_pos_right _ hH)
  have hfit : (pixelsForBits bits : Int) ≤ (W : Int) * H - 6 ↔ pixelsForBits bits ≤ W * H - 6 := by
    rw [← Nat.cast_mul]; omega
  rw [capOK, hfit]
  exact ⟨fun ⟨hmax, _, hpix⟩ => ⟨hmax, hpix⟩, fun ⟨hmax, hpix⟩ => ⟨hmax, ⟨hW, hH⟩, hpix⟩⟩

/-- The pixels of `n` payload bytes, four bits to a pixel. -/
theorem pixelsForBits_bytes (n : Nat) : pixelsForBits (8 * n) = 2 * n := by
  unfold pixelsForBits; omega

/-- Settles O39: `capOK_iff` at the boundary, in bits and, two pixels to a byte, in bytes. -/
theorem capacityBoundary : Obligations.CapacityBoundary := by
  refine ⟨fun W H hW hH hmax => ?_, fun s hW hH hmax hbig => ?_⟩
  · rw [capOK_iff hW hH, capOK_iff hW hH]
    unfold pixelsForBits
    omega
  · have hcap : capOK (8 * s.count) s.W s.H ↔ s.count ≤ (s.N - 6) / 2 := by
      rw [capOK_iff hW hH, pixelsForBits_bytes, ← State.N]
      omega
    exact ⟨fun hfits => ⟨_, exec_embedA_ok hbig (hcap.2 hfits), rfl⟩,
      fun hover => ⟨_, exec_embedA_capacity hbig (mt hcap.1 (Nat.not_le_of_lt hover)), rfl⟩⟩

/-! ### EMBED_A (R152 to R154, R163) -/

/-- A command's raised exception writes nothing but the status outputs (R225). -/
theorem State.raise_frame (s : State) (c : Code) :
    SameOutside s (s.raise c) ∧ SameGrid s (s.raise c) ∧ SamePbuf s (s.raise c) :=
  ⟨(s.raise_form c).same, fun _ => rfl, fun _ => rfl⟩

/-- What EMBED_A leaves when its checks pass: GRID as its traversal does, and nothing else written. -/
theorem exec_embedA_result {s : State} (hbig : ¬ s.embedTooBig) (hcap : capOK (8 * s.count) s.W s.H) :
    ∃ t, exec .embedA s = .next t ∧ CompletedWith t .ok false 0 (8 * s.count) ∧ SameOutside s t ∧ SamePbuf s t ∧
      ∀ i, t.gridRead i = s.embedATraverse.gridRead i := by
  obtain ⟨-, -, -, -, hmax⟩ := capOK_count hcap
  obtain ⟨g, e, hform⟩ := s.embedATraverse_form
  refine ⟨_, exec_embedA_ok hbig hcap, ⟨rfl, rfl, ?_⟩, ?_, ?_, fun _ => rfl⟩
  · rw [State.complete_hdr, BitVec.toNat_ofNat]; omega
  · rw [hform]; exact (s.complete_form g s.pbuf e _ _ _ _).same
  · rw [hform]; exact fun _ => rfl

/-- EMBED_A's traversal accesses no pixel but the trailer's and those of its payload (R154). -/
theorem State.embedATraverse_untouched {s : State} (hN : s.N ≤ s.params.gridWords) (hcap : capOK (8 * s.count) s.W s.H)
    {i : Nat} (htr : ∀ j, j < 6 → pixelIndex s.W (trailerPixel s.W s.H j).1 (trailerPixel s.W s.H j).2 ≠ i)
    (hnt : ∀ q, q < 2 * s.count → pixelIndex s.W (nt s.W s.H q).1 (nt s.W s.H q).2 ≠ i) :
    s.embedATraverse.gridRead i = s.gridRead i := by
  obtain ⟨hW, hH, -⟩ := capOK_count hcap
  rcases Nat.lt_or_ge i s.N with hi | hi
  · obtain ⟨j, hj, hij⟩ | ⟨q, hq, rfl⟩ := s.trailer_or_nt hW hH hi
    · exact absurd hij (htr j hj)
    · have hrest : ¬ q < 2 * s.count := fun hq' => hnt q hq' rfl
      rw [s.embedATraverse_payload hN hcap hq, if_neg hrest]
  · exact s.embedATraverse_beyond hN hi

/-- An embed whose configuration check passes has its grid inside GRID (R106). -/
theorem State.N_le_of_not_embedTooBig {s : State} (hbig : ¬ s.embedTooBig) : s.N ≤ s.params.gridWords :=
  Nat.le_of_not_lt (not_or.1 hbig).1

/-- Settles O36: the frame of EMBED_A's traversal, word by word and bit by bit. -/
theorem embedASucceeds : Obligations.EmbedASucceeds := by
  intro s hbig hcap
  have hN := State.N_le_of_not_embedTooBig hbig
  obtain ⟨t, ht, hdone, hout, hpbuf, hgrid⟩ := exec_embedA_result hbig hcap
  exact ⟨t, ht, hdone, hout, hpbuf,
    fun i htr hnt => (hgrid i).trans (State.embedATraverse_untouched hN hcap htr hnt),
    fun i => hgrid i ▸ State.embedATraverse_upper hN hcap i⟩

/-- `t` carries, in the grid of `s`, the header and the payload of `s`: R163's parities. -/
structure CarriesPayload (s t : State) : Prop where
  header : ∀ j, j < 6 → parPixel (t.pixelRead (trailerPixel s.W s.H j).1 (trailerPixel s.W s.H j).2) =
    ((headerBits (8 * s.count)).drop (4 * j)).take 4
  payload : ∀ q, q < 2 * s.count → parPixel (t.pixelRead (nt s.W s.H q).1 (nt s.W s.H q).2) =
    ((bytesToBits (s.pbufBytes s.count)).drop (4 * q)).take 4

/-- A grid as EMBED_A's traversal leaves it carries the header and the payload (R163). -/
theorem carriesPayload_of_embedATraverse {s t : State} (hN : s.N ≤ s.params.gridWords)
    (hcap : capOK (8 * s.count) s.W s.H) (hW : t.W = s.W)
    (hgrid : ∀ i, t.gridRead i = s.embedATraverse.gridRead i) : CarriesPayload s t := by
  obtain ⟨-, -, hroom, -, -⟩ := capOK_count hcap
  refine ⟨fun j hj => ?_, fun q hq => ?_⟩
  · rw [State.pixelRead, hW, hgrid, s.embedATraverse_header hN hcap hj,
      parPixel_writeFour _ _ _ (by rw [length_headerBits]; omega)]
  · rw [State.pixelRead, hW, hgrid, s.embedATraverse_payload hN hcap (by omega), if_pos hq,
      parPixel_writeFour _ _ _ (by rw [length_bytesToBits, State.length_pbufBytes]; omega)]

theorem exec_embedA_carriesPayload {s t : State} (hbig : ¬ s.embedTooBig) (hcap : capOK (8 * s.count) s.W s.H)
    (h : exec .embedA s = .next t) : CarriesPayload s t := by
  obtain ⟨u, hu, -, hout, -, hgrid⟩ := exec_embedA_result hbig hcap
  rw [h] at hu; cases hu
  exact carriesPayload_of_embedATraverse (State.N_le_of_not_embedTooBig hbig) hcap
    (congrArg BitVec.toNat hout.width) hgrid

/-- Settles O37: the words EMBED_A writes carry the four bits written. -/
theorem embedAParities : Obligations.EmbedAParities := by
  intro s hbig hcap
  have hok := exec_embedA_ok hbig hcap
  obtain ⟨hheader, hpayload⟩ := exec_embedA_carriesPayload hbig hcap hok
  exact ⟨_, hok, hheader, hpayload⟩

/-- Settles O38: both checks come before the traversal, and each failure is an error completion. -/
theorem embedAIsAllOrNothing : Obligations.EmbedAIsAllOrNothing := by
  intro s hfails
  by_cases hbig : s.embedTooBig
  · rw [if_pos hbig]
    exact ⟨_, exec_embedA_config hbig, s.raise_completedWith _, s.raise_frame _⟩
  · rw [if_neg hbig]
    exact ⟨_, exec_embedA_capacity hbig (hfails.resolve_left hbig), s.raise_completedWith _, s.raise_frame _⟩

/-! ### EXTRACT_A (R156 to R160, R165) -/

/-- Settles O40: the outputs by `exec_extractA_result`, the length bound by the 24 bits of the header and the four bits of
a pixel. -/
theorem extractASucceeds : Obligations.ExtractASucceeds := by
  intro s hL hbig hW hH hfits
  have hN := State.six_le_N hW hH
  have hmax := s.headerDecode_readHeader_lt
  obtain ⟨t, ht, hdone, hgrid, hpbuf⟩ := exec_extractA_result hL hbig (by omega) (by omega)
  obtain ⟨t', ht', hform⟩ := exec_form .extractA s
  rw [ht] at ht'; cases ht'
  refine ⟨t, ht, hdone, hform.same, hgrid, fun j hj => (hpbuf j).trans (if_pos hj),
    fun j hj => (hpbuf j).trans (if_neg (Nat.not_lt_of_le hj)), by omega, ?_⟩
  unfold pixelsForBits at hfits
  omega

/-- Settles O41: cause by cause, in the order of R156's checks. -/
theorem extractAErrors : Obligations.ExtractAErrors := by
  intro s hfails
  by_cases hbig : s.gridTooBig
  · obtain ⟨hout, hgrid, hpbuf⟩ := s.raise_frame .configError
    exact ⟨_, exec_extractA_config hbig, hout, hgrid, hpbuf, fun _ => s.raise_completedWith _,
      fun h => absurd hbig h, fun h => absurd hbig h⟩
  by_cases htrunc : s.W < 6 ∨ s.H < 1
  · obtain ⟨hout, hgrid, hpbuf⟩ := s.raise_frame .truncatedStream
    exact ⟨_, exec_extractA_truncated hbig htrunc, hout, hgrid, hpbuf, fun h => absurd h hbig,
      fun _ _ => s.raise_completedWith _, fun _ h => absurd htrunc h⟩
  have hlong : (s.N : Int) - 6 < pixelsForBits (headerDecode s.readHeader) := by
    have hN := State.six_le_N (s := s) (by omega) (by omega)
    have hover : ¬ pixelsForBits (headerDecode s.readHeader) ≤ s.N - 6 :=
      fun hfits => hfails ⟨hbig, by omega, by omega, hfits⟩
    omega
  refine ⟨_, exec_extractA_invalid hbig htrunc hlong, ?_, fun _ => rfl, fun _ => rfl, fun h => absurd h hbig,
    fun _ h => absurd h htrunc, fun _ _ => ⟨rfl, rfl, ?_⟩⟩
  · exact (s.complete_form s.grid s.pbuf s.startExtractA.engine _ _ _ _).same
  · rw [State.complete_hdr, BitVec.toNat_ofNat, Nat.mod_eq_of_lt s.headerDecode_readHeader_lt]

/-- Settles O42: EXTRACT_A reads the image alone, which neither command and no one in between writes. -/
theorem extractAIsIdempotent : Obligations.ExtractAIsIdempotent := by
  intro s t s' hL ht himage
  obtain ⟨t', ht', hform⟩ := exec_form .extractA s
  rw [ht] at ht'; cases ht'
  have hout := hform.same
  have hparams : s'.params = s.params := himage.params.trans hout.params
  have hgrid : SameGrid s s' := fun i => (himage.grid i).trans ((exec_writesWithin hL ht).extract rfl i)
  obtain ⟨t', u, ht', hu, hstatus, houtLen, hhdr, -, hpbuf⟩ :=
    commandsReadOnlyTheirOperands .extractA s s' hL hparams (himage.width.trans hout.width)
      (himage.height.trans hout.height) (fun p _ => hgrid p) nofun
  rw [ht] at ht'; cases ht'
  have hkept : SameGrid s' u := (exec_writesWithin (hparams ▸ hL) hu).extract rfl
  exact ⟨u, hu, hstatus, hhdr, houtLen, fun i => (hkept i).trans (hgrid i), hpbuf⟩

/-! ### The round trip (R161) -/

/-- The header read where EMBED_A left one is the one embedded. -/
theorem CarriesPayload.readHeader {s t : State} (h : CarriesPayload s t) (hW : t.W = s.W) (hH : t.H = s.H) :
    t.readHeader = headerBits (8 * s.count) := by
  calc t.readHeader
      = (List.range 6).flatMap fun j => ((headerBits (8 * s.count)).drop (4 * j)).take 4 := by
        rw [State.readHeader, hW, hH]
        exact List.flatMap_congr fun j hj => h.header j (List.mem_range.1 hj)
    _ = (headerBits (8 * s.count)).take (4 * 6) := flatMap_fours _ 6 (by rw [length_headerBits])
    _ = headerBits (8 * s.count) := List.take_of_length_le (by rw [length_headerBits])

/-- The payload bits read where EMBED_A left them are those embedded. -/
theorem CarriesPayload.payloadBits {s t : State} (h : CarriesPayload s t) (hW : t.W = s.W) (hH : t.H = s.H) :
    t.payloadBits (2 * s.count) = bytesToBits (s.pbufBytes s.count) := by
  have hlen : (bytesToBits (s.pbufBytes s.count)).length = 4 * (2 * s.count) := by
    rw [length_bytesToBits, State.length_pbufBytes]; omega
  calc t.payloadBits (2 * s.count)
      = (List.range (2 * s.count)).flatMap fun q => ((bytesToBits (s.pbufBytes s.count)).drop (4 * q)).take 4 := by
        rw [State.payloadBits, hW, hH]
        exact List.flatMap_congr fun q hq => h.payload q (List.mem_range.1 hq)
    _ = (bytesToBits (s.pbufBytes s.count)).take (4 * (2 * s.count)) := flatMap_fours _ _ hlen.ge
    _ = bytesToBits (s.pbufBytes s.count) := List.take_of_length_le hlen.le

/-- What EXTRACT_A puts out where EMBED_A left a payload is that payload: unpacking the bits packed (R122). -/
theorem CarriesPayload.outputBytes {s t : State} (h : CarriesPayload s t) (hW : t.W = s.W) (hH : t.H = s.H)
    (hlen : headerDecode t.readHeader = 8 * s.count) : t.outputBytes = s.pbufBytes s.count := by
  rw [State.outputBytes, hlen, pixelsForBits_bytes, h.payloadBits hW hH, List.take_of_length_le,
    bitsToBytes_bytesToBits_eq]
  rw [length_bytesToBits, State.length_pbufBytes]

theorem CarriesPayload.ofSameImage {s t s' : State} (h : CarriesPayload s t) (himage : SameImage t s') :
    CarriesPayload s s' := by
  have hpixel (x y : Nat) : s'.pixelRead x y = t.pixelRead x y := by
    rw [State.pixelRead, State.W, himage.width, himage.grid]; rfl
  exact ⟨fun j hj => hpixel _ _ ▸ h.header j hj, fun q hq => hpixel _ _ ▸ h.payload q hq⟩

theorem State.pbufBytes_getD (s : State) {n j : Nat} (hj : j < n) : (s.pbufBytes n).getD j 0 = s.pbufRead j := by
  simp [State.pbufBytes, hj]

/-- EXTRACT_A on a grid that carries the payload of `s` gives that payload back. -/
theorem exec_extractA_of_carriesPayload {s s' : State} (h : CarriesPayload s s') (hparams : s'.params = s.params)
    (hWW : s'.W = s.W) (hHH : s'.H = s.H) (hL : s.params.Legal) (hN : s.N ≤ s.params.gridWords)
    (hcap : capOK (8 * s.count) s.W s.H) :
    ∃ u, exec .extractA s' = .next u ∧ CompletedWith u .ok false s.count (8 * s.count) ∧
      ∀ j, j < s.count → u.pbufRead j = s.pbufRead j := by
  obtain ⟨hW, hH, hroom, hsix, hmax⟩ := capOK_count hcap
  have hNN : s'.N = s.N := by rw [State.N, hWW, hHH, State.N]
  have hlen : headerDecode s'.readHeader = 8 * s.count := by
    rw [h.readHeader hWW hHH, headerDecode_headerBits (by omega)]
  have hbig : ¬ s'.gridTooBig := by rw [State.gridTooBig, hparams, hNN]; omega
  obtain ⟨u, hu, hdone, -, hpbuf⟩ := exec_extractA_result (hparams ▸ hL) hbig (by rw [hWW, hHH]; omega)
    (by rw [hlen, pixelsForBits_bytes, hNN]; omega)
  have hbytes : headerDecode s'.readHeader / 8 = s.count := by omega
  rw [hbytes, hlen] at hdone
  refine ⟨u, hu, hdone, fun j hj => ?_⟩
  rw [hpbuf j, hbytes, if_pos hj, h.outputBytes hWW hHH hlen, s.pbufBytes_getD hj]

/-- Settles O43: EMBED_A leaves a grid that carries the payload, the host keeps it, and EXTRACT_A reads it back. -/
theorem variantARoundTrip : Obligations.VariantARoundTrip := by
  intro s hL hmax hW hH hroom hN hlen
  have hbig : ¬ s.embedTooBig := not_or.2 ⟨Nat.not_lt_of_le hN, Nat.not_lt_of_le hlen⟩
  have hcap : capOK (8 * s.count) s.W s.H := (capOK_iff hW hH).2 ⟨hmax, (pixelsForBits_bytes _).symm ▸ hroom⟩
  obtain ⟨t, ht, hdone, hout, -⟩ := exec_embedA_result hbig hcap
  refine ⟨t, ht, by rw [hdone.status]; rfl, fun s' himage => ?_⟩
  exact exec_extractA_of_carriesPayload ((exec_embedA_carriesPayload hbig hcap ht).ofSameImage himage)
    (himage.params.trans hout.params) (congrArg BitVec.toNat (himage.width.trans hout.width))
    (congrArg BitVec.toNat (himage.height.trans hout.height)) hL hN hcap

end Sys2Proof.Machine
end

section
/-! PROOFS. Variant B (43_variant_b.md): the pixels EMBED_B commits and the shape of its result (R182 to R189), what
EXTRACT_B gives (R190 to R194, R197, R198), and the two together: the round trip and the truncation at a zero code
(R195, R196). -/

namespace Sys2Proof.Machine

/-! ### EMBED_B (R182 to R189) -/

/-- No command changes the operand registers, CTRL, the sizes or what stands outside the block (R39, R58, R102). -/
theorem exec_sameOutside {i : Instr} {s t : State} (h : exec i s = .next t) : SameOutside s t := by
  obtain ⟨t', ht', hform⟩ := exec_form i s
  rw [h] at ht'; cases ht'
  exact hform.same

/-- Settles O44: `exec_embedB_result` commits the pixels below N that have a slot before 8(n+1), of which p_t has one
exactly when 3 does not divide 8(n+1). -/
theorem embedBResultShape : Obligations.EmbedBResultShape := by
  intro s hbig
  obtain ⟨t, ht, hdone, hpbuf, hgrid⟩ := exec_embedB_result hbig
  have hcommitted {p : Nat} (hp : p < s.N ∧ 3 * p < 8 * s.count + 8) : t.gridRead p = s.textPixel p :=
    (hgrid p).trans (if_pos hp)
  have huntouched {p : Nat} (hp : ¬ (p < s.N ∧ 3 * p < 8 * s.count + 8)) : t.gridRead p = s.gridRead p :=
    (hgrid p).trans (if_neg hp)
  refine ⟨t, ht, hdone, exec_sameOutside ht, hpbuf, fun hroom => ?_, fun hfull => ?_⟩
  · refine ⟨by omega, by omega, by omega, fun p hp => hcommitted (by omega), ?_, fun p hp => huntouched (by omega)⟩
    by_cases hk : 8 * (s.count + 1) % 3 = 0
    · rw [if_pos hk]; exact huntouched (by omega)
    · rw [if_neg hk]; exact hcommitted (by omega)
  · exact ⟨fun p hp => hcommitted (by omega), fun p hp => huntouched (by omega)⟩

/-! ### EXTRACT_B (R190 to R194, R197, R198) -/

theorem State.zero_notMem_text (s : State) : (0 : Byte) ∉ s.text := by
  intro h
  have hkept := List.mem_takeWhile_imp (p := fun c : Byte => decide (c ≠ 0)) h
  exact of_decide_eq_true hkept rfl

/-- Settles O46: the outputs by `exec_extractB_result`. -/
theorem extractBCompletes : Obligations.ExtractBCompletes := by
  intro s hL hbig
  obtain ⟨t, ht, hdone, hgrid, hlen, hpbuf⟩ := exec_extractB_result hL hbig
  exact ⟨t, ht, hdone, exec_sameOutside ht, hgrid, hlen, s.zero_notMem_text,
    fun j hj => (hpbuf j).trans (if_pos hj), fun j hj => (hpbuf j).trans (if_neg (Nat.not_lt_of_le hj))⟩

/-- No extract changes the image it reads (R33, R58). -/
theorem exec_extract_sameImage {i : Instr} {s t : State} (hi : isEmbed i = false) (hL : s.params.Legal)
    (h : exec i s = .next t) : SameImage s t :=
  have hout := exec_sameOutside h
  ⟨hout.params, hout.width, hout.height, (exec_writesWithin hL h).extract hi⟩

theorem SameImage.trans {s t u : State} (h : SameImage s t) (h' : SameImage t u) : SameImage s u :=
  ⟨h'.params.trans h.params, h'.width.trans h.width, h'.height.trans h.height, fun i => (h'.grid i).trans (h.grid i)⟩

/-- Settles O47: EXTRACT_B reads the image alone, which neither command and no one in between writes. -/
theorem extractBIsIdempotent : Obligations.ExtractBIsIdempotent := by
  intro s t s' hL ht hbetween
  have himage : SameImage s s' := (exec_extract_sameImage rfl hL ht).trans hbetween
  obtain ⟨t', u, ht', hu, hstatus, houtLen, -, -, hpbuf⟩ :=
    commandsReadOnlyTheirOperands .extractB s s' hL himage.params himage.width himage.height
      (fun p _ => himage.grid p) nofun
  rw [ht] at ht'; cases ht'
  have hkept : SameImage s' u := exec_extract_sameImage rfl (himage.params ▸ hL) hu
  exact ⟨u, hu, hstatus, houtLen, (himage.trans hkept).grid, hpbuf⟩

/-! ### The round trip and the truncation (R195, R196) -/

/-- `t` carries, in the grid of `s`, the text of `s` and its terminator as far as the grid has slots for them: every pixel
with such a slot is committed. -/
def CarriesText (s t : State) : Prop :=
  ∀ n, n < 8 * s.count + 8 → n < 3 * s.N → t.gridRead (n / 3) = s.textPixel (n / 3)

theorem exec_embedB_carriesText {s t : State} (hbig : ¬ s.embedTooBig) (h : exec .embedB s = .next t) :
    CarriesText s t := by
  obtain ⟨u, hu, -, -, hgrid⟩ := exec_embedB_result hbig
  rw [h] at hu; cases hu
  exact fun n hn hN => (hgrid _).trans (if_pos (by omega))

theorem CarriesText.ofSameImage {s t s' : State} (h : CarriesText s t) (himage : SameImage t s') : CarriesText s s' :=
  fun n hn hN => (himage.grid _).trans (h n hn hN)

/-- The text of `s`, as an extract is to read it, ends at `z`: at the first zero code or, if there is none, at the
terminator (R195, R196). -/
structure TextEndsAt (s : State) (z : Nat) : Prop where
  le : z ≤ s.count
  nonzero : ∀ j, j < z → s.pbufRead j ≠ 0
  zero : z < s.count → s.pbufRead z = 0

/-- The characters read where EMBED_B left a text are the text's, and then the terminator's 0. -/
theorem CarriesText.character {s t : State} (h : CarriesText s t) {g : Nat} (hg : g ≤ s.count)
    (hroom : 8 * (g + 1) ≤ 3 * s.N) : t.character g = if g < s.count then s.pbufRead g else 0 :=
  State.character_text hg fun i hi => h _ (by omega) (by omega)

section
variable {s t : State} {z : Nat} (h : CarriesText s t) (hN : t.N = s.N) (hz : TextEndsAt s z)
  (hroom : 8 * (z + 1) ≤ 3 * s.N)
include h hz hroom

theorem CarriesText.character_before {j : Nat} (hj : j < z) : t.character j = s.pbufRead j := by
  have hle := hz.le
  rw [h.character (by omega) (by omega), if_pos (by omega)]

theorem CarriesText.character_end : t.character z = 0 := by
  rw [h.character hz.le hroom]
  split
  · exact hz.zero ‹_›
  · rfl

include hN

theorem CarriesText.zero_mem_characters : (0 : Byte) ∈ t.characters :=
  List.mem_map.2 ⟨z, List.mem_range.2 (by omega), h.character_end hz hroom⟩

theorem CarriesText.text : t.text = s.pbufBytes z := by
  have hbefore {j : Nat} (hj : j < z) := h.character_before hz hroom hj
  rw [t.text_eq (by omega) (fun j hj => hbefore hj ▸ hz.nonzero j hj) (.inr (h.character_end hz hroom))]
  exact List.map_congr_left fun j hj => hbefore (List.mem_range.1 hj)

end

/-- EMBED_B and then EXTRACT_B, on the image that EMBED_B left, give the text as far as it ends. -/
theorem exec_extractB_after_embedB {s t s' : State} {z : Nat} (hL : s.params.Legal) (hbig : ¬ s.embedTooBig)
    (hz : TextEndsAt s z) (hroom : 8 * (z + 1) ≤ 3 * s.N) (ht : exec .embedB s = .next t) (himage : SameImage t s') :
    ∃ u, exec .extractB s' = .next u ∧ CompletedWith u .ok true z 0 ∧ ∀ j, j < z → u.pbufRead j = s.pbufRead j := by
  have hout := exec_sameOutside ht
  have hparams : s'.params = s.params := himage.params.trans hout.params
  have hN : s'.N = s.N := by
    rw [State.N, State.W, State.H, himage.width, himage.height, hout.width, hout.height]; rfl
  have hcarries : CarriesText s s' := (exec_embedB_carriesText hbig ht).ofSameImage himage
  have htext : s'.text = s.pbufBytes z := hcarries.text hN hz hroom
  have hzero : (0 : Byte) ∈ s'.characters := hcarries.zero_mem_characters hN hz hroom
  have hbig' : ¬ s'.gridTooBig := by
    rw [State.gridTooBig, hparams, hN]; exact (not_or.1 hbig).1
  obtain ⟨u, hu, hdone, -, -, hpbuf⟩ := exec_extractB_result (hparams ▸ hL) hbig'
  rw [if_pos hzero, decide_eq_true hzero, htext, State.length_pbufBytes] at hdone
  refine ⟨u, hu, hdone, fun j hj => ?_⟩
  rw [hpbuf j, htext, State.length_pbufBytes, if_pos hj, s.pbufBytes_getD hj]

/-- Settles O48: a text without a zero code ends at its terminator. -/
theorem variantBRoundTrip : Obligations.VariantBRoundTrip := by
  intro s hL hnonzero hroom hN hlen
  have hbig : ¬ s.embedTooBig := not_or.2 ⟨Nat.not_lt_of_le hN, Nat.not_lt_of_le hlen⟩
  have hz : TextEndsAt s s.count := ⟨le_rfl, hnonzero, fun h => absurd h (lt_irrefl _)⟩
  obtain ⟨t, ht, hdone, -⟩ := exec_embedB_result hbig
  refine ⟨t, ht, ?_, fun n hn => exec_embedB_carriesText hbig ht n hn (by omega),
    fun s' himage => exec_extractB_after_embedB hL hbig hz hroom ht himage⟩
  rw [hdone.status]
  exact decide_eq_true hroom

/-- Settles O49: a text with a zero code ends at the first. -/
theorem terminatorTruncation : Obligations.TerminatorTruncation := by
  intro s z hL hlt hzero hnonzero hroom hbig
  obtain ⟨t, ht, -⟩ := exec_form .embedB s
  exact ⟨t, ht, fun s' himage =>
    exec_extractB_after_embedB hL hbig ⟨hlt.le, hnonzero, fun _ => hzero⟩ hroom ht himage⟩

end Sys2Proof.Machine
end

section
/-! PROOFS. The exceptions of 60_exceptions.md: the order of each command's checks (R223), and that a fatal code comes with
no output (R220, R222, R225). -/

namespace Sys2Proof.Machine

/-! ### The order of the checks (R223) -/

/-- Command `i` completes from `s`, with CODE = `code` (R105). -/
def CompletesWithCode (i : Instr) (s : State) (code : BitVec 4) : Prop :=
  ∃ t, exec i s = .next t ∧ t.status.busy = false ∧ t.status.done = true ∧ t.status.code = code

theorem exec_completes (i : Instr) (s : State) :
    ∃ t, exec i s = .next t ∧ t.status.busy = false ∧ t.status.done = true := by
  obtain ⟨_, ht, _, _, _, _, _, _, rfl, hidle, hdone⟩ := exec_form i s
  exact ⟨_, ht, hidle, hdone⟩

/-- The capacity predicate of EMBED_A is that none of R223's three capacity checks fails (R150, R152). -/
theorem State.capOK_iff_checks (s : State) : capOK (8 * s.count) s.W s.H ↔
    ¬ 16777215 < 8 * s.count ∧ ¬ (s.W < 6 ∨ s.H < 1) ∧ ¬ (s.N : Int) - 6 < pixelsForBits (8 * s.count) := by
  rw [capOK, State.N, Nat.cast_mul, not_or, not_lt, not_lt, not_lt, not_lt]

theorem embedA_checkOrder (s : State) : CompletesWithCode .embedA s
    (if s.params.gridWords < s.N then 0x6
      else if s.params.pbufBytes < s.count then 0x6
      else if 16777215 < 8 * s.count then 0x1
      else if s.W < 6 ∨ s.H < 1 then 0x1
      else if (s.N : Int) - 6 < pixelsForBits (8 * s.count) then 0x1
      else 0x0) := by
  have hcap := s.capOK_iff_checks
  split_ifs with hgrid hcount hmax hsize hroom
  · exact ⟨_, exec_embedA_config (.inl hgrid), rfl, rfl, rfl⟩
  · exact ⟨_, exec_embedA_config (.inr hcount), rfl, rfl, rfl⟩
  · exact ⟨_, exec_embedA_capacity (not_or.2 ⟨hgrid, hcount⟩) fun h => (hcap.1 h).1 hmax, rfl, rfl, rfl⟩
  · exact ⟨_, exec_embedA_capacity (not_or.2 ⟨hgrid, hcount⟩) fun h => (hcap.1 h).2.1 hsize, rfl, rfl, rfl⟩
  · exact ⟨_, exec_embedA_capacity (not_or.2 ⟨hgrid, hcount⟩) fun h => (hcap.1 h).2.2 hroom, rfl, rfl, rfl⟩
  · exact ⟨_, exec_embedA_ok (not_or.2 ⟨hgrid, hcount⟩) (hcap.2 ⟨hmax, hsize, hroom⟩), rfl, rfl, rfl⟩

theorem extractA_checkOrder (s : State) : CompletesWithCode .extractA s
    (if s.params.gridWords < s.N then 0x6
      else if s.W < 6 ∨ s.H < 1 then 0x3
      else if (s.N : Int) - 6 < pixelsForBits (headerDecode s.readHeader) then 0x2
      else 0x0) := by
  split_ifs with hgrid hsize hlong
  · exact ⟨_, exec_extractA_config hgrid, rfl, rfl, rfl⟩
  · exact ⟨_, exec_extractA_truncated hgrid hsize, rfl, rfl, rfl⟩
  · exact ⟨_, exec_extractA_invalid hgrid hsize hlong, rfl, rfl, rfl⟩
  · obtain ⟨_, _, -, -, hok⟩ := exec_extractA_ok hgrid hsize hlong
    exact ⟨_, hok, rfl, rfl, rfl⟩

theorem embedB_checkOrder (s : State) : CompletesWithCode .embedB s
    (if s.params.gridWords < s.N then 0x6 else if s.params.pbufBytes < s.count then 0x6 else 0x0) := by
  split_ifs with hgrid hcount
  · exact ⟨_, exec_embedB_config (.inl hgrid), rfl, rfl, rfl⟩
  · exact ⟨_, exec_embedB_config (.inr hcount), rfl, rfl, rfl⟩
  · obtain ⟨_, hok, -⟩ := exec_embedB_ok (not_or.2 ⟨hgrid, hcount⟩)
    exact ⟨_, hok, rfl, rfl, rfl⟩

/-- EXTRACT_B's code when its one check passes: whether the grid forms a zero character (R192, R193). -/
theorem exec_extractB_code {s t : State} (hL : s.params.Legal) (hgrid : ¬ s.gridTooBig)
    (h : exec .extractB s = .next t) : t.status.code = if (0 : Byte) ∈ s.characters then 0x0 else 0x4 := by
  obtain ⟨u, hu, hdone, -⟩ := exec_extractB_result hL hgrid
  rw [h] at hu; cases hu
  rw [hdone.status]
  exact apply_ite codeValue _ _ _

/-- Settles O32: the outcomes of each command's checks, in R223's order, and acceptance, which has none. -/
theorem checkOrder : Obligations.CheckOrder := by
  refine fun s => ⟨embedA_checkOrder s, extractA_checkOrder s, embedB_checkOrder s, ?_,
    fun op => ⟨s.raise .illegalCommand, rfl, rfl, rfl, rfl⟩,
    fun hb v => ⟨s.accept v, transact_ctrlWrite_idle hb v, rfl, s.heldCommand_accept v⟩⟩
  obtain ⟨t, ht, hidle, hdone⟩ := exec_completes .extractB s
  refine ⟨t, ht, hidle, hdone, fun hbig => ?_, fun hfits hL => exec_extractB_code hL (Nat.not_lt_of_le hfits) ht⟩
  rw [exec_extractB_config hbig] at ht; cases ht
  rfl

/-! ### Fatal codes (R220, R222, R225) -/

/-- The configuration check is the one check of Variant B that can fail with a fatal code (R222, R223). -/
theorem codeFatal_of_variantB {i : Instr} {s t : State} {c : Code} (hi : i = .embedB ∨ i = .extractB)
    (hpass : ¬ ConfigFails i s) (h : exec i s = .next t) (hc : t.status.code = codeValue c) : codeFatal c = false := by
  obtain ⟨c₁, hmem, hcode⟩ := exec_completionCode h
  obtain ⟨c₂, hne, hcode'⟩ := exec_code_of_not_configFails hpass h
  obtain rfl := codeValue_injective (hc.symm.trans hcode)
  obtain rfl := codeValue_injective (hc.symm.trans hcode')
  rcases hi with rfl | rfl
  · obtain rfl : c = .ok := by simpa [hne] using hmem
    rfl
  · obtain rfl | rfl : c = .ok ∨ c = .missingTerminator := by simpa [hne] using hmem
    · rfl
    · rfl

/-- A command completes with a fatal code in two ways: it raises the code with nothing set, or it is EXTRACT_A and HDR is
the length decoded (R221, R225). -/
theorem exec_fatal {i : Instr} {s t : State} {c : Code} (h : exec i s = .next t) (hc : t.status.code = codeValue c)
    (hfatal : codeFatal c = true) :
    t = s.raise c ∨ c = .invalidLength ∧
      t = s.startExtractA.complete .invalidLength false 0 (BitVec.ofNat 24 (headerDecode s.readHeader)) := by
  have hcode {c' : Code} (h' : t.status.code = codeValue c') : c = c' := codeValue_injective (hc.symm.trans h')
  have hok : t.status.code ≠ codeValue .ok := fun h' => by rw [hcode h'] at hfatal; cases hfatal
  have hB (hi : i = .embedB ∨ i = .extractB) (hpass : ¬ ConfigFails i s) : False := by
    rw [codeFatal_of_variantB hi hpass h hc] at hfatal; cases hfatal
  obtain ⟨c', -, rfl⟩ | ⟨rfl, -, -, rfl⟩ | ⟨rfl, -, -, -, rfl⟩ | ⟨rfl, hg, ht, hl⟩ | ⟨rfl, hbig⟩ | ⟨rfl, hg⟩ := exec_cases h
  · exact .inl (hcode rfl ▸ rfl)
  · exact absurd rfl hok
  · exact .inr ⟨hcode rfl, rfl⟩
  · obtain ⟨_, _, -, -, hdone⟩ := exec_extractA_ok hg ht hl
    rw [h] at hdone; cases hdone
    exact absurd rfl hok
  · exact (hB (.inl rfl) fun hfails => hbig (hfails.imp_right And.right)).elim
  · exact (hB (.inr rfl) fun hfails => hg (hfails.resolve_right fun ⟨hi, _⟩ => hi.elim nofun nofun)).elim

/-- Settles O34: both ways of `exec_fatal` write the status outputs and no memory. -/
theorem fatalCodesLeaveNoOutput : Obligations.FatalCodesLeaveNoOutput := by
  intro i s t c h hc hfatal
  have hout := exec_sameOutside h
  obtain rfl | ⟨rfl, rfl⟩ := exec_fatal h hc hfatal
  · exact ⟨fun _ => rfl, fun _ => rfl, hout, rfl, rfl, fun _ => rfl⟩
  · exact ⟨fun _ => rfl, fun _ => rfl, hout, rfl, rfl, fun hne => absurd rfl hne⟩

end Sys2Proof.Machine
end

section
/-! PROOFS. Reset and hazards (70_reset_and_hazards.md): the host's discipline (R255 to R257), the STATUS read after a
CTRL write (R258), what reset leaves (R250, R251), and the memory ports while a command runs (R62, R255). -/

namespace Sys2Proof.Machine

/-! ### The host's discipline (R255 to R257) -/

/-- Settles O59: `step_disciplined` is the case split on whose move the step is. -/
theorem everyStepKeepsTheDiscipline : Obligations.EveryStepKeepsTheDiscipline := fun _ h => step_disciplined h

/-- Settles O57: by induction on the number of steps, each of which keeps the discipline. -/
theorem disciplinedHostsNeverFault : Obligations.DisciplinedHostsNeverFault := fun _ h k => safeFor_of_disciplined k h

/-! ### The first STATUS read after a CTRL write (R258) -/

/-- While no command runs, a CTRL write that comes next is accepted by the next step (R100). -/
theorem step_ctrlWrite_idle {s : State} {v : Word} {is : List Input} (hb : s.status.busy = false)
    (hi : s.inputs = .issue (.regWrite 0 v) :: is) : step s = .next (State.accept { s with inputs := is } v) :=
  (step_input hb hi).trans (transact_ctrlWrite_idle (s := { s with inputs := is }) hb v)

/-- While no command runs, a STATUS read that comes next is answered by the next step. -/
theorem step_statusRead_idle {s : State} {is : List Input} (hb : s.status.busy = false)
    (hi : s.inputs = .issue (.regRead 1) :: is) :
    step s = .next { s with inputs := is, replies := .word (s.regRead 1) :: s.replies } :=
  step_input hb hi

/-- On a host turn while a command runs, a STATUS read that comes next is answered and leaves the command running. -/
theorem step_statusRead_hostTurn {s : State} {turns : List Agent} {is : List Input} (hb : s.status.busy = true)
    (hs : s.schedule = .host :: turns) (hi : s.inputs = .issue (.regRead 1) :: is) :
    step s = .next { s with schedule := turns, inputs := is, replies := .word (s.regRead 1) :: s.replies } :=
  step_host hb hs hi

/-- `w` is the STATUS of the busy block `s`, or the STATUS its command completes with when the next move is the
engine's. -/
def RunningOrCompleted (s : State) (w : Word) : Prop :=
  w = s.regRead 1 ∨ ∃ u, exec s.heldCommand { s with schedule := s.schedule.tail } = .next u ∧ w = u.regRead 1 ∧
    u.status.busy = false ∧ u.status.done = true

/-- A STATUS read that comes next while a command runs is over within two steps: on a host turn it finds the command
running, and otherwise the engine completes the command before it. -/
theorem run_statusRead_busy {s : State} {is : List Input} (hb : s.status.busy = true)
    (hi : s.inputs = .issue (.regRead 1) :: is) :
    ∃ k t w, k ≤ 2 ∧ core.run k s = .next t ∧ t.inputs = is ∧ t.replies = .word w :: s.replies ∧
      RunningOrCompleted s w := by
  by_cases hturn : hostTurn s
  · obtain ⟨turns, _, _, hs, -⟩ := hturn
    exact ⟨1, _, _, by omega, run_next (step_statusRead_hostTurn hb hs hi) 0, rfl, rfl, .inl rfl⟩
  · obtain ⟨u, hexec, hform⟩ := exec_form s.heldCommand { s with schedule := s.schedule.tail }
    have same := hform.same
    have hout := exec_completionOutputs hexec
    have hcomplete : step s = .next u := (step_engine hb hturn).trans hexec
    have hread := step_statusRead_idle hout.busy (same.inputs.trans hi)
    exact ⟨2, _, u.regRead 1, Nat.le_refl 2, (run_next hcomplete 1).trans (run_next hread 0), rfl,
      congrArg _ same.replies, .inr ⟨u, hexec, rfl, hout.busy, hout.done⟩⟩

/-- Settles O56: the CTRL write is accepted in one step, STATUS then reads 1, and the read is over within two steps; a
write while busy changes nothing. -/
theorem firstStatusReadIsNeverStale : Obligations.FirstStatusReadIsNeverStale := by
  refine ⟨fun s v is hb hi => ?_, fun s v hb => ⟨s, transact_regWrite_busy hb 0 v, rfl⟩⟩
  obtain ⟨k, t, w, hk, hrun, hinputs, hreplies, hw⟩ :=
    run_statusRead_busy (s := State.accept { s with inputs := .issue (.regRead 1) :: is } v) rfl rfl
  refine ⟨k + 1, t, w, Nat.succ_le_succ hk, (run_next (step_ctrlWrite_idle hb hi) k).trans hrun, hinputs, hreplies, ?_⟩
  obtain hrunning | ⟨u, hexec, hcompleted, hidle, hdone⟩ := hw
  · exact .inl (hrunning.trans statusWord_acceptedStatus)
  · rw [State.heldCommand_accept] at hexec
    exact .inr ⟨_, u, hexec, ⟨⟨rfl, rfl, rfl, fun _ => rfl⟩, rfl, fun _ => rfl⟩, hcompleted, hidle, hdone⟩

/-! ### What reset leaves (R250, R251) -/

/-- A GRID word in range that nobody has written since the last reset reads as that reset drew it (R254). -/
theorem State.gridRead_unwritten {s : State} (hg : s.grid = []) {j : Nat} (hj : j < s.params.gridWords) :
    s.gridRead j = Config.gridDraw s.resets j := by
  rw [State.gridRead, if_pos hj, State.gridCell, hg]
  rfl

/-- A PBUF byte in range that nobody has written since the last reset reads as that reset drew it (R254). -/
theorem State.pbufRead_unwritten {s : State} (hp : s.pbuf = []) {j : Nat} (hj : j < s.params.pbufBytes) :
    s.pbufRead j = Config.pbufDraw s.resets j := by
  rw [State.pbufRead, if_pos hj, State.pbufCell, hp]
  rfl

/-- The block is as reset number `n` leaves it (R250). -/
structure AfterReset (n : Nat) (t : State) : Prop where
  registers : ∀ i, t.regRead i = 0
  idle : t.status.busy = false
  grid : ∀ j, j < t.params.gridWords → t.gridRead j = Config.gridDraw n j
  pbuf : ∀ j, j < t.params.pbufBytes → t.pbufRead j = Config.pbufDraw n j

theorem afterReset_platformReset (s : State) : AfterReset (s.resets + 1) s.platformReset where
  registers := s.regRead_platformReset
  idle := rfl
  grid _ hj := State.gridRead_unwritten (s := s.platformReset) rfl hj
  pbuf _ hj := State.pbufRead_unwritten (s := s.platformReset) rfl hj

/-- The registers of the first reset are those of any other. -/
theorem afterReset_reset : AfterReset 0 State.reset where
  registers := State.reset.regRead_platformReset
  idle := rfl
  grid _ hj := State.gridRead_unwritten rfl hj
  pbuf _ hj := State.pbufRead_unwritten rfl hj

/-- Settles O14: registers, engine and memories after the first reset and after every other. -/
theorem resetState : Obligations.ResetState := by
  obtain ⟨hregs, hidle, hgrid, hpbuf⟩ := afterReset_reset
  refine ⟨hregs, hidle, hgrid, hpbuf, fun s => ?_⟩
  obtain ⟨hregs, hidle, hgrid, hpbuf⟩ := afterReset_platformReset s
  exact ⟨s.platformReset, rfl, hregs, hidle, hgrid, hpbuf, rfl⟩

/-- Settles O15: the host turn is the reset, and an idle block with no input waits. -/
theorem resetAbandonsTheCommand : Obligations.ResetAbandonsTheCommand := by
  intro s turns is hb hs hi
  obtain ⟨hregs, hidle, hgrid, hpbuf⟩ := afterReset_platformReset { s with schedule := turns, inputs := is }
  exact ⟨_, step_host hb hs hi, hregs, hidle, rfl, rfl, hgrid, hpbuf, step_idle hidle⟩

/-! ### The memory ports while a command runs (R62, R255) -/

/-- Settles O18: each memory transaction of a busy block is its port's fault, and `transact_next` answers every other. -/
theorem memoryAccessWhileBusyFaults : Obligations.MemoryAccessWhileBusyFaults := by
  refine ⟨fun s i hb => ⟨if_pos hb, fun _ => if_pos hb, if_pos hb, fun _ => if_pos hb⟩, fun s t h => ?_⟩
  obtain ⟨u, hu, -⟩ := transact_next (t := t) (s := s) fun hm => h.resolve_right (by simp [hm])
  exact ⟨u, hu⟩

end Sys2Proof.Machine
end
